-- ==== Sys2Proof/Word.lean ====
section
/-! DEFINITION. The words of the block (bytes, event words) and the named modes of its agents
(00_scope.md R10; 10_state.md R36, R38, R40, R43; 30_encoding.md R90). -/

namespace Sys2Proof

/-- An 8-bit byte: a map cell, an index, a token, a slot byte (R8, R10). -/
abbrev Byte := BitVec 8

/-- The 10-bit event word of the bus port: `kind` in bits 9:8, `byte` in bits 7:0 (R90). -/
abbrev EventWord := BitVec 10

/-- A 16-bit pattern: the raw reading or the temperature in hundredths of a degree (R63, R103). -/
abbrev Half := BitVec 16

/-- `write_state`, the command-decoder state of the bus-slave emulator (R36). -/
inductive WriteState where
  | awaitingIndex
  | genericData
  | awaitingSubCommand
  | awaitingTargetAddr
  | awaitingValueHi
  | awaitingValueLo
  deriving DecidableEq, Repr, Inhabited

/-- `bstate`, the state of the host port's bridge (R38). -/
inductive BridgeState where
  | idle
  | awaitIndexRead
  | awaitIndexWrite
  | awaitValue
  deriving DecidableEq, Repr, Inhabited

/-- `ow_state`, the state of the single-wire sequencer (R40). -/
inductive OwState where
  | idle
  | converting
  | reading
  deriving DecidableEq, Repr, Inhabited

/-- `ow_timing`, the serial timing of the single-wire transport (R43). -/
inductive OwTiming where
  | resetTiming
  | bitTiming
  deriving DecidableEq, Repr, Inhabited

/-- A bus event: what a non-reserved event word spells (R90). -/
inductive BusEvent where
  /-- address phase: the byte is an address or command -/
  | addr (b : Byte)
  /-- data phase: the master writes a byte -/
  | wdata (b : Byte)
  /-- read request: the master reads a byte -/
  | rreq
  deriving DecidableEq, Repr, Inhabited

/-- The concatenation `{hi, lo}` of R10: the high byte in the high bits. -/
def joinBytes (hi lo : Byte) : Half := hi ++ lo

end Sys2Proof
end

