-- ==== Sys2Proof/Config.lean ====
section
/-! DEFINITION. What an implementation fixes (00_scope.md R9) and the free values the spec leaves open
(93_implementation_defined.md part 1). Every constant here is opaque: a claim holds for every value of it. -/

namespace Sys2Proof

/-- `HOOK_MODE` (R9, R132): what a read request transmits when the poll hook holds. -/
inductive HookMode where
  | override
  | sideEffectOnly
  deriving DecidableEq, Repr, Inhabited

/-- `OW_ABSENT_READ` (R9, R214): what `Reading` does when no device answers the reset. -/
inductive AbsentRead where
  | stale
  | readAnyway
  deriving DecidableEq, Repr, Inhabited

/-- `OW_BIT_DECODE` (R9, R184): how an echo gives a bit. -/
inductive BitDecode where
  | allOnes
  | lsb
  deriving DecidableEq, Repr, Inhabited

/-- The named parameters of R9. `LOOP_DELAY`, the two baud rates and `BUS_UNHANDLED_RESPONSE`, which the spec
names as not modelled, are left out. -/
structure Params where
  /-- `SUB_BYTE` -/
  subByte : Byte
  /-- `ACK_BYTE` -/
  ackByte : Byte
  /-- `ST_CMD_START` -/
  stCmdStart : Byte
  /-- `ST_SUB_OK` -/
  stSubOk : Byte
  /-- `ST_TARGET` -/
  stTarget : Byte
  /-- `ST_VALUE_HI` -/
  stValueHi : Byte
  /-- `ST_COMPLETE` -/
  stComplete : Byte
  /-- `ST_HOOK` -/
  stHook : Byte
  /-- `FW_VERSION_MAJOR` -/
  fwVersionMajor : Byte
  /-- `FW_VERSION_MINOR` -/
  fwVersionMinor : Byte
  /-- whether `CURVE_SELECT` is 1 (its domain is 0 or 1) -/
  curveSelected : Bool
  /-- `HOOK_MODE` -/
  hookMode : HookMode
  /-- `OW_ABSENT_READ` -/
  absentRead : AbsentRead
  /-- `N1_OW - 1` (`N1_OW` is at least 1) -/
  n1Less1 : Nat
  /-- `N2_OW - 1` (`N2_OW` is at least 1) -/
  n2Less1 : Nat
  /-- `OW_RESET_BYTE` -/
  owResetByte : Byte
  /-- `OW_WRITE1_SLOT` -/
  owWrite1Slot : Byte
  /-- `OW_WRITE0_SLOT` -/
  owWrite0Slot : Byte
  /-- `OW_READ_SLOT` -/
  owReadSlot : Byte
  /-- `OW_BIT_DECODE` -/
  bitDecode : BitDecode
  /-- `OW_CMD_SELECT_ALL` -/
  cmdSelectAll : Byte
  /-- `OW_CMD_START_CONVERSION` -/
  cmdStartConversion : Byte
  /-- `OW_CMD_READ_RESULT` -/
  cmdReadResult : Byte
  deriving DecidableEq, Repr, Inhabited

/-- `N1_OW`, at least 1 by its form (R9, R211). -/
def Params.n1 (p : Params) : Nat := p.n1Less1 + 1

/-- `N2_OW`, at least 1 by its form (R9, R211). -/
def Params.n2 (p : Params) : Nat := p.n2Less1 + 1

/-- `CURVE_SELECT`, 0 or 1 (R9, R271). -/
def Params.curveSelect (p : Params) : Byte := if p.curveSelected then 1#8 else 0#8

/-- The three single-wire command bytes differ. True of the defaults of R102, which the source does not fix;
only the decoding of a command byte by its value needs it. -/
def Params.commandsDiffer (p : Params) : Bool :=
  p.cmdSelectAll != p.cmdStartConversion && p.cmdSelectAll != p.cmdReadResult &&
    p.cmdStartConversion != p.cmdReadResult

/-- The machine's parameters: opaque, so that a claim about the machine holds for every choice of them
(log 4; D8, D10, D15, D16, D19, D20, D22, D23). -/
opaque Config.params : Params

/-- The parameters with the slot, command and mode defaults of R9 and the opcode table; the OPEN ones stay the
machine's opaque ones. Only the reading of a table word uses it (log 13). -/
def Config.tableParams : Params :=
  { Config.params with
    hookMode := .override
    absentRead := .stale
    owResetByte := 0xF0#8
    owWrite1Slot := 0xFF#8
    owWrite0Slot := 0x00#8
    owReadSlot := 0xFF#8
    bitDecode := .allOnes
    cmdSelectAll := 0xCC#8
    cmdStartConversion := 0x44#8
    cmdReadResult := 0xBE#8 }

/-- One byte store of the out-of-block `NTC` agent: cell `202 + cell` takes `value` (R251). -/
structure NtcWrite where
  cell : Fin 6
  value : Byte
  deriving DecidableEq, Repr, Inhabited

/-- How far a move of the main loop goes in a tick that uses the single-wire line (R189; log 17). -/
inductive Pace where
  /-- through the whole tick: no bus event falls inside it -/
  | wholeTick
  /-- up to the next point at which R189 lets a bus event fall: the tick's start, or one half of an exchange -/
  | oneSlice
  deriving DecidableEq, Repr, Inhabited

/-- Who moves next in the interleaving of R74 and R245, or what an environment agent of R12 sends. -/
inductive Move where
  /-- the bus-slave handler takes the oldest waiting bus event, if there is one -/
  | bsp
  /-- the main loop takes its next step -/
  | main (pace : Pace)
  /-- `BUS_MASTER` issues an event word -/
  | busMaster (w : EventWord)
  /-- `HOST` sends a byte -/
  | host (b : Byte)
  deriving DecidableEq, Repr, Inhabited

/-- Free value: who moves at the `n`-th draw (R245, D3, D29; log 1). -/
opaque Config.freeMove : Nat → Move

/-- Free value: the echo `OW_LINE` answers at the `n`-th draw (R181, U11; log 6). -/
opaque Config.freeEcho : Nat → Byte

/-- Free value: whether the high byte of a 16-bit field is stored first, at the `n`-th draw (R69, U12; log 7). -/
opaque Config.freeOrder : Nat → Bool

/-- Free value: the stored pattern of a temperature outside the 16-bit range, at the `n`-th draw (R218, U10; log 8). -/
opaque Config.freeTemp : Nat → Half

/-- Free value: the stores `NTC` makes in one iteration, at the `n`-th draw (R251, U13; log 9). -/
opaque Config.freeNtc : Nat → List NtcWrite

end Sys2Proof
end

