-- ==== Sys2Proof/Syntax.lean ====
section
/-! DEFINITION. The instructions: one constructor per row of spec/opcode_table.json, in the table's order
(30_encoding.md R108). -/

namespace Sys2Proof

/-- The block's instructions (R2, R108). An operand stands where the row leaves the byte free. -/
inductive Instr where
  /-- BUS.DISABLED: any event while `map[241] = 0` (R121) -/
  | busDisabled (e : BusEvent)
  /-- BUS.ADDR.INDEX: address phase with a register index (R123) -/
  | busAddrIndex (b : Byte)
  /-- BUS.ADDR.START: address phase with the command-start byte 0xFE (R124) -/
  | busAddrStart
  /-- BUS.WDATA.GENERIC: mirrored write at the cursor (R126) -/
  | busWdataGeneric (b : Byte)
  /-- BUS.WDATA.SUB_MATCH: the expected sub-command `SUB_BYTE` (R127) -/
  | busWdataSubMatch
  /-- BUS.WDATA.SUB_MISMATCH: any other byte after a command start (R128) -/
  | busWdataSubMismatch (b : Byte)
  /-- BUS.WDATA.TARGET: capture the target address (R129) -/
  | busWdataTarget (b : Byte)
  /-- BUS.WDATA.VALUE_HI: capture the high byte (R130) -/
  | busWdataValueHi (b : Byte)
  /-- BUS.WDATA.VALUE_LO: capture the low byte and complete (R131) -/
  | busWdataValueLo (b : Byte)
  /-- BUS.RREQ.MIRROR: mirrored read (R133) -/
  | busRreqMirror
  /-- BUS.RREQ.HOOK: the poll hook fires (R134, R135) -/
  | busRreqHook
  /-- BUS.RESERVED: an event word of kind 11 (R97) -/
  | busReserved (b : Byte)
  /-- BUS.RESERVED.RREQ: a read-request word with a non-zero byte (R97) -/
  | busReservedRreq (b : Byte)
  /-- HOST.LEAD.R: the leading byte 'R' (R162) -/
  | hostLeadR
  /-- HOST.R.INDEX: the index of a read (R163) -/
  | hostRIndex (b : Byte)
  /-- HOST.LEAD.W: the leading byte 'W' (R164) -/
  | hostLeadW
  /-- HOST.W.INDEX: the index of a write (R165) -/
  | hostWIndex (b : Byte)
  /-- HOST.W.VALUE: the value of a write (R166) -/
  | hostWValue (b : Byte)
  /-- HOST.LEAD.OTHER: any other leading byte (R167) -/
  | hostLeadOther (b : Byte)
  /-- OW.TOUCHBYTE: one duplex byte exchange (R180) -/
  | owTouchByte (v : Byte)
  /-- OW.RESET: reset pulse and presence detect (R182) -/
  | owReset
  /-- OW.WRITEBIT1: touchBit(1) (R183) -/
  | owWriteBit1
  /-- OW.WRITEBIT0: touchBit(0) (R183) -/
  | owWriteBit0
  /-- OW.READBIT: a read slot (R184) -/
  | owReadBit
  /-- OW.WRITEBYTE: eight write slots (R185) -/
  | owWriteByte (v : Byte)
  /-- OW.READBYTE: eight read slots (R186) -/
  | owReadByte
  /-- OW.CMD.SELECT_ALL (R187) -/
  | owCmdSelectAll
  /-- OW.CMD.START_CONVERSION (R187) -/
  | owCmdStartConversion
  /-- OW.CMD.READ_RESULT (R187) -/
  | owCmdReadResult
  /-- OW_SEQ.TICK.IDLE (R212) -/
  | owSeqTickIdle
  /-- OW_SEQ.TICK.CONVERTING (R213) -/
  | owSeqTickConverting
  /-- OW_SEQ.TICK.READING (R214) -/
  | owSeqTickReading
  deriving DecidableEq, Repr, Inhabited

end Sys2Proof
end

