-- ==== Sys2Proof/WellFormed.lean ====
section
/-! DEFINITION. Which instruction terms a word can spell: the rows' conditions on the byte itself
(30_encoding.md R92, R93, R97, R99). Conditions on the agents' modes are in Decode.lean. -/

namespace Sys2Proof

/-- The operand byte is one the row admits. -/
def Instr.wellFormed (p : Params) (i : Instr) : Bool :=
  match i with
  | .busDisabled _ => true
  -- R92: 0xFE is the command start, never a register index
  | .busAddrIndex b => b != 0xFE#8
  | .busAddrStart => true
  | .busWdataGeneric _ => true
  | .busWdataSubMatch => true
  -- R128: any byte but SUB_BYTE
  | .busWdataSubMismatch b => b != p.subByte
  | .busWdataTarget _ => true
  | .busWdataValueHi _ => true
  | .busWdataValueLo _ => true
  | .busRreqMirror => true
  | .busRreqHook => true
  | .busReserved _ => true
  -- R97: a read request with byte 0 is not reserved
  | .busReservedRreq b => b != 0#8
  | .hostLeadR => true
  | .hostRIndex _ => true
  | .hostLeadW => true
  | .hostWIndex _ => true
  | .hostWValue _ => true
  -- R167: neither 'R' nor 'W'
  | .hostLeadOther b => b != 0x52#8 && b != 0x57#8
  | .owTouchByte _ => true
  | .owReset => true
  | .owWriteBit1 => true
  | .owWriteBit0 => true
  | .owReadBit => true
  | .owWriteByte _ => true
  | .owReadByte => true
  | .owCmdSelectAll => true
  | .owCmdStartConversion => true
  | .owCmdReadResult => true
  | .owSeqTickIdle => true
  | .owSeqTickConverting => true
  | .owSeqTickReading => true

end Sys2Proof
end

