-- ==== Sys2Proof/Decode.lean ====
section
/-! DEFINITION. Decoding (30_encoding.md R90–R105): a word, with the port it stands on and the mode bits that
R105 says change decoding, gives one row of the opcode table or a rejection by name. After it the encoder. -/

namespace Sys2Proof

/-- The mode bits that select the row of a bus event (R105, R132, R138). -/
structure BusMode where
  /-- `map[241] != 0` (R121) -/
  enabled : Bool
  writeState : WriteState
  /-- the poll hook of R132 -/
  hook : Bool
  deriving DecidableEq, Repr, Inhabited

/-- What a byte is sent on the single-wire line for: the opcode table says that the use tells equal bytes apart. -/
inductive LineUse where
  | exchange
  | reset
  | writeBit (x : Bool)
  | readBit
  | writeByte
  | readByte
  | command
  deriving DecidableEq, Repr, Inhabited

/-- Where a word stands: its port and the modes that decide its row. -/
inductive Context where
  | bus (m : BusMode)
  | host (st : BridgeState)
  | line (u : LineUse)
  | tick (st : OwState)
  deriving DecidableEq, Repr, Inhabited

/-- Why a word on a port spells no instruction. No event word and no host byte is rejected: reserved event words are
rows of their own (R97), and every host byte has a meaning (R99). -/
inductive DecodeError where
  /-- the number does not fit the 10 bits of an event word (R90) -/
  | notAnEventWord
  /-- the number does not fit one byte (R98, R100) -/
  | notAByte
  /-- the byte is not the slot byte of its use (R100) -/
  | notTheSlotByte
  /-- the byte is none of the three commands (R102) -/
  | notACommand
  /-- a tick has no encoded bits (opcode table, R210) -/
  | tickHasNoBits
  deriving DecidableEq, Repr

/-- `START_BYTE` (R8, R92). -/
def startByte : Byte := 0xFE#8

/-- The byte of the character 'R' (R91). -/
def readToken : Byte := 0x52#8

/-- The byte of the character 'W' (R91). -/
def writeToken : Byte := 0x57#8

/-- `kind`, bits 9:8 of an event word (R90). -/
def EventWord.kind (w : EventWord) : BitVec 2 := w.extractLsb' 8 2

/-- `byte`, bits 7:0 of an event word (R90). -/
def EventWord.byte (w : EventWord) : Byte := w.extractLsb' 0 8

/-- The event word of kind `k` and byte `b` (R90). -/
def eventWord (k : BitVec 2) (b : Byte) : EventWord := k ++ b

/-- The word spells no event: kind 11, or a read request whose byte is not 0 (R97). -/
def EventWord.reserved (w : EventWord) : Bool :=
  EventWord.kind w == 3#2 || (EventWord.kind w == 2#2 && EventWord.byte w != 0#8)

/-- The row a bus event takes (R138): the enable gate first (R121), then the event's kind. -/
def selectEvent (p : Params) (m : BusMode) (e : BusEvent) : Instr :=
  if m.enabled then
    match e with
    | .addr b => if b = startByte then .busAddrStart else .busAddrIndex b
    | .wdata b =>
      match m.writeState with
      | .awaitingIndex => .busWdataGeneric b
      | .genericData => .busWdataGeneric b
      | .awaitingSubCommand => if b = p.subByte then .busWdataSubMatch else .busWdataSubMismatch b
      | .awaitingTargetAddr => .busWdataTarget b
      | .awaitingValueHi => .busWdataValueHi b
      | .awaitingValueLo => .busWdataValueLo b
    | .rreq => if m.hook then .busRreqHook else .busRreqMirror
  else .busDisabled e

/-- Decode an event word (R90, R97): reserved words first, whatever the modes. -/
def decodeBus (p : Params) (m : BusMode) (w : EventWord) : Instr :=
  if EventWord.kind w = 3#2 then .busReserved (EventWord.byte w)
  else if EventWord.kind w = 2#2 then
    if EventWord.byte w = 0#8 then selectEvent p m .rreq else .busReservedRreq (EventWord.byte w)
  else if EventWord.kind w = 1#2 then selectEvent p m (.wdata (EventWord.byte w))
  else selectEvent p m (.addr (EventWord.byte w))

/-- Decode a host byte (R99): by value in `Idle`, by state elsewhere. -/
def decodeHost (st : BridgeState) (b : Byte) : Instr :=
  match st with
  | .idle =>
    if b = readToken then .hostLeadR else if b = writeToken then .hostLeadW else .hostLeadOther b
  | .awaitIndexRead => .hostRIndex b
  | .awaitIndexWrite => .hostWIndex b
  | .awaitValue => .hostWValue b

/-- The row of a tick (R105, R210). -/
def decodeTick (st : OwState) : Instr :=
  match st with
  | .idle => .owSeqTickIdle
  | .converting => .owSeqTickConverting
  | .reading => .owSeqTickReading

/-- The row of a byte sent on the single-wire line in a given use (R100–R102). -/
def decodeLine (p : Params) (u : LineUse) (v : Byte) : Except DecodeError Instr :=
  match u with
  | .exchange => .ok (.owTouchByte v)
  | .reset => if v = p.owResetByte then .ok .owReset else .error .notTheSlotByte
  | .writeBit true => if v = p.owWrite1Slot then .ok .owWriteBit1 else .error .notTheSlotByte
  | .writeBit false => if v = p.owWrite0Slot then .ok .owWriteBit0 else .error .notTheSlotByte
  | .readBit => if v = p.owReadSlot then .ok .owReadBit else .error .notTheSlotByte
  | .writeByte => .ok (.owWriteByte v)
  | .readByte => if v = p.owReadSlot then .ok .owReadByte else .error .notTheSlotByte
  | .command =>
    if v = p.cmdSelectAll then .ok .owCmdSelectAll
    else if v = p.cmdStartConversion then .ok .owCmdStartConversion
    else if v = p.cmdReadResult then .ok .owCmdReadResult
    else .error .notACommand

/-- The decoder, total on any number. -/
def decode (p : Params) (c : Context) (w : Nat) : Except DecodeError Instr :=
  match c with
  | .bus m => if w < 1024 then .ok (decodeBus p m (BitVec.ofNat 10 w)) else .error .notAnEventWord
  | .host st => if w < 256 then .ok (decodeHost st (BitVec.ofNat 8 w)) else .error .notAByte
  | .line u => if w < 256 then decodeLine p u (BitVec.ofNat 8 w) else .error .notAByte
  | .tick st => if w = 0 then .ok (decodeTick st) else .error .tickHasNoBits

/-! ## The encoder -/

/-- The event word of a bus event (R90). -/
def BusEvent.word (e : BusEvent) : EventWord :=
  match e with
  | .addr b => eventWord 0#2 b
  | .wdata b => eventWord 1#2 b
  | .rreq => eventWord 2#2 0#8

/-- The word of an instruction, numbered with bit 0 least significant (R90, R98, R100–R102). -/
def encode (p : Params) (i : Instr) : Nat :=
  match i with
  | .busDisabled e => e.word.toNat
  | .busAddrIndex b => (eventWord 0#2 b).toNat
  | .busAddrStart => (eventWord 0#2 0xFE#8).toNat
  | .busWdataGeneric b => (eventWord 1#2 b).toNat
  | .busWdataSubMatch => (eventWord 1#2 p.subByte).toNat
  | .busWdataSubMismatch b => (eventWord 1#2 b).toNat
  | .busWdataTarget b => (eventWord 1#2 b).toNat
  | .busWdataValueHi b => (eventWord 1#2 b).toNat
  | .busWdataValueLo b => (eventWord 1#2 b).toNat
  | .busRreqMirror => (eventWord 2#2 0#8).toNat
  | .busRreqHook => (eventWord 2#2 0#8).toNat
  | .busReserved b => (eventWord 3#2 b).toNat
  | .busReservedRreq b => (eventWord 2#2 b).toNat
  | .hostLeadR => 0x52
  | .hostRIndex b => b.toNat
  | .hostLeadW => 0x57
  | .hostWIndex b => b.toNat
  | .hostWValue b => b.toNat
  | .hostLeadOther b => b.toNat
  | .owTouchByte v => v.toNat
  | .owReset => p.owResetByte.toNat
  | .owWriteBit1 => p.owWrite1Slot.toNat
  | .owWriteBit0 => p.owWrite0Slot.toNat
  | .owReadBit => p.owReadSlot.toNat
  | .owWriteByte v => v.toNat
  | .owReadByte => p.owReadSlot.toNat
  | .owCmdSelectAll => p.cmdSelectAll.toNat
  | .owCmdStartConversion => p.cmdStartConversion.toNat
  | .owCmdReadResult => p.cmdReadResult.toNat
  | .owSeqTickIdle => 0
  | .owSeqTickConverting => 0
  | .owSeqTickReading => 0

/-- The width in bits the opcode table gives the row. -/
def Instr.width (i : Instr) : Nat :=
  match i with
  | .busDisabled _ => 10
  | .busAddrIndex _ => 10
  | .busAddrStart => 10
  | .busWdataGeneric _ => 10
  | .busWdataSubMatch => 10
  | .busWdataSubMismatch _ => 10
  | .busWdataTarget _ => 10
  | .busWdataValueHi _ => 10
  | .busWdataValueLo _ => 10
  | .busRreqMirror => 10
  | .busRreqHook => 10
  | .busReserved _ => 10
  | .busReservedRreq _ => 10
  | .hostLeadR => 8
  | .hostRIndex _ => 8
  | .hostLeadW => 8
  | .hostWIndex _ => 8
  | .hostWValue _ => 8
  | .hostLeadOther _ => 8
  | .owTouchByte _ => 8
  | .owReset => 8
  | .owWriteBit1 => 8
  | .owWriteBit0 => 8
  | .owReadBit => 8
  | .owWriteByte _ => 8
  | .owReadByte => 8
  | .owCmdSelectAll => 8
  | .owCmdStartConversion => 8
  | .owCmdReadResult => 8
  | .owSeqTickIdle => 0
  | .owSeqTickConverting => 0
  | .owSeqTickReading => 0

/-! ## The rows' conditions on the modes -/

/-- A condition on the bus port's modes, false on every other port. -/
def Context.onBus (c : Context) (f : BusMode → Bool) : Bool :=
  match c with
  | .bus m => f m
  | .host _ => false
  | .line _ => false
  | .tick _ => false

/-- The row's condition in the opcode table: its port and the modes that select it. -/
def Instr.fits (i : Instr) (c : Context) : Bool :=
  match i with
  | .busDisabled _ => c.onBus fun m => !m.enabled
  | .busAddrIndex _ => c.onBus fun m => m.enabled
  | .busAddrStart => c.onBus fun m => m.enabled
  | .busWdataGeneric _ => c.onBus fun m =>
      m.enabled && (m.writeState == .awaitingIndex || m.writeState == .genericData)
  | .busWdataSubMatch => c.onBus fun m => m.enabled && m.writeState == .awaitingSubCommand
  | .busWdataSubMismatch _ => c.onBus fun m => m.enabled && m.writeState == .awaitingSubCommand
  | .busWdataTarget _ => c.onBus fun m => m.enabled && m.writeState == .awaitingTargetAddr
  | .busWdataValueHi _ => c.onBus fun m => m.enabled && m.writeState == .awaitingValueHi
  | .busWdataValueLo _ => c.onBus fun m => m.enabled && m.writeState == .awaitingValueLo
  | .busRreqMirror => c.onBus fun m => m.enabled && !m.hook
  | .busRreqHook => c.onBus fun m => m.enabled && m.hook
  | .busReserved _ => c.onBus fun _ => true
  | .busReservedRreq _ => c.onBus fun _ => true
  | .hostLeadR => c == .host .idle
  | .hostRIndex _ => c == .host .awaitIndexRead
  | .hostLeadW => c == .host .idle
  | .hostWIndex _ => c == .host .awaitIndexWrite
  | .hostWValue _ => c == .host .awaitValue
  | .hostLeadOther _ => c == .host .idle
  | .owTouchByte _ => c == .line .exchange
  | .owReset => c == .line .reset
  | .owWriteBit1 => c == .line (.writeBit true)
  | .owWriteBit0 => c == .line (.writeBit false)
  | .owReadBit => c == .line .readBit
  | .owWriteByte _ => c == .line .writeByte
  | .owReadByte => c == .line .readByte
  | .owCmdSelectAll => c == .line .command
  | .owCmdStartConversion => c == .line .command
  | .owCmdReadResult => c == .line .command
  | .owSeqTickIdle => c == .tick .idle
  | .owSeqTickConverting => c == .tick .converting
  | .owSeqTickReading => c == .tick .reading

/-! ## A word of the opcode table, with no port beside it -/

/-- The context in which a bare table word is read (log 13). The table's formats share their low bits and a bare word
names no port, so the word is read in the format whose row fixes most of its bits: a tick where the row has fewer bits than
a byte row (the table gives the byte rows bit 8 and the ticks bit 0 at most), a single-wire or host byte the table fixes
whole, else an event word (enabled, generic state, no hook). -/
def tableContext (nbits w : Nat) : Context :=
  if w = 0x52 ∨ w = 0x57 then .host .idle
  else if w = 0xF0 then .line .reset
  else if w = 0xFF then .line (.writeBit true)
  else if w = 0xCC ∨ w = 0x44 ∨ w = 0xBE then .line .command
  else if w = 0 ∧ nbits ≤ 8 then .tick .idle
  else .bus { enabled := true, writeState := .genericData, hook := false }

/-- The instruction the decoder reads from a bare word of the opcode table (log 13). -/
def decodeTableWord (nbits w : Nat) : Option Instr :=
  match decode Config.tableParams (tableContext nbits w) w with
  | .ok i => some i
  | .error _ => none

end Sys2Proof
end

