-- ==== Sys2Proof/Machine/State.lean ====
section
/-! DEFINITION. The state of the block (10_state.md R20–R47), as plain data, and the state after reset
(70_reset_and_hazards.md R270, 10_state.md R47). -/

namespace Sys2Proof.Machine

/-- The RegisterMap as a list of cells in one canonical form: indices strictly rising, below 256, and no cell 0, which is what
an unlisted index reads as ("zero-initialized at startup", R20). -/
abbrev Memory := List Host.Cell

/-- The report that ends a bus event step: whether it was handled, and the byte a read request returns (R120). -/
structure BusReport where
  handled : Bool
  data : Option Byte
  deriving DecidableEq, Repr

/-- One byte exchange on the single-wire line (R180): the timing it ran at, the byte sent and the echo. -/
structure Exchange where
  timing : OwTiming
  sent : Byte
  echo : Byte
  deriving DecidableEq, Repr

/-- What a transport primitive returns to its caller (R180–R186); the model's own field, log 12. -/
inductive LineResult where
  /-- a primitive that returns nothing, or none called yet -/
  | nothing
  | echo (e : Byte)
  | presence (present : Bool)
  | bit (x : Bool)
  | byte (v : Byte)
  deriving DecidableEq, Repr

/-- One byte store of a main-loop agent (R68, R74). -/
structure Store where
  index : Byte
  value : Byte
  deriving DecidableEq, Repr

/-- The agent of the main loop that moves next (R253). -/
inductive MainPos where
  | bridge
  | spoofer
  | owSeq
  | ntc
  | delay
  deriving DecidableEq, Repr

/-- Where a tick that is run in slices stands: what its next exchange is for (R189, R212, R214; log 17). A list holds the slots
that come after that exchange. -/
inductive TickStage where
  /-- the reset of `Idle` -/
  | startReset
  /-- a write slot of select-all and start-conversion -/
  | startSlots (x : Bool) (rest : List Bool)
  /-- the reset of `Reading` -/
  | readReset
  /-- a write slot of select-all and read-result -/
  | commandSlots (x : Bool) (rest : List Bool)
  /-- a read slot of the low byte: the bit it reads, and the byte so far -/
  | lowSlots (i : Nat) (rest : List Nat) (r : Byte)
  /-- a read slot of the high byte -/
  | highSlots (i : Nat) (rest : List Nat) (r : Byte)
  deriving DecidableEq, Repr

/-- How far the start sequence of R270 has come: the `BOOT` write that is next, or running. -/
inductive Phase where
  | bootMajor
  | bootMinor
  | bootCurve
  | running
  deriving DecidableEq, Repr

/-- A transport primitive called by itself, as the vectors T1–T23 of 95_test_vectors.md do (log 14). -/
inductive LineCall where
  | touchByte (v : Byte)
  | reset
  | writeBit1
  | writeBit0
  | readBit
  | writeByte (v : Byte)
  | readByte
  | selectAll
  | startConversion
  | readResult
  deriving DecidableEq, Repr

/-- One entry of the schedule: a move of an agent, or a direct call of a transport primitive. -/
inductive Turn where
  | move (m : Move)
  | call (c : LineCall)
  deriving DecidableEq, Repr

/-- The environment as plain data: what it will answer next. Where a list is empty, the answer is the free value of Config
number `drawn` (log 21). -/
structure Env where
  /-- who moves next (R245) -/
  turns : List Turn
  /-- the next echoes of `OW_LINE` (R181) -/
  echoes : List Byte
  /-- for the next 16-bit stores, whether the high byte goes first (R69) -/
  orders : List Bool
  /-- the next results that R218 leaves unspecified -/
  temps : List Half
  /-- the stores of the next `NTC` iterations (R251) -/
  ntc : List (List NtcWrite)
  /-- how many free values have been drawn -/
  drawn : Nat
  deriving DecidableEq, Repr

/-- The state of the machine. -/
structure State where
  /-- the RegisterMap (R20) -/
  map : Memory
  /-- `write_state` (R36) -/
  writeState : WriteState
  /-- `cursor` (R37) -/
  cursor : Byte
  /-- `bstate` (R38) -/
  bstate : BridgeState
  /-- `bidx` (R39) -/
  bidx : Byte
  /-- `ow_state` (R40) -/
  owState : OwState
  /-- `ow_ticks` (R41) -/
  owTicks : Nat
  /-- `ow_scratch_lo` (R42) -/
  owScratchLo : Byte
  /-- `ow_scratch_hi` (R42) -/
  owScratchHi : Byte
  /-- `ow_timing` (R43) -/
  owTiming : OwTiming
  /-- the tick in progress, when the main loop runs it in slices (R189; log 17) -/
  owStage : Option TickStage
  /-- the byte of an exchange in progress: sent, its echo not yet received (R180, R189; log 17) -/
  owSending : Option Byte
  /-- the bus event queue, oldest first (R45, R243) -/
  busQueue : List EventWord
  /-- `host_in`, oldest first (R45) -/
  hostIn : List Byte
  /-- `host_out`, oldest first (R45) -/
  hostOut : List Byte
  /-- the mark of a refused input (R46) -/
  refused : Bool
  /-- the reports given to the bus port, oldest first (R120; log 12) -/
  busOut : List BusReport
  /-- the exchanges made on the single-wire port, oldest first (R180; log 12) -/
  owLog : List Exchange
  /-- what the last directly called transport primitive returned (log 12) -/
  owResult : LineResult
  /-- the start sequence (R270; log 11) -/
  phase : Phase
  /-- whose step the main loop takes next (R253) -/
  mainPos : MainPos
  /-- byte stores a main-loop agent has begun and not yet made, first one first (R69, R74; log 7) -/
  pendingStores : List Store
  /-- the environment (log 21) -/
  env : Env
  deriving DecidableEq, Repr

/-- Faults: the block has none ("No exception mechanism", R240; every index is in range, R62), so the type is empty. -/
inductive Fault where
  deriving DecidableEq, Repr

/-- Refusals. The spec's own refusal, of a reserved event word, is the mark `State.refused` and a next state (R97, log 3). -/
inductive Refusal where
  /-- raised by an arm of exec whose instruction has no meaning yet; safe; no arm raises it now -/
  | notModelled (mnemonic : String)
  deriving DecidableEq, Repr

/-- What one step of an instruction answers. -/
abbrev Result := Host.Outcome State Fault Refusal

/-- The environment of the reset state: nothing given, so every answer is a free value (log 21). -/
def Env.silent : Env :=
  { turns := [], echoes := [], orders := [], temps := [], ntc := [], drawn := 0 }

/-- The machine right after reset (R47, R270 step 1), before the first `BOOT` write. `owTiming` is the model's choice (log 5);
the fields of the model's own are at the values of log 7, 11, 12, 17, 20 and 21. -/
def State.reset : State :=
  { map := []
    writeState := .awaitingIndex
    cursor := 0#8
    bstate := .idle
    bidx := 0#8
    owState := .idle
    owTicks := 0
    owScratchLo := 0#8
    owScratchHi := 0#8
    owTiming := .resetTiming
    owStage := none
    owSending := none
    busQueue := []
    hostIn := []
    hostOut := []
    refused := false
    busOut := []
    owLog := []
    owResult := .nothing
    phase := .bootMajor
    mainPos := .bridge
    pendingStores := []
    env := Env.silent }

end Sys2Proof.Machine
end

