-- ==== Sys2Proof/Machine/Ops.lean ====
section
/-! DEFINITION. The named operations over the RegisterMap, the agents' registers, the ports and the environment
(00_scope.md R11, 20_memory.md R60–R75). There is no operation that takes an exception: R240, R246 and R247 say that
entering a bus event saves nothing and leaving it restores nothing. -/

namespace Sys2Proof.Machine

/-! ## The RegisterMap -/

/-- The byte at an index; an unlisted index reads 0 (R20, R47). -/
def Memory.read (m : Memory) (a : Nat) : Byte :=
  match m with
  | [] => 0#8
  | c :: rest => if c.1 = a then c.2 else Memory.read rest a

/-- The map without the cell at an index. -/
def Memory.erase (m : Memory) (a : Nat) : Memory := m.filter fun c => c.1 != a

/-- Insert a cell before the first one with a higher index. -/
def Memory.insert (m : Memory) (a : Nat) (v : Byte) : Memory :=
  match m with
  | [] => [(a, v)]
  | c :: rest => if a < c.1 then (a, v) :: c :: rest else c :: Memory.insert rest a v

/-- Store a byte, keeping the list rising and free of zero cells. -/
def Memory.write (m : Memory) (a : Nat) (v : Byte) : Memory :=
  if v = 0#8 then m.erase a else Memory.insert (m.erase a) a v

/-- The list is rising from `lo` on, below 256, and lists no zero byte. -/
def Memory.wfFrom (lo : Nat) (m : Memory) : Bool :=
  match m with
  | [] => true
  | c :: rest => decide (lo ≤ c.1) && decide (c.1 < 256) && (c.2 != 0#8) && Memory.wfFrom (c.1 + 1) rest

/-- The canonical form of the map: equal maps are equal lists. -/
def Memory.wf (m : Memory) : Bool := Memory.wfFrom 0 m

/-- `map[i]` (R11): an 8-bit index is always in range (R62). -/
def State.mapAt (s : State) (i : Byte) : Byte := s.map.read i.toNat

/-- `map[i] <- v` (R11). -/
def State.setMap (s : State) (i v : Byte) : State := { s with map := s.map.write i.toNat v }

/-! ## The agents' registers: `s <- v` of R11 -/

def State.setWriteState (s : State) (w : WriteState) : State := { s with writeState := w }

def State.setCursor (s : State) (c : Byte) : State := { s with cursor := c }

def State.setBstate (s : State) (b : BridgeState) : State := { s with bstate := b }

def State.setBidx (s : State) (b : Byte) : State := { s with bidx := b }

def State.setOwState (s : State) (o : OwState) : State := { s with owState := o }

def State.setOwTicks (s : State) (n : Nat) : State := { s with owTicks := n }

def State.setScratchLo (s : State) (b : Byte) : State := { s with owScratchLo := b }

def State.setScratchHi (s : State) (b : Byte) : State := { s with owScratchHi := b }

def State.setOwTiming (s : State) (t : OwTiming) : State := { s with owTiming := t }

def State.setStage (s : State) (st : Option TickStage) : State := { s with owStage := st }

def State.setSending (s : State) (v : Option Byte) : State := { s with owSending := v }

def State.setPhase (s : State) (p : Phase) : State := { s with phase := p }

def State.setMainPos (s : State) (m : MainPos) : State := { s with mainPos := m }

def State.setPending (s : State) (l : List Store) : State := { s with pendingStores := l }

def State.setEnv (s : State) (e : Env) : State := { s with env := e }

/-! ## The ports -/

def State.setBusQueue (s : State) (q : List EventWord) : State := { s with busQueue := q }

def State.setHostIn (s : State) (q : List Byte) : State := { s with hostIn := q }

/-- `return (handled, data)`: the report that ends a bus event step (R11, R120). -/
def State.answerBus (s : State) (handled : Bool) (data : Option Byte) : State :=
  { s with busOut := s.busOut ++ [{ handled := handled, data := data }] }

/-- `emit(HOST, v)` (R11). -/
def State.replyHost (s : State) (v : Byte) : State := { s with hostOut := s.hostOut ++ [v] }

/-- `refuse(reason)` (R11, R46, R97): the mark, and no other change. -/
def State.markRefused (s : State) : State := { s with refused := true }

/-- An event word arrives on the bus port: it waits behind the others (R243), and `refused` is set if the spec refuses its
encoding (R46, R97). That a refused word waits too is the model's reading (DEDUCED, log 3; safe). -/
def State.arriveEvent (s : State) (w : EventWord) : State :=
  { s with busQueue := s.busQueue ++ [w], refused := s.refused || EventWord.reserved w }

/-- Record one exchange on the single-wire port (R180). -/
def State.logExchange (s : State) (x : Exchange) : State := { s with owLog := s.owLog ++ [x] }

/-- Hand a directly called primitive's value to its caller (log 12). -/
def State.setLineResult (s : State) (r : LineResult) : State := { s with owResult := r }

/-! ## The environment: `draw()` of R11, and who moves next -/

/-- The next echo of `OW_LINE` (R181). -/
def Env.drawEcho (e : Env) : Byte × Env :=
  match e.echoes with
  | b :: rest => (b, { e with echoes := rest })
  | [] => (Config.freeEcho e.drawn, { e with drawn := e.drawn + 1 })

/-- Whether the high byte of a 16-bit field is stored first (R69). -/
def Env.drawOrder (e : Env) : Bool × Env :=
  match e.orders with
  | b :: rest => (b, { e with orders := rest })
  | [] => (Config.freeOrder e.drawn, { e with drawn := e.drawn + 1 })

/-- A result the spec leaves unspecified (R218). -/
def Env.drawTemp (e : Env) : Half × Env :=
  match e.temps with
  | t :: rest => (t, { e with temps := rest })
  | [] => (Config.freeTemp e.drawn, { e with drawn := e.drawn + 1 })

/-- The stores of one `NTC` iteration (R251). -/
def Env.drawNtc (e : Env) : List NtcWrite × Env :=
  match e.ntc with
  | l :: rest => (l, { e with ntc := rest })
  | [] => (Config.freeNtc e.drawn, { e with drawn := e.drawn + 1 })

/-- Who moves next (R245). A free draw is a move of an agent, never a direct call. -/
def Env.drawTurn (e : Env) : Turn × Env :=
  match e.turns with
  | t :: rest => (t, { e with turns := rest })
  | [] => (.move (Config.freeMove e.drawn), { e with drawn := e.drawn + 1 })

end Sys2Proof.Machine
end

