-- ==== Sys2Proof/Machine/Operands.lean ====
section
/-! DEFINITION. Operand forms: the cursor's advance (40_bus_slave.md R125), the bits of a byte on the line (R101), and the
assembly, conversion and splitting of the thermometer's reading (30_encoding.md R103; 43_onewire_sequencer.md R215–R218). -/

namespace Sys2Proof.Machine

/-- `adv(c) = min(c + 1, 255)` (R125). -/
def adv (c : Byte) : Byte := if c = 255#8 then 255#8 else c + 1#8

/-- The bits of a byte in the order they travel: bit 0 first (R64, R101). -/
def bitsOf (v : Byte) : List Bool :=
  [v.getLsbD 0, v.getLsbD 1, v.getLsbD 2, v.getLsbD 3, v.getLsbD 4, v.getLsbD 5, v.getLsbD 6, v.getLsbD 7]

/-- `r[i] <- x` on a byte whose bit `i` is 0 (R186). -/
def putBit (r : Byte) (i : Nat) (x : Bool) : Byte := if x then r ||| (1#8 <<< i) else r

/-- `raw = s16({msb, lsb})` (R103, R215). -/
def rawReading (hi lo : Byte) : Int := (joinBytes hi lo).toInt

/-- `conv(raw) = trunc(raw * 25 / 4)`, rounded toward zero (R216). -/
def conv (raw : Int) : Int := (raw * 25).tdiv 4

/-- The result fits the 16-bit signed range, so that R216 gives its bytes (else R218 leaves them unspecified). -/
def fitsHalf (t : Int) : Bool := decide (-32768 ≤ t) && decide (t ≤ 32767)

/-- `t[15:8]` (R103, R216). -/
def highByte (t : Half) : Byte := t.extractLsb' 8 8

/-- `t[7:0]` (R103, R216). -/
def lowByte (t : Half) : Byte := t.extractLsb' 0 8

/-- The two byte stores of `store16(i, v)`, in the order given: high byte at the lower index (R63, R69). -/
def pairStores (hiFirst : Bool) (i : Byte) (v : Half) : List Store :=
  if hiFirst then [⟨i, highByte v⟩, ⟨i + 1#8, lowByte v⟩] else [⟨i + 1#8, lowByte v⟩, ⟨i, highByte v⟩]

/-- At most one store to each cell in an `NTC` iteration: the first one drawn stands (U13). -/
def onceEach (l : List NtcWrite) : List NtcWrite :=
  match l with
  | [] => []
  | w :: rest => w :: (onceEach rest).filter fun u => u.cell != w.cell

/-- The store `NTC` makes for a draw: one of the cells 202–207 (R251). -/
def ntcStore (w : NtcWrite) : Store := ⟨BitVec.ofNat 8 (202 + w.cell.val), w.value⟩

end Sys2Proof.Machine
end

