-- ==== Sys2Proof/Machine/Flags.lean ====
section
/-! DEFINITION. The flags of the block: bytes of the map (10_state.md R44), the poll hook (40_bus_slave.md R132), the presence
result and the bit decode (42_onewire_transport.md R182, R184). -/

namespace Sys2Proof.Machine

/-- The bus-slave emulator is enabled: `map[241] != 0` (R29, R121). -/
def State.enabled (s : State) : Bool := s.mapAt 241#8 != 0#8

/-- A capture is pending: `CAP_LO != 0` (R30). -/
def State.capturePending (s : State) : Bool := s.mapAt 244#8 != 0#8

/-- The poll hook: `cursor == map[242] and map[244] != 0` (R132). -/
def State.hook (s : State) : Bool := s.cursor == s.mapAt 242#8 && s.capturePending

/-- Write a code to the bus-protocol status register `map[252]` (R31, R242). -/
def State.setStatus (s : State) (code : Byte) : State := s.setMap 252#8 code

/-- The modes that select the row of a bus event (R105). -/
def State.busMode (s : State) : BusMode :=
  { enabled := s.enabled, writeState := s.writeState, hook := s.hook }

/-- `presence <- (e != OW_RESET_BYTE)` (R182). -/
def presence (p : Params) (e : Byte) : Bool := e != p.owResetByte

/-- `decode(e)` of a read or write slot's echo (R184). -/
def decodeBit (p : Params) (e : Byte) : Bool :=
  match p.bitDecode with
  | .allOnes => e == 0xFF#8
  | .lsb => e.getLsbD 0

/-- The byte sent to write a bit (R183). -/
def writeSlot (p : Params) (x : Bool) : Byte := if x then p.owWrite1Slot else p.owWrite0Slot

end Sys2Proof.Machine
end

