-- ==== Sys2Proof/Machine/BusSlave.lean ====
section
/-! DEFINITION. The bus-slave protocol emulator (40_bus_slave.md R120–R138): the effect of each rule, the whole event step that
chooses among them, and one meaning per row. A row's word arriving in a state that selects another row does what that state
makes of the event (R138; log 2), so every meaning is the event step of its word. -/

namespace Sys2Proof.Machine

/-! ## The effect of each rule -/

/-- R121: not handled, nothing read or written. -/
def notHandled (s : State) : State := s.answerBus false none

/-- R123: the byte becomes the cursor. -/
def loadCursor (b : Byte) (s : State) : State :=
  ((s.setCursor b).setWriteState .genericData).answerBus true none

/-- R124: a command frame starts. -/
def startCommand (p : Params) (s : State) : State :=
  ((s.setWriteState .awaitingSubCommand).setStatus p.stCmdStart).answerBus true none

/-- R126: a mirrored write at the cursor, which then advances. -/
def mirrorWrite (b : Byte) (s : State) : State :=
  ((s.setMap s.cursor b).setCursor (adv s.cursor)).answerBus true none

/-- R127: the expected sub-command. -/
def acceptSub (p : Params) (s : State) : State :=
  ((s.setWriteState .awaitingTargetAddr).setStatus p.stSubOk).answerBus true none

/-- R128: any other byte aborts the frame and is discarded. -/
def rejectSub (s : State) : State := (s.setWriteState .awaitingIndex).answerBus true none

/-- R129: the target address. -/
def captureTarget (p : Params) (b : Byte) (s : State) : State :=
  (((s.setMap 242#8 b).setWriteState .awaitingValueHi).setStatus p.stTarget).answerBus true none

/-- R130: the value's high byte. -/
def captureHi (p : Params) (b : Byte) (s : State) : State :=
  (((s.setMap 243#8 b).setWriteState .awaitingValueLo).setStatus p.stValueHi).answerBus true none

/-- R131: the value's low byte, which completes the capture. -/
def captureLo (p : Params) (b : Byte) (s : State) : State :=
  (((s.setMap 244#8 b).setWriteState .awaitingIndex).setStatus p.stComplete).answerBus true none

/-- R133: the byte at the cursor, which then advances. -/
def mirrorRead (s : State) : State :=
  (s.setCursor (adv s.cursor)).answerBus true (some (s.mapAt s.cursor))

/-- The side effect of both hook modes: the capture is no longer pending, and the status says so (R134, R135). -/
def consumeCapture (p : Params) (s : State) : State := (s.setMap 244#8 0#8).setStatus p.stHook

/-- R134 (`OVERRIDE`: the captured byte, the cursor kept) and R135 (`SIDE_EFFECT_ONLY`: the mirror read, after the clear). -/
def fireHook (p : Params) (s : State) : State :=
  match p.hookMode with
  | .override => (consumeCapture p s).answerBus true (some (s.mapAt 244#8))
  | .sideEffectOnly => mirrorRead (consumeCapture p s)

/-! ## The event step -/

/-- The address phase of an enabled event (R122–R124). -/
def addrPhase (p : Params) (b : Byte) (s : State) : State :=
  if b = startByte then startCommand p s else loadCursor b s

/-- The data phase of an enabled event (R126–R131, R138). -/
def dataPhase (p : Params) (b : Byte) (s : State) : State :=
  match s.writeState with
  | .awaitingIndex => mirrorWrite b s
  | .genericData => mirrorWrite b s
  | .awaitingSubCommand => if b = p.subByte then acceptSub p s else rejectSub s
  | .awaitingTargetAddr => captureTarget p b s
  | .awaitingValueHi => captureHi p b s
  | .awaitingValueLo => captureLo p b s

/-- The read side of an enabled event (R132–R135). -/
def readSide (p : Params) (s : State) : State := if s.hook then fireHook p s else mirrorRead s

/-- One whole bus event (R120, R138): the enable gate first (R121). -/
def busEvent (p : Params) (e : BusEvent) (s : State) : State :=
  if s.enabled then
    match e with
    | .addr b => addrPhase p b s
    | .wdata b => dataPhase p b s
    | .rreq => readSide p s
  else notHandled s

/-! ## One meaning per row -/

/-- BUS.DISABLED (R121). -/
def execBusDisabled (e : BusEvent) (s : State) : Result := .next (busEvent Config.params e s)

/-- BUS.ADDR.INDEX (R123). -/
def execBusAddrIndex (b : Byte) (s : State) : Result := .next (busEvent Config.params (.addr b) s)

/-- BUS.ADDR.START (R124). -/
def execBusAddrStart (s : State) : Result := .next (busEvent Config.params (.addr startByte) s)

/-- BUS.WDATA.GENERIC (R126). -/
def execBusWdataGeneric (b : Byte) (s : State) : Result := .next (busEvent Config.params (.wdata b) s)

/-- BUS.WDATA.SUB_MATCH (R127): the byte is `SUB_BYTE`. -/
def execBusWdataSubMatch (s : State) : Result :=
  .next (busEvent Config.params (.wdata Config.params.subByte) s)

/-- BUS.WDATA.SUB_MISMATCH (R128). -/
def execBusWdataSubMismatch (b : Byte) (s : State) : Result := .next (busEvent Config.params (.wdata b) s)

/-- BUS.WDATA.TARGET (R129). -/
def execBusWdataTarget (b : Byte) (s : State) : Result := .next (busEvent Config.params (.wdata b) s)

/-- BUS.WDATA.VALUE_HI (R130). -/
def execBusWdataValueHi (b : Byte) (s : State) : Result := .next (busEvent Config.params (.wdata b) s)

/-- BUS.WDATA.VALUE_LO (R131). -/
def execBusWdataValueLo (b : Byte) (s : State) : Result := .next (busEvent Config.params (.wdata b) s)

/-- BUS.RREQ.MIRROR (R133). -/
def execBusRreqMirror (s : State) : Result := .next (busEvent Config.params .rreq s)

/-- BUS.RREQ.HOOK (R134, R135). -/
def execBusRreqHook (s : State) : Result := .next (busEvent Config.params .rreq s)

/-- BUS.RESERVED (R97): the mark is set and no other state changes, enabled or not. In a run the mark is set already, since the
word's arrival (R46). DEDUCED (log 3), safe: the spec says that the model has no step for the word; here the handler takes it from the
queue with no other effect. -/
def execBusReserved (_b : Byte) (s : State) : Result := .next s.markRefused

/-- BUS.RESERVED.RREQ (R97), as BUS.RESERVED. -/
def execBusReservedRreq (_b : Byte) (s : State) : Result := .next s.markRefused

end Sys2Proof.Machine
end

