-- ==== Sys2Proof/Machine/HostPort.lean ====
section
/-! DEFINITION. The host port (41_bridge_port.md R160–R171): the effect of each rule, the byte step that chooses among them by
`bstate` (R99, R161), and one meaning per row. A row's byte arriving in another state does what that state makes of it
(R99; log 2). -/

namespace Sys2Proof.Machine

/-- R162, R164, R167: the leading byte, read in `Idle`. -/
def leadByte (b : Byte) (s : State) : State :=
  if b = readToken then s.setBstate .awaitIndexRead
  else if b = writeToken then s.setBstate .awaitIndexWrite
  else s

/-- R163: the index of a read, and the reply. -/
def replyCell (b : Byte) (s : State) : State := (s.replyHost (s.mapAt b)).setBstate .idle

/-- R165: the index of a write. -/
def holdIndex (b : Byte) (s : State) : State := (s.setBidx b).setBstate .awaitValue

/-- R166: the store and the acknowledgement. -/
def storeCell (p : Params) (b : Byte) (s : State) : State :=
  ((s.setMap s.bidx b).replyHost p.ackByte).setBstate .idle

/-- One byte of the host port (R161). -/
def bridgeByte (p : Params) (b : Byte) (s : State) : State :=
  match s.bstate with
  | .idle => leadByte b s
  | .awaitIndexRead => replyCell b s
  | .awaitIndexWrite => holdIndex b s
  | .awaitValue => storeCell p b s

/-- HOST.LEAD.R (R162). -/
def execHostLeadR (s : State) : Result := .next (bridgeByte Config.params readToken s)

/-- HOST.R.INDEX (R163). -/
def execHostRIndex (b : Byte) (s : State) : Result := .next (bridgeByte Config.params b s)

/-- HOST.LEAD.W (R164). -/
def execHostLeadW (s : State) : Result := .next (bridgeByte Config.params writeToken s)

/-- HOST.W.INDEX (R165). -/
def execHostWIndex (b : Byte) (s : State) : Result := .next (bridgeByte Config.params b s)

/-- HOST.W.VALUE (R166). -/
def execHostWValue (b : Byte) (s : State) : Result := .next (bridgeByte Config.params b s)

/-- HOST.LEAD.OTHER (R167). -/
def execHostLeadOther (b : Byte) (s : State) : Result := .next (bridgeByte Config.params b s)

end Sys2Proof.Machine
end

