-- ==== Sys2Proof/Machine/Transport.lean ====
section
/-! DEFINITION. The single-wire transport (42_onewire_transport.md R180–R192): the primitives as the sequencer calls them, each
giving its value and the state after, and one meaning per row, which also hands the value to a direct caller (log 12, 14). -/

namespace Sys2Proof.Machine

/-- `touchByte(v)` (R180): one exchange at the current timing; the echo is a draw of `OW_LINE` (R181). -/
def touchByte (v : Byte) (s : State) : Byte × State :=
  (s.env.drawEcho.1,
    (s.setEnv s.env.drawEcho.2).logExchange ⟨s.owTiming, v, s.env.drawEcho.1⟩)

/-- `reset()` (R182): the reset byte at reset timing, then back to bit timing; the value is the presence. -/
def owReset (p : Params) (s : State) : Bool × State :=
  let r := touchByte p.owResetByte (s.setOwTiming .resetTiming)
  (presence p r.1, r.2.setOwTiming .bitTiming)

/-- `touchBit(x)` used to write a bit (R183): a writer discards the value. -/
def touchBit (p : Params) (x : Bool) (s : State) : Bool × State :=
  let r := touchByte (writeSlot p x) s
  (decodeBit p r.1, r.2)

/-- `readBit()` (R184). -/
def readBit (p : Params) (s : State) : Bool × State :=
  let r := touchByte p.owReadSlot s
  (decodeBit p r.1, r.2)

/-- Write slots for a list of bits, the first one first (R185). -/
def writeBits (p : Params) (l : List Bool) (s : State) : State :=
  match l with
  | [] => s
  | x :: rest => writeBits p rest (touchBit p x s).2

/-- `writeByte(v)` (R185): eight write slots, bit 0 first. -/
def writeByte (p : Params) (v : Byte) (s : State) : State := writeBits p (bitsOf v) s

/-- Read slots into the bits of `r` numbered by the list (R186). -/
def readBits (p : Params) (l : List Nat) (r : Byte) (s : State) : Byte × State :=
  match l with
  | [] => (r, s)
  | i :: rest => readBits p rest (putBit r i (readBit p s).1) (readBit p s).2

/-- `readByte()` (R186): eight read slots, bit 0 first. -/
def readByte (p : Params) (s : State) : Byte × State := readBits p (List.range 8) 0#8 s

/-! ## One meaning per row -/

/-- OW.TOUCHBYTE (R180). -/
def execOwTouchByte (v : Byte) (s : State) : Result :=
  .next ((touchByte v s).2.setLineResult (.echo (touchByte v s).1))

/-- OW.RESET (R182). -/
def execOwReset (s : State) : Result :=
  .next ((owReset Config.params s).2.setLineResult (.presence (owReset Config.params s).1))

/-- OW.WRITEBIT1 (R183). -/
def execOwWriteBit1 (s : State) : Result :=
  .next ((touchBit Config.params true s).2.setLineResult (.bit (touchBit Config.params true s).1))

/-- OW.WRITEBIT0 (R183). -/
def execOwWriteBit0 (s : State) : Result :=
  .next ((touchBit Config.params false s).2.setLineResult (.bit (touchBit Config.params false s).1))

/-- OW.READBIT (R184). -/
def execOwReadBit (s : State) : Result :=
  .next ((readBit Config.params s).2.setLineResult (.bit (readBit Config.params s).1))

/-- OW.WRITEBYTE (R185). -/
def execOwWriteByte (v : Byte) (s : State) : Result :=
  .next ((writeByte Config.params v s).setLineResult .nothing)

/-- OW.READBYTE (R186). -/
def execOwReadByte (s : State) : Result :=
  .next ((readByte Config.params s).2.setLineResult (.byte (readByte Config.params s).1))

/-- OW.CMD.SELECT_ALL (R187). -/
def execOwCmdSelectAll (s : State) : Result :=
  .next ((writeByte Config.params Config.params.cmdSelectAll s).setLineResult .nothing)

/-- OW.CMD.START_CONVERSION (R187). -/
def execOwCmdStartConversion (s : State) : Result :=
  .next ((writeByte Config.params Config.params.cmdStartConversion s).setLineResult .nothing)

/-- OW.CMD.READ_RESULT (R187). -/
def execOwCmdReadResult (s : State) : Result :=
  .next ((writeByte Config.params Config.params.cmdReadResult s).setLineResult .nothing)

end Sys2Proof.Machine
end

