-- ==== Sys2Proof/Machine/Sequencer.lean ====
section
/-! DEFINITION. The single-wire sequencer (43_onewire_sequencer.md R210–R221): one tick of each state, the tick that chooses by
`ow_state` (R210), and one meaning per row. A tick has no encoded bits and `ow_state` alone selects its row, so a row's tick in
another state is that state's tick (log 2). -/

namespace Sys2Proof.Machine

/-- `reset`, select-all, start-conversion of R212, after the threshold: the state moves on only when a device is present. -/
def startConversion (p : Params) (s : State) : State :=
  let r := owReset p s
  if r.1 then
    (writeByte p p.cmdStartConversion (writeByte p p.cmdSelectAll r.2)).setOwState .converting
  else r.2

/-- The tick in `Idle` (R211, R212). -/
def tickIdle (p : Params) (s : State) : State :=
  if s.owTicks + 1 < p.n1 then s.setOwTicks (s.owTicks + 1)
  else startConversion p (s.setOwTicks 0)

/-- The tick in `Converting` (R211, R213). -/
def tickConverting (p : Params) (s : State) : State :=
  if s.owTicks + 1 < p.n2 then s.setOwTicks (s.owTicks + 1)
  else (s.setOwTicks 0).setOwState .reading

/-- select-all, read-result and the two bytes, LSB then MSB (R214, R215). -/
def readScratch (p : Params) (s : State) : State :=
  let s1 := writeByte p p.cmdReadResult (writeByte p p.cmdSelectAll s)
  let lo := readByte p s1
  let hi := readByte p (lo.2.setScratchLo lo.1)
  hi.2.setScratchHi hi.1

/-- The stored pattern of the scratch bytes' temperature: R216 where the result fits 16 bits, and a draw where R218 leaves it
unspecified. -/
def temperature (s : State) : Half × State :=
  let t := conv (rawReading s.owScratchHi s.owScratchLo)
  if fitsHalf t then (BitVec.ofInt 16 t, s)
  else (s.env.drawTemp.1, s.setEnv s.env.drawTemp.2)

/-- `store16(i, v)` (R216): two byte steps in either order (R69). They are left in `pendingStores`, and each later step of the main
loop makes one (R74; log 7). -/
def store16 (i : Byte) (v : Half) (s : State) : State :=
  (s.setEnv s.env.drawOrder.2).setPending (s.pendingStores ++ pairStores s.env.drawOrder.1 i v)

/-- The read half of the tick in `Reading`: the scratch bytes are renewed when a device is present, or always with
`READ_ANYWAY` (R214). -/
def acquire (p : Params) (s : State) : State :=
  let r := owReset p s
  if r.1 || p.absentRead == .readAnyway then readScratch p r.2 else r.2

/-- The end of the tick in `Reading`: the conversion, the two stores, and back to `Idle` (R214, R216). -/
def finishReading (s : State) : State :=
  let r := temperature s
  ((store16 200#8 r.1 r.2).setOwState .idle).setOwTicks 0

/-- The tick in `Reading` (R214). -/
def tickReading (p : Params) (s : State) : State := finishReading (acquire p s)

/-- One tick (R210): what the rule of the current `ow_state` says. -/
def owTick (p : Params) (s : State) : State :=
  match s.owState with
  | .idle => tickIdle p s
  | .converting => tickConverting p s
  | .reading => tickReading p s

/-! ## A tick in slices (R189; log 17)

A tick that uses the line can also be run one half of an exchange at a time, so that a bus event may fall between any two exchanges
and during one. Each exchange is the same primitive the whole tick calls. -/

/-- The first stage of the tick that is due, if it uses the line (R211, R212, R214). -/
def firstStage (p : Params) (s : State) : Option TickStage :=
  match s.owState with
  | .idle => if s.owTicks + 1 < p.n1 then none else some .startReset
  | .converting => none
  | .reading => some .readReset

/-- Begin the tick in slices: `ow_ticks` goes back to 0 where the threshold of `Idle` is reached (R212). -/
def beginTick (st : TickStage) (s : State) : State :=
  match s.owState with
  | .idle => (s.setOwTicks 0).setStage (some st)
  | .converting => s.setStage (some st)
  | .reading => s.setStage (some st)

/-- The write slots of `Idle` that are left; after them the state moves on (R212). -/
def goStart (bits : List Bool) (s : State) : State :=
  match bits with
  | [] => (s.setStage none).setOwState .converting
  | x :: rest => s.setStage (some (.startSlots x rest))

/-- The read slots of the high byte that are left; after them the tick in `Reading` ends (R214). -/
def goHigh (left : List Nat) (r : Byte) (s : State) : State :=
  match left with
  | [] => finishReading ((s.setScratchHi r).setStage none)
  | i :: rest => s.setStage (some (.highSlots i rest r))

/-- The read slots of the low byte that are left; after them the high byte (R214, R215). -/
def goLow (left : List Nat) (r : Byte) (s : State) : State :=
  match left with
  | [] => goHigh (List.range 8) 0#8 (s.setScratchLo r)
  | i :: rest => s.setStage (some (.lowSlots i rest r))

/-- The write slots of `Reading` that are left; after them the low byte (R214). -/
def goCommand (bits : List Bool) (s : State) : State :=
  match bits with
  | [] => goLow (List.range 8) 0#8 s
  | x :: rest => s.setStage (some (.commandSlots x rest))

/-- The stage's exchange is a reset. -/
def TickStage.isReset (st : TickStage) : Bool :=
  match st with
  | .startReset => true
  | .startSlots _ _ => false
  | .readReset => true
  | .commandSlots _ _ => false
  | .lowSlots _ _ _ => false
  | .highSlots _ _ _ => false

/-- The byte the stage's exchange sends (R182–R184). -/
def TickStage.sends (p : Params) (st : TickStage) : Byte :=
  match st with
  | .startReset => p.owResetByte
  | .startSlots x _ => writeSlot p x
  | .readReset => p.owResetByte
  | .commandSlots x _ => writeSlot p x
  | .lowSlots _ _ _ => p.owReadSlot
  | .highSlots _ _ _ => p.owReadSlot

/-- The first half of an exchange: the byte goes out, a reset's after the switch of timing (R180, R182). -/
def sendHalf (p : Params) (st : TickStage) (s : State) : State :=
  (if st.isReset then s.setOwTiming .resetTiming else s).setSending (some (st.sends p))

/-- The second half: the primitive's echo and value, and the stage after it (R182–R186). -/
def echoHalf (p : Params) (st : TickStage) (s : State) : State :=
  match st with
  | .startReset =>
    let r := owReset p s
    if r.1 then goStart (bitsOf p.cmdSelectAll ++ bitsOf p.cmdStartConversion) r.2 else r.2.setStage none
  | .startSlots x rest => goStart rest (touchBit p x s).2
  | .readReset =>
    let r := owReset p s
    if r.1 || p.absentRead == .readAnyway then goCommand (bitsOf p.cmdSelectAll ++ bitsOf p.cmdReadResult) r.2
    else finishReading (r.2.setStage none)
  | .commandSlots x rest => goCommand rest (touchBit p x s).2
  | .lowSlots i rest r => goLow rest (putBit r i (readBit p s).1) (readBit p s).2
  | .highSlots i rest r => goHigh rest (putBit r i (readBit p s).1) (readBit p s).2

/-- One slice of a tick in progress: the half exchange that is next (R189). -/
def stageMove (p : Params) (st : TickStage) (s : State) : State :=
  match s.owSending with
  | none => sendHalf p st s
  | some _ => echoHalf p st (s.setSending none)

/-- OW_SEQ.TICK.IDLE (R212). -/
def execOwSeqTickIdle (s : State) : Result := .next (owTick Config.params s)

/-- OW_SEQ.TICK.CONVERTING (R213). -/
def execOwSeqTickConverting (s : State) : Result := .next (owTick Config.params s)

/-- OW_SEQ.TICK.READING (R214). -/
def execOwSeqTickReading (s : State) : Result := .next (owTick Config.params s)

end Sys2Proof.Machine
end

