-- ==== Sys2Proof/Machine/Dispatch.lean ====
section
/-! DEFINITION. exec: one arm per instruction, each one direct call of its meaning. -/

namespace Sys2Proof.Machine

/-- The meaning of an instruction. -/
def exec (i : Instr) (s : State) : Host.Outcome State Fault Refusal :=
  match i with
  | .busDisabled e => Sys2Proof.Machine.execBusDisabled e s
  | .busAddrIndex b => Sys2Proof.Machine.execBusAddrIndex b s
  | .busAddrStart => Sys2Proof.Machine.execBusAddrStart s
  | .busWdataGeneric b => Sys2Proof.Machine.execBusWdataGeneric b s
  | .busWdataSubMatch => Sys2Proof.Machine.execBusWdataSubMatch s
  | .busWdataSubMismatch b => Sys2Proof.Machine.execBusWdataSubMismatch b s
  | .busWdataTarget b => Sys2Proof.Machine.execBusWdataTarget b s
  | .busWdataValueHi b => Sys2Proof.Machine.execBusWdataValueHi b s
  | .busWdataValueLo b => Sys2Proof.Machine.execBusWdataValueLo b s
  | .busRreqMirror => Sys2Proof.Machine.execBusRreqMirror s
  | .busRreqHook => Sys2Proof.Machine.execBusRreqHook s
  | .busReserved b => Sys2Proof.Machine.execBusReserved b s
  | .busReservedRreq b => Sys2Proof.Machine.execBusReservedRreq b s
  | .hostLeadR => Sys2Proof.Machine.execHostLeadR s
  | .hostRIndex b => Sys2Proof.Machine.execHostRIndex b s
  | .hostLeadW => Sys2Proof.Machine.execHostLeadW s
  | .hostWIndex b => Sys2Proof.Machine.execHostWIndex b s
  | .hostWValue b => Sys2Proof.Machine.execHostWValue b s
  | .hostLeadOther b => Sys2Proof.Machine.execHostLeadOther b s
  | .owTouchByte v => Sys2Proof.Machine.execOwTouchByte v s
  | .owReset => Sys2Proof.Machine.execOwReset s
  | .owWriteBit1 => Sys2Proof.Machine.execOwWriteBit1 s
  | .owWriteBit0 => Sys2Proof.Machine.execOwWriteBit0 s
  | .owReadBit => Sys2Proof.Machine.execOwReadBit s
  | .owWriteByte v => Sys2Proof.Machine.execOwWriteByte v s
  | .owReadByte => Sys2Proof.Machine.execOwReadByte s
  | .owCmdSelectAll => Sys2Proof.Machine.execOwCmdSelectAll s
  | .owCmdStartConversion => Sys2Proof.Machine.execOwCmdStartConversion s
  | .owCmdReadResult => Sys2Proof.Machine.execOwCmdReadResult s
  | .owSeqTickIdle => Sys2Proof.Machine.execOwSeqTickIdle s
  | .owSeqTickConverting => Sys2Proof.Machine.execOwSeqTickConverting s
  | .owSeqTickReading => Sys2Proof.Machine.execOwSeqTickReading s

end Sys2Proof.Machine
end

