-- ==== Sys2Proof/Machine/Schedule.lean ====
section
/-! DEFINITION. Who moves next and which instruction that move runs (00_scope.md R12; 20_memory.md R74; 60_exceptions.md R243–R245,
R253; 70_reset_and_hazards.md R270, R271): everything a step does around exec. -/

namespace Sys2Proof.Machine

/-- What a step is about to do. -/
inductive Fetch where
  /-- a step that runs no instruction: its next state -/
  | quiet (t : State)
  /-- run an instruction in a state from which its input has been taken -/
  | run (i : Instr) (t : State)
  deriving DecidableEq, Repr

/-- The row of a directly called transport primitive (log 14). -/
def lineInstr (c : LineCall) : Instr :=
  match c with
  | .touchByte v => .owTouchByte v
  | .reset => .owReset
  | .writeBit1 => .owWriteBit1
  | .writeBit0 => .owWriteBit0
  | .readBit => .owReadBit
  | .writeByte v => .owWriteByte v
  | .readByte => .owReadByte
  | .selectAll => .owCmdSelectAll
  | .startConversion => .owCmdStartConversion
  | .readResult => .owCmdReadResult

/-- Take the next entry of the schedule (R245). -/
def State.takeTurn (s : State) : Turn × State := (s.env.drawTurn.1, s.setEnv s.env.drawTurn.2)

/-- The bus-slave handler's move: the oldest waiting event, one at a time (R243); nothing when none waits. -/
def bspFetch (p : Params) (s : State) : Fetch :=
  match s.busQueue with
  | [] => .quiet s
  | w :: rest => .run (decodeBus p s.busMode w) (s.setBusQueue rest)

/-- The sequencer's turn (R210): its tick, whole, or begun in slices where it uses the line and the pace asks for it (R189; log 17). -/
def tickFetch (p : Params) (pace : Pace) (s : State) : Fetch :=
  match pace with
  | .wholeTick => .run (decodeTick s.owState) s
  | .oneSlice =>
    match firstStage p s with
    | some st => .quiet (beginTick st s)
    | none => .run (decodeTick s.owState) s

/-- The turn of the main-loop agent that is next (R253). -/
def agentFetch (p : Params) (pace : Pace) (s : State) : Fetch :=
  match s.mainPos with
  | .bridge =>
    match s.hostIn with
    -- R161: no byte, no action
    | [] => .quiet (s.setMainPos .spoofer)
    | b :: rest => .run (decodeHost s.bstate b) ((s.setHostIn rest).setMainPos .spoofer)
  -- R251: SPOOFER writes nothing of the block's (log 10)
  | .spoofer => .quiet (s.setMainPos .owSeq)
  | .owSeq => tickFetch p pace (s.setMainPos .ntc)
  -- R251: NTC's stores, one byte a step, from the next step on
  | .ntc =>
    .quiet (((s.setEnv s.env.drawNtc.2).setPending ((onceEach s.env.drawNtc.1).map ntcStore)).setMainPos .delay)
  -- R253: LOOP_DELAY, then the next iteration (log 19)
  | .delay => .quiet (s.setMainPos .bridge)

/-- The main loop's move: a begun store first, one byte a step (R69, R74); then a slice of the tick in progress (R189); else the agent
whose turn it is (R253). -/
def mainFetch (p : Params) (pace : Pace) (s : State) : Fetch :=
  match s.pendingStores with
  | st :: rest => .quiet ((s.setMap st.index st.value).setPending rest)
  | [] =>
    match s.owStage with
    | some st => .quiet (stageMove p st s)
    | none => agentFetch p pace s

/-- A move of an agent, or the arrival of an input (R12; R46 marks a reserved word there). -/
def moveFetch (p : Params) (m : Move) (s : State) : Fetch :=
  match m with
  | .bsp => bspFetch p s
  | .main pace => mainFetch p pace s
  | .busMaster w => .quiet (s.arriveEvent w)
  | .host b => .quiet (s.setHostIn (s.hostIn ++ [b]))

/-- The entry of the schedule that is next. -/
def turnFetch (p : Params) (t : Turn) (s : State) : Fetch :=
  match t with
  | .move m => moveFetch p m s
  | .call c => .run (lineInstr c) s

/-- The next step: the three `BOOT` writes of R271, one a step (R74), then the schedule (R270). -/
def fetch (p : Params) (s : State) : Fetch :=
  match s.phase with
  | .bootMajor => .quiet ((s.setMap 250#8 p.fwVersionMajor).setPhase .bootMinor)
  | .bootMinor => .quiet ((s.setMap 251#8 p.fwVersionMinor).setPhase .bootCurve)
  | .bootCurve => .quiet ((s.setMap 253#8 p.curveSelect).setPhase .running)
  | .running => turnFetch p s.takeTurn.1 s.takeTurn.2

/-! ## Placing an input where the next step takes it (log 13) -/

/-- Put an entry at the head of the schedule of a running machine. -/
def State.placeTurn (s : State) (t : Turn) : State :=
  (s.setPhase .running).setEnv { s.env with turns := t :: s.env.turns }

/-- Put an event word at the head of the bus event queue, and the handler's move at the head of the schedule. -/
def State.placeEvent (s : State) (w : EventWord) : State :=
  (s.setBusQueue (w :: s.busQueue)).placeTurn (.move .bsp)

/-- Enable the bus-slave emulator if it is not. -/
def State.enable (s : State) : State := if s.enabled then s else s.setMap 241#8 1#8

/-- The main loop between two steps of its agents: no store begun, no tick in progress. -/
def State.settle (s : State) : State := ((s.setPending []).setStage none).setSending none

/-- Put a host byte at the head of `host_in` in a bridge state, with `BRIDGE` next in the main loop. -/
def State.placeHost (s : State) (st : BridgeState) (b : Byte) : State :=
  ((((s.setHostIn (b :: s.hostIn)).setBstate st).setMainPos .bridge).settle).placeTurn (.move (.main .wholeTick))

/-- Make the sequencer's tick next in the main loop, in a sequencer state. -/
def State.placeTick (s : State) (st : OwState) : State :=
  (((s.setOwState st).setMainPos .owSeq).settle).placeTurn (.move (.main .wholeTick))

/-- Make an instruction the very next one: its input at the head of its port, its agent next, and the modes that select its
row. -/
def State.place (p : Params) (i : Instr) (s : State) : State :=
  match i with
  | .busDisabled e => (s.setMap 241#8 0#8).placeEvent e.word
  | .busAddrIndex b => s.enable.placeEvent (eventWord 0#2 b)
  | .busAddrStart => s.enable.placeEvent (eventWord 0#2 startByte)
  | .busWdataGeneric b => (s.enable.setWriteState .genericData).placeEvent (eventWord 1#2 b)
  | .busWdataSubMatch => (s.enable.setWriteState .awaitingSubCommand).placeEvent (eventWord 1#2 p.subByte)
  | .busWdataSubMismatch b => (s.enable.setWriteState .awaitingSubCommand).placeEvent (eventWord 1#2 b)
  | .busWdataTarget b => (s.enable.setWriteState .awaitingTargetAddr).placeEvent (eventWord 1#2 b)
  | .busWdataValueHi b => (s.enable.setWriteState .awaitingValueHi).placeEvent (eventWord 1#2 b)
  | .busWdataValueLo b => (s.enable.setWriteState .awaitingValueLo).placeEvent (eventWord 1#2 b)
  | .busRreqMirror =>
      (if s.hook then s.enable.setMap 244#8 0#8 else s.enable).placeEvent (eventWord 2#2 0#8)
  | .busRreqHook =>
      (if s.hook then s.enable else ((s.enable.setMap 244#8 1#8).setMap 242#8 s.cursor)).placeEvent (eventWord 2#2 0#8)
  | .busReserved b => s.placeEvent (eventWord 3#2 b)
  | .busReservedRreq b => s.placeEvent (eventWord 2#2 b)
  | .hostLeadR => s.placeHost .idle readToken
  | .hostRIndex b => s.placeHost .awaitIndexRead b
  | .hostLeadW => s.placeHost .idle writeToken
  | .hostWIndex b => s.placeHost .awaitIndexWrite b
  | .hostWValue b => s.placeHost .awaitValue b
  | .hostLeadOther b => s.placeHost .idle b
  | .owTouchByte v => s.placeTurn (.call (.touchByte v))
  | .owReset => s.placeTurn (.call .reset)
  | .owWriteBit1 => s.placeTurn (.call .writeBit1)
  | .owWriteBit0 => s.placeTurn (.call .writeBit0)
  | .owReadBit => s.placeTurn (.call .readBit)
  | .owWriteByte v => s.placeTurn (.call (.writeByte v))
  | .owReadByte => s.placeTurn (.call .readByte)
  | .owCmdSelectAll => s.placeTurn (.call .selectAll)
  | .owCmdStartConversion => s.placeTurn (.call .startConversion)
  | .owCmdReadResult => s.placeTurn (.call .readResult)
  | .owSeqTickIdle => s.placeTick .idle
  | .owSeqTickConverting => s.placeTick .converting
  | .owSeqTickReading => s.placeTick .reading

/-- A bare table word made the very next instruction (log 13); a word that spells none changes nothing. -/
def State.placeWord (p : Params) (s : State) (nbits w : Nat) : State :=
  match decodeTableWord nbits w with
  | some i => s.place p i
  | none => s

end Sys2Proof.Machine
end

