-- ==== Sys2Proof/Machine/Step.lean ====
section
/-! DEFINITION. One step of the machine: what the schedule fetches, run by exec. -/

namespace Sys2Proof.Machine

/-- Run what was fetched. -/
def runFetch (f : Fetch) : Host.Outcome State Fault Refusal :=
  match f with
  | .quiet t => .next t
  | .run i t => exec i t

/-- One step of the interleaving of R74. -/
def step (s : State) : Host.Outcome State Fault Refusal := runFetch (fetch Config.params s)

/-- `s` with the instruction of a bare table word made the very next one (log 13). -/
def State.withFetchWord (s : State) (nbits w : Nat) : State := s.placeWord Config.params nbits w

end Sys2Proof.Machine
end

