-- ==== Sys2Proof/Safety.lean ====
section
/-! DEFINITION. What counts as a safe run, the invariant of the machine, and the words the claims are stated in. -/

namespace Sys2Proof.Machine

/-- No input without a meaning has been fed to the block (R46: "no run goes wrong"). -/
def State.safe (s : State) : Bool := !s.refused

/-- The tick counter is below the threshold of its state, and 0 in `Reading` (R41, R211). -/
def State.ticksInRange (p : Params) (s : State) : Bool :=
  match s.owState with
  | .idle => decide (s.owTicks < p.n1)
  | .converting => decide (s.owTicks < p.n2)
  | .reading => s.owTicks == 0

/-- A begun store goes to the thermometer's cells or to those of `NTC`: 200–207 (R60, R216, R251). -/
def Store.inZone (st : Store) : Bool := decide (200 ≤ st.index.toNat) && decide (st.index.toNat ≤ 207)

/-- Past the first reset the transport is at bit timing, but for a later reset in progress (R43, R182, R189, R212). -/
def State.timingSet (s : State) : Bool :=
  match s.owStage with
  | none => s.owState == .idle || s.owTiming == .bitTiming
  | some .startReset => true
  | some .readReset => s.owTiming == .bitTiming || s.owSending.isSome
  | some (.startSlots _ _) => s.owTiming == .bitTiming
  | some (.commandSlots _ _) => s.owTiming == .bitTiming
  | some (.lowSlots _ _ _) => s.owTiming == .bitTiming
  | some (.highSlots _ _ _) => s.owTiming == .bitTiming

/-- The state of the sequencer whose tick has the stage (R212, R214). -/
def TickStage.within (st : TickStage) : OwState :=
  match st with
  | .startReset => .idle
  | .startSlots _ _ => .idle
  | .readReset => .reading
  | .commandSlots _ _ => .reading
  | .lowSlots _ _ _ => .reading
  | .highSlots _ _ _ => .reading

/-- A tick in progress belongs to `ow_state` and has `ow_ticks` 0, the byte on the line is its stage's, and with no tick in progress
none is on the line (R180, R189, R210, R212). -/
def State.stageSound (p : Params) (s : State) : Bool :=
  match s.owStage with
  | none => s.owSending == none
  | some st => s.owState == st.within && s.owTicks == 0 && (s.owSending == none || s.owSending == some (st.sends p))

/-- A machine that a reserved event word has reached is marked, from the word's arrival on (R46). -/
def State.markSound (s : State) : Bool := s.refused || !s.busQueue.any EventWord.reserved

/-- The invariant of the machine: the map is in canonical form, the tick counter is below its threshold, begun stores stay in
their zone, the transport's timing is set once a reset has come, a tick in progress fits the sequencer's state, and no reserved event
word waits unmarked. -/
def State.inv (p : Params) (s : State) : Bool :=
  s.map.wf && s.ticksInRange p && s.pendingStores.all Store.inZone && s.timingSet && s.stageSound p && s.markSound

/-- The port a row belongs to (R108). -/
inductive Port where
  | bus
  | host
  | line
  | tick
  deriving DecidableEq, Repr

/-- The port of a row (R108). -/
def portOf (i : Instr) : Port :=
  match i with
  | .busDisabled _ => .bus
  | .busAddrIndex _ => .bus
  | .busAddrStart => .bus
  | .busWdataGeneric _ => .bus
  | .busWdataSubMatch => .bus
  | .busWdataSubMismatch _ => .bus
  | .busWdataTarget _ => .bus
  | .busWdataValueHi _ => .bus
  | .busWdataValueLo _ => .bus
  | .busRreqMirror => .bus
  | .busRreqHook => .bus
  | .busReserved _ => .bus
  | .busReservedRreq _ => .bus
  | .hostLeadR => .host
  | .hostRIndex _ => .host
  | .hostLeadW => .host
  | .hostWIndex _ => .host
  | .hostWValue _ => .host
  | .hostLeadOther _ => .host
  | .owTouchByte _ => .line
  | .owReset => .line
  | .owWriteBit1 => .line
  | .owWriteBit0 => .line
  | .owReadBit => .line
  | .owWriteByte _ => .line
  | .owReadByte => .line
  | .owCmdSelectAll => .line
  | .owCmdStartConversion => .line
  | .owCmdReadResult => .line
  | .owSeqTickIdle => .tick
  | .owSeqTickConverting => .tick
  | .owSeqTickReading => .tick

/-- Run instructions one after another, stopping at the first that gives no next state. -/
def execAll (l : List Instr) (s : State) : Result :=
  match l with
  | [] => .next s
  | i :: rest =>
    match exec i s with
    | .next t => execAll rest t
    | .fault f => .fault f
    | .refused r => .refused r

/-- `n` steps of the machine, stopping at the first that gives no next state. -/
def steps (n : Nat) (s : State) : Result :=
  match n with
  | 0 => .next s
  | k + 1 =>
    match step s with
    | .next t => steps k t
    | .fault f => .fault f
    | .refused r => .refused r

/-- `n` ticks of the sequencer with nothing between them (R210). -/
def ticks (p : Params) (n : Nat) (s : State) : State :=
  match n with
  | 0 => s
  | k + 1 => owTick p (ticks p k s)

/-- What an exchange sends, and at which timing. -/
def Exchange.slot (x : Exchange) : OwTiming × Byte := (x.timing, x.sent)

/-- The eight write slots of a byte, bit 0 first (R101, R185). -/
def byteSlots (p : Params) (t : OwTiming) (v : Byte) : List (OwTiming × Byte) :=
  (List.range 8).map fun i => (t, if v.getLsbD i then p.owWrite1Slot else p.owWrite0Slot)

/-- The eight read slots of a byte (R186). -/
def readSlots (p : Params) (t : OwTiming) : List (OwTiming × Byte) := List.replicate 8 (t, p.owReadSlot)

/-- The slot of a reset (R182). -/
def resetSlot (p : Params) : OwTiming × Byte := (.resetTiming, p.owResetByte)

/-- The line law `OW_IDLE_LINE` of an exchange (R181): a named assumption that a claim may take. -/
def Exchange.idleLine (x : Exchange) : Bool := x.echo == x.sent

/-- The line law `OW_WIRED_AND` of an exchange (R181): a named assumption that a claim may take. -/
def Exchange.wiredAnd (x : Exchange) : Bool := (x.echo &&& ~~~x.sent) == 0#8

end Sys2Proof.Machine
end

