-- ==== Sys2Proof/Certificates/Slice0/Obligations.lean ====
section
/-! DEFINITION. The statements for the provers. Each says that `exec` or `step` answers a next state and what that state is. Where a
statement writes `t = { s with … }`, the fields it does not name are unchanged: that is its frame; the bytes of the map are spoken
of through `Memory.read`. -/

open Sys2Proof Sys2Proof.Machine

/-! ## Reset and boot -/

/-- R47: the reset values (all of the table but `ow_timing`, which the rule leaves unspecified), and what `BOOT` leaves. -/
def Obligations.ResetAndBootLeaveTheRuleValues : Prop :=
  (∀ a, State.reset.map.read a = 0#8) ∧ State.reset.writeState = .awaitingIndex ∧ State.reset.cursor = 0#8 ∧
  State.reset.bstate = .idle ∧ State.reset.bidx = 0#8 ∧ State.reset.owState = .idle ∧ State.reset.owTicks = 0 ∧
  State.reset.owScratchLo = 0#8 ∧ State.reset.owScratchHi = 0#8 ∧ State.reset.busQueue = [] ∧ State.reset.hostIn = [] ∧
  State.reset.hostOut = [] ∧ State.reset.refused = false ∧
  ∃ t, steps 3 State.reset = .next t ∧ t.phase = .running ∧
    t.map.read 250 = Config.params.fwVersionMajor ∧ t.map.read 251 = Config.params.fwVersionMinor ∧
    t.map.read 253 = Config.params.curveSelect ∧
    ∀ a, a ≠ 250 → a ≠ 251 → a ≠ 253 → t.map.read a = 0#8

/-- R270 steps 2 and 4, R271: whatever waits on the ports and whatever the schedule says, the first three steps are the `BOOT`
writes and nothing else (their order is the model's, log 11). -/
def Obligations.BootWritesComeBeforeEveryEvent : Prop :=
  ∀ s : State, s.phase = .bootMajor →
    ∃ t, steps 3 s = .next t ∧ t = { s with map := t.map, phase := .running } ∧
      t.map.read 250 = Config.params.fwVersionMajor ∧ t.map.read 251 = Config.params.fwVersionMinor ∧
      t.map.read 253 = Config.params.curveSelect ∧
      ∀ a, a ≠ 250 → a ≠ 251 → a ≠ 253 → t.map.read a = s.map.read a

/-! ## Steps -/

/-- A step runs the instruction its input decodes to, in the state from which that input was taken: an event word (R120, R243),
a host byte (R161), a tick (R210; taken whole, or in slices where it uses no line: log 17), or a directly called transport primitive
(log 14). -/
def Obligations.StepRunsTheDecodedInstruction : Prop :=
  (∀ (s : State) (w : EventWord) (q : List EventWord), s.phase = .running → s.env.drawTurn.1 = .move .bsp → s.busQueue = w :: q →
    step s = exec (decodeBus Config.params s.busMode w) { s with env := s.env.drawTurn.2, busQueue := q }) ∧
  (∀ (s : State) (pace : Pace) (b : Byte) (q : List Byte), s.phase = .running → s.env.drawTurn.1 = .move (.main pace) →
    s.pendingStores = [] → s.owStage = none → s.mainPos = .bridge → s.hostIn = b :: q →
    step s = exec (decodeHost s.bstate b) { s with env := s.env.drawTurn.2, hostIn := q, mainPos := .spoofer }) ∧
  (∀ (s : State) (pace : Pace), s.phase = .running → s.env.drawTurn.1 = .move (.main pace) → s.pendingStores = [] →
    s.owStage = none → s.mainPos = .owSeq → (pace = .wholeTick ∨ firstStage Config.params s = none) →
    step s = exec (decodeTick s.owState) { s with env := s.env.drawTurn.2, mainPos := .ntc }) ∧
  (∀ (s : State) (c : LineCall), s.phase = .running → s.env.drawTurn.1 = .call c →
    step s = exec (lineInstr c) { s with env := s.env.drawTurn.2 })

/-- The moves that run no instruction. The environment's moves append their input (R12, R243), and a reserved event word sets the mark
as it arrives (R46, R97); a bridge move with no byte does nothing but pass the loop on (R161, R253). The model's own choices among them:
a bus move with no event waiting changes nothing (log 1); a reserved event word, which spells no event, waits in the queue behind the
others (DEDUCED, log 3); `SPOOFER` and the delay are steps that only pass the loop on (logs 10, 19 and 20); in slices, the sequencer's
turn begins a tick that uses the line, and a slice with no byte on the line sends one, a reset's at reset timing (log 17). -/
def Obligations.MovesWithoutAnInstruction : Prop :=
  (∀ s : State, s.phase = .running → s.env.drawTurn.1 = .move .bsp → s.busQueue = [] →
    step s = .next { s with env := s.env.drawTurn.2 }) ∧
  (∀ (s : State) (w : EventWord), s.phase = .running → s.env.drawTurn.1 = .move (.busMaster w) →
    step s = .next { s with
      env := s.env.drawTurn.2, busQueue := s.busQueue ++ [w]
      refused := s.refused || decide (768 ≤ w.toNat ∨ 512 < w.toNat ∧ w.toNat < 768) }) ∧
  (∀ (s : State) (b : Byte), s.phase = .running → s.env.drawTurn.1 = .move (.host b) →
    step s = .next { s with env := s.env.drawTurn.2, hostIn := s.hostIn ++ [b] }) ∧
  (∀ (s : State) (pace : Pace), s.phase = .running → s.env.drawTurn.1 = .move (.main pace) → s.pendingStores = [] →
    s.owStage = none →
    (s.mainPos = .bridge → s.hostIn = [] → step s = .next { s with env := s.env.drawTurn.2, mainPos := .spoofer }) ∧
    (s.mainPos = .spoofer → step s = .next { s with env := s.env.drawTurn.2, mainPos := .owSeq }) ∧
    (s.mainPos = .delay → step s = .next { s with env := s.env.drawTurn.2, mainPos := .bridge })) ∧
  (∀ (s : State) (st : TickStage), s.phase = .running → s.env.drawTurn.1 = .move (.main .oneSlice) → s.pendingStores = [] →
    s.owStage = none → s.mainPos = .owSeq → firstStage Config.params s = some st →
    step s = .next { s with
      env := s.env.drawTurn.2, mainPos := .ntc, owStage := some st
      owTicks := if s.owState = .idle then 0 else s.owTicks }) ∧
  (∀ (s : State) (pace : Pace) (st : TickStage), s.phase = .running → s.env.drawTurn.1 = .move (.main pace) →
    s.pendingStores = [] → s.owStage = some st → s.owSending = none →
    step s = .next { s with
      env := s.env.drawTurn.2, owSending := some (st.sends Config.params)
      owTiming := if st.isReset then .resetTiming else s.owTiming })

/-- R69, R74: a begun store of a main-loop agent is one step of its own, one byte. -/
def Obligations.BegunStoreIsOneByteStep : Prop :=
  ∀ (s : State) (pace : Pace) (st : Store) (rest : List Store), s.phase = .running → s.env.drawTurn.1 = .move (.main pace) →
    s.pendingStores = st :: rest →
    ∃ t, step s = .next t ∧ t = { s with env := s.env.drawTurn.2, map := t.map, pendingStores := rest } ∧
      t.map.read st.index.toNat = st.value ∧ ∀ a, a ≠ st.index.toNat → t.map.read a = s.map.read a

/-- R251, U13: the `NTC` move begins stores to cells 202–207 only, at most one to each, and changes nothing else. -/
def Obligations.NtcStoresOnlyItsCellsOnceEach : Prop :=
  ∀ (s : State) (pace : Pace), s.phase = .running → s.env.drawTurn.1 = .move (.main pace) → s.pendingStores = [] →
    s.owStage = none → s.mainPos = .ntc →
    ∃ t, step s = .next t ∧ t = { s with env := t.env, pendingStores := t.pendingStores, mainPos := .delay } ∧
      (∀ st ∈ t.pendingStores, 202 ≤ st.index.toNat ∧ st.index.toNat ≤ 207) ∧
      (t.pendingStores.map Store.index).Nodup

/-- R69, R276: a master that reads the pair 200–201 between the two stores gets one new and one old byte, whichever store comes
first; after both stores the pair is whole. -/
def Obligations.ReadBetweenTheStoresIsTorn : Prop :=
  ∀ (s : State) (pace pace' : Pace) (hi lo : Byte) (rest : List Turn), s.phase = .running → s.mapAt 241#8 ≠ 0#8 →
    s.mapAt 244#8 = 0#8 → s.cursor = 200#8 → s.busQueue = [0x200#10, 0x200#10] →
    s.env.turns = .move (.main pace) :: .move .bsp :: .move .bsp :: .move (.main pace') :: rest →
    (s.pendingStores = [⟨200#8, hi⟩, ⟨201#8, lo⟩] →
      ∃ t, steps 4 s = .next t ∧
        t.busOut = s.busOut ++ [⟨true, some hi⟩, ⟨true, some (s.mapAt 201#8)⟩] ∧
        t.mapAt 200#8 = hi ∧ t.mapAt 201#8 = lo ∧ t.pendingStores = []) ∧
    (s.pendingStores = [⟨201#8, lo⟩, ⟨200#8, hi⟩] →
      ∃ t, steps 4 s = .next t ∧
        t.busOut = s.busOut ++ [⟨true, some (s.mapAt 200#8)⟩, ⟨true, some lo⟩] ∧
        t.mapAt 200#8 = hi ∧ t.mapAt 201#8 = lo ∧ t.pendingStores = [])

/-- R189: a bus event may fall between any two exchanges of a tick and during one (between the byte sent and its echo), and leaves
bytes and echoes alone. In a tick run in slices (log 17): a slice and a bus move give the same state in either order; the second half
of an exchange logs the byte sent and the echo drawn, at a reset's timing for a reset; and a tick of `k` exchanges is one step that
begins it and two for each exchange, which end where the whole tick ends. -/
def Obligations.BusEventsFallBetweenAndDuringExchanges : Prop :=
  (∀ (s : State) (pace : Pace) (st : TickStage) (rest : List Turn), s.phase = .running → s.pendingStores = [] →
    s.owStage = some st →
    steps 2 { s with env := { s.env with turns := .move (.main pace) :: .move .bsp :: rest } } =
      steps 2 { s with env := { s.env with turns := .move .bsp :: .move (.main pace) :: rest } }) ∧
  (∀ (s : State) (pace : Pace) (st : TickStage) (v : Byte), s.phase = .running → s.env.drawTurn.1 = .move (.main pace) →
    s.pendingStores = [] → s.owStage = some st → s.owSending = some v →
    ∃ t, step s = .next t ∧ t.owSending = none ∧ t.map = s.map ∧
      t.owLog = s.owLog ++ [⟨if st.isReset then .resetTiming else s.owTiming, st.sends Config.params,
        s.env.drawTurn.2.drawEcho.1⟩]) ∧
  (∀ (s : State) (st : TickStage) (rest : List Turn), s.phase = .running → s.pendingStores = [] → s.owStage = none →
    s.owSending = none → s.mainPos = .owSeq → firstStage Config.params s = some st →
    ∃ t k, exec (decodeTick s.owState) { s with env := { s.env with turns := rest }, mainPos := .ntc } = .next t ∧
      t.owLog.length = s.owLog.length + k ∧ 0 < k ∧
      steps (2 * k + 1)
        { s with env := { s.env with turns := List.replicate (2 * k + 1) (.move (.main .oneSlice)) ++ rest } } = .next t)

/-! ## The bus-slave emulator -/

/-- R121: while `map[241]` is 0 every event word is a `BUS.DISABLED`, and an event of any kind is reported not handled, with nothing
else changed. That exec of the other event rows, which the spec does not select then, does the same is the model's reading
(DEDUCED, log 2). -/
def Obligations.DisabledEventIsNotHandled : Prop :=
  ∀ s : State, s.mapAt 241#8 = 0#8 →
    (∀ e : BusEvent, decodeBus Config.params s.busMode e.word = .busDisabled e) ∧
    (∀ e, exec (.busDisabled e) s = .next { s with busOut := s.busOut ++ [⟨false, none⟩] }) ∧
    (∀ b, exec (.busAddrIndex b) s = .next { s with busOut := s.busOut ++ [⟨false, none⟩] }) ∧
    exec .busAddrStart s = .next { s with busOut := s.busOut ++ [⟨false, none⟩] } ∧
    (∀ b, exec (.busWdataGeneric b) s = .next { s with busOut := s.busOut ++ [⟨false, none⟩] }) ∧
    exec .busWdataSubMatch s = .next { s with busOut := s.busOut ++ [⟨false, none⟩] } ∧
    (∀ b, exec (.busWdataSubMismatch b) s = .next { s with busOut := s.busOut ++ [⟨false, none⟩] }) ∧
    (∀ b, exec (.busWdataTarget b) s = .next { s with busOut := s.busOut ++ [⟨false, none⟩] }) ∧
    (∀ b, exec (.busWdataValueHi b) s = .next { s with busOut := s.busOut ++ [⟨false, none⟩] }) ∧
    (∀ b, exec (.busWdataValueLo b) s = .next { s with busOut := s.busOut ++ [⟨false, none⟩] }) ∧
    exec .busRreqMirror s = .next { s with busOut := s.busOut ++ [⟨false, none⟩] } ∧
    exec .busRreqHook s = .next { s with busOut := s.busOut ++ [⟨false, none⟩] }

/-- R123: any byte but 0xFE becomes the cursor, from any decoder state; no cell is written. -/
def Obligations.AddressIndexLoadsTheCursor : Prop :=
  ∀ (s : State) (b : Byte), s.mapAt 241#8 ≠ 0#8 → b ≠ 0xFE#8 →
    decodeBus Config.params s.busMode (eventWord 0#2 b) = .busAddrIndex b ∧
    exec (.busAddrIndex b) s =
      .next { s with cursor := b, writeState := .genericData, busOut := s.busOut ++ [⟨true, none⟩] }

/-- R124: 0xFE starts a command frame from any decoder state; only the status cell is written. -/
def Obligations.AddressStartBeginsACommandFrame : Prop :=
  ∀ s : State, s.mapAt 241#8 ≠ 0#8 →
    decodeBus Config.params s.busMode 0x0FE#10 = .busAddrStart ∧
    ∃ t, exec .busAddrStart s = .next t ∧
      t = { s with map := t.map, writeState := .awaitingSubCommand, busOut := s.busOut ++ [⟨true, none⟩] } ∧
      t.map.read 252 = Config.params.stCmdStart ∧ ∀ a, a ≠ 252 → t.map.read a = s.map.read a

/-- R125: the advance of the cursor clamps at 255 and never wraps. -/
def Obligations.CursorAdvanceClamps : Prop := ∀ c : Byte, (adv c).toNat = min (c.toNat + 1) 255

/-- R126, with R125: the byte is stored at the cursor, which advances clamped; every other cell and `write_state` are kept. -/
def Obligations.GenericWriteStoresAtTheCursor : Prop :=
  ∀ (s : State) (b : Byte), s.mapAt 241#8 ≠ 0#8 → (s.writeState = .awaitingIndex ∨ s.writeState = .genericData) →
    decodeBus Config.params s.busMode (eventWord 1#2 b) = .busWdataGeneric b ∧
    ∃ t, exec (.busWdataGeneric b) s = .next t ∧
      t = { s with map := t.map, cursor := t.cursor, busOut := s.busOut ++ [⟨true, none⟩] } ∧
      t.cursor.toNat = min (s.cursor.toNat + 1) 255 ∧
      t.map.read s.cursor.toNat = b ∧ ∀ a, a ≠ s.cursor.toNat → t.map.read a = s.map.read a

/-- R127: the expected sub-command. -/
def Obligations.SubCommandMatchAdvancesTheFrame : Prop :=
  ∀ s : State, s.mapAt 241#8 ≠ 0#8 → s.writeState = .awaitingSubCommand →
    decodeBus Config.params s.busMode (eventWord 1#2 Config.params.subByte) = .busWdataSubMatch ∧
    ∃ t, exec .busWdataSubMatch s = .next t ∧
      t = { s with map := t.map, writeState := .awaitingTargetAddr, busOut := s.busOut ++ [⟨true, none⟩] } ∧
      t.map.read 252 = Config.params.stSubOk ∧ ∀ a, a ≠ 252 → t.map.read a = s.map.read a

/-- R128: any other byte aborts the frame; no cell, no cursor, no capture changes. -/
def Obligations.SubCommandMismatchAborts : Prop :=
  ∀ (s : State) (b : Byte), s.mapAt 241#8 ≠ 0#8 → s.writeState = .awaitingSubCommand → b ≠ Config.params.subByte →
    decodeBus Config.params s.busMode (eventWord 1#2 b) = .busWdataSubMismatch b ∧
    exec (.busWdataSubMismatch b) s =
      .next { s with writeState := .awaitingIndex, busOut := s.busOut ++ [⟨true, none⟩] }

/-- R129: the target address goes to 242, at once. -/
def Obligations.TargetIsCaptured : Prop :=
  ∀ (s : State) (b : Byte), s.mapAt 241#8 ≠ 0#8 → s.writeState = .awaitingTargetAddr →
    decodeBus Config.params s.busMode (eventWord 1#2 b) = .busWdataTarget b ∧
    ∃ t, exec (.busWdataTarget b) s = .next t ∧
      t = { s with map := t.map, writeState := .awaitingValueHi, busOut := s.busOut ++ [⟨true, none⟩] } ∧
      t.map.read 242 = b ∧ t.map.read 252 = Config.params.stTarget ∧
      ∀ a, a ≠ 242 → a ≠ 252 → t.map.read a = s.map.read a

/-- R130: the high byte goes to 243. -/
def Obligations.ValueHighIsCaptured : Prop :=
  ∀ (s : State) (b : Byte), s.mapAt 241#8 ≠ 0#8 → s.writeState = .awaitingValueHi →
    decodeBus Config.params s.busMode (eventWord 1#2 b) = .busWdataValueHi b ∧
    ∃ t, exec (.busWdataValueHi b) s = .next t ∧
      t = { s with map := t.map, writeState := .awaitingValueLo, busOut := s.busOut ++ [⟨true, none⟩] } ∧
      t.map.read 243 = b ∧ t.map.read 252 = Config.params.stValueHi ∧
      ∀ a, a ≠ 243 → a ≠ 252 → t.map.read a = s.map.read a

/-- R131: the low byte goes to 244 and completes the capture. -/
def Obligations.ValueLowCompletesTheCapture : Prop :=
  ∀ (s : State) (b : Byte), s.mapAt 241#8 ≠ 0#8 → s.writeState = .awaitingValueLo →
    decodeBus Config.params s.busMode (eventWord 1#2 b) = .busWdataValueLo b ∧
    ∃ t, exec (.busWdataValueLo b) s = .next t ∧
      t = { s with map := t.map, writeState := .awaitingIndex, busOut := s.busOut ++ [⟨true, none⟩] } ∧
      t.map.read 244 = b ∧ t.map.read 252 = Config.params.stComplete ∧
      ∀ a, a ≠ 244 → a ≠ 252 → t.map.read a = s.map.read a

/-- R133: with no hook a read request returns the byte at the cursor, which advances clamped; no cell is written. -/
def Obligations.MirrorReadReturnsTheCell : Prop :=
  ∀ s : State, s.mapAt 241#8 ≠ 0#8 → ¬ (s.cursor = s.mapAt 242#8 ∧ s.mapAt 244#8 ≠ 0#8) →
    decodeBus Config.params s.busMode 0x200#10 = .busRreqMirror ∧
    ∃ t, exec .busRreqMirror s = .next t ∧
      t = { s with cursor := t.cursor, busOut := s.busOut ++ [⟨true, some (s.mapAt s.cursor)⟩] } ∧
      t.cursor.toNat = min (s.cursor.toNat + 1) 255

/-- R134 and R135: the poll hook clears 244 and writes the status in both modes; with `OVERRIDE` it returns the captured byte, never
0, and keeps the cursor; with `SIDE_EFFECT_ONLY` it returns the cell at the cursor as it is after the clear, and advances. -/
def Obligations.HookConsumesTheCapture : Prop :=
  ∀ s : State, s.mapAt 241#8 ≠ 0#8 → s.cursor = s.mapAt 242#8 → s.mapAt 244#8 ≠ 0#8 →
    decodeBus Config.params s.busMode 0x200#10 = .busRreqHook ∧
    ∃ t, exec .busRreqHook s = .next t ∧
      t.map.read 244 = 0#8 ∧ t.map.read 252 = Config.params.stHook ∧
      (∀ a, a ≠ 244 → a ≠ 252 → t.map.read a = s.map.read a) ∧
      match Config.params.hookMode with
      | .override => t = { s with map := t.map, busOut := s.busOut ++ [⟨true, some (s.mapAt 244#8)⟩] }
      | .sideEffectOnly =>
        t = { s with map := t.map, cursor := t.cursor, busOut := s.busOut ++ [⟨true, some (t.mapAt s.cursor)⟩] } ∧
          t.cursor.toNat = min (s.cursor.toNat + 1) 255

/-- R97 as the model reads it (log 3): a reserved event word, enabled or not, sets the mark and changes nothing else. -/
def Obligations.ReservedWordSetsTheMark : Prop :=
  ∀ (s : State) (b : Byte),
    decodeBus Config.params s.busMode (eventWord 3#2 b) = .busReserved b ∧
    exec (.busReserved b) s = .next { s with refused := true } ∧
    (b ≠ 0#8 → decodeBus Config.params s.busMode (eventWord 2#2 b) = .busReservedRreq b) ∧
    exec (.busReservedRreq b) s = .next { s with refused := true }

/-- R46, R97: the mark is set when a reserved event word arrives, at no other moment, and stays set for the rest of the run. The third
clause holds in a state that meets the invariant; in a state that does not, which no run reaches, a reserved word can wait unmarked, and
the bus move that takes it sets the mark (the model's reading, log 3). -/
def Obligations.MarkIsSetByReservedWordsAndStays : Prop :=
  ∀ s t : State, step s = .next t →
    (s.refused = true → t.refused = true) ∧
    (∀ w, s.phase = .running → s.env.drawTurn.1 = .move (.busMaster w) → (768 ≤ w.toNat ∨ 512 < w.toNat ∧ w.toNat < 768) →
      t.refused = true) ∧
    (s.inv Config.params = true → s.refused = false → t.refused = true → s.phase = .running ∧
      ∃ w, s.env.drawTurn.1 = .move (.busMaster w) ∧ (768 ≤ w.toNat ∨ 512 < w.toNat ∧ w.toNat < 768)) ∧
    (s.refused = false → t.refused = true → s.phase = .running ∧
      ∃ w, (768 ≤ w.toNat ∨ 512 < w.toNat ∧ w.toNat < 768) ∧
        (s.env.drawTurn.1 = .move (.busMaster w) ∨ s.env.drawTurn.1 = .move .bsp ∧ ∃ q, s.busQueue = w :: q))

/-- R246, R60: the frame of every bus row. The preempted agents' state, the queues and the host port are as they were, and the only
cells a bus event can change are the one at the cursor, the capture and the status. -/
def Obligations.BusRowFrame : Prop :=
  ∀ (i : Instr) (s t : State), portOf i = .bus → exec i s = .next t →
    t = { s with map := t.map, writeState := t.writeState, cursor := t.cursor, busOut := t.busOut, refused := t.refused } ∧
    ∀ a, a ≠ s.cursor.toNat → a ≠ 242 → a ≠ 243 → a ≠ 244 → a ≠ 252 → t.map.read a = s.map.read a

/-- R120, R105: what a bus event does depends on nothing but the map, `write_state` and the cursor. -/
def Obligations.BusEventDependsOnItsOwnState : Prop :=
  ∀ (i : Instr) (s s' t t' : State), portOf i = .bus → s.map = s'.map → s.writeState = s'.writeState → s.cursor = s'.cursor →
    exec i s = .next t → exec i s' = .next t' →
    t.map = t'.map ∧ t.writeState = t'.writeState ∧ t.cursor = t'.cursor ∧
      ∃ l, t.busOut = s.busOut ++ l ∧ t'.busOut = s'.busOut ++ l

/-- R94, R137 (the property E1 of 95_test_vectors.md): five event words `FE, SUB, addr, hi, lo` taken one after another from the bus
event queue of an enabled machine leave the capture and the complete code, and change no other cell and not the cursor. -/
def Obligations.CommandFrameIsCaptured : Prop :=
  ∀ (s : State) (addr hi lo : Byte) (rest : List Turn) (q : List EventWord), s.phase = .running → s.mapAt 241#8 ≠ 0#8 →
    s.env.turns = .move .bsp :: .move .bsp :: .move .bsp :: .move .bsp :: .move .bsp :: rest →
    s.busQueue = 0x0FE#10 :: eventWord 1#2 Config.params.subByte :: eventWord 1#2 addr :: eventWord 1#2 hi ::
      eventWord 1#2 lo :: q →
    ∃ t, steps 5 s = .next t ∧
      t = { s with
            map := t.map, writeState := .awaitingIndex, busQueue := q, env := { s.env with turns := rest }
            busOut := s.busOut ++ List.replicate 5 ⟨true, none⟩ } ∧
      t.map.read 242 = addr ∧ t.map.read 243 = hi ∧ t.map.read 244 = lo ∧ t.map.read 252 = Config.params.stComplete ∧
      ∀ a, a ≠ 242 → a ≠ 243 → a ≠ 244 → a ≠ 252 → t.map.read a = s.map.read a

/-- R95: in a generic write frame byte `k` is stored at `min(idx + k, 255)`, as long as the frame does not disable the emulator by
storing 0 at 241 (R121, R280); the bytes that fall on 255 overwrite one another, and no other cell changes. -/
def Obligations.GenericWriteFrameStoresInOrder : Prop :=
  ∀ (s : State) (idx : Byte) (data : List Byte), s.mapAt 241#8 ≠ 0#8 → idx ≠ 0xFE#8 →
    (∀ k, idx.toNat + k = 241 → data[k]? ≠ some 0#8) →
    ∃ t, execAll (.busAddrIndex idx :: data.map Instr.busWdataGeneric) s = .next t ∧
      t = { s with
            map := t.map, cursor := t.cursor, writeState := .genericData
            busOut := s.busOut ++ List.replicate (data.length + 1) ⟨true, none⟩ } ∧
      t.cursor.toNat = min (idx.toNat + data.length) 255 ∧
      (∀ k b, data[k]? = some b → idx.toNat + k < 255 → t.map.read (idx.toNat + k) = b) ∧
      (∀ b, data.getLast? = some b → 255 < idx.toNat + data.length → t.map.read 255 = b) ∧
      ∀ a, (a < idx.toNat ∨ min (idx.toNat + data.length) 256 ≤ a) → t.map.read a = s.map.read a

/-- R96: in a generic read frame, while the poll hook does not fire (no read request comes at the captured target with a capture
pending), read `k` returns `map[min(idx + k, 255)]`, and no cell changes. -/
def Obligations.GenericReadFrameReturnsInOrder : Prop :=
  ∀ (s : State) (idx : Byte) (n : Nat), s.mapAt 241#8 ≠ 0#8 → idx ≠ 0xFE#8 →
    (∀ k, k < n → s.mapAt 244#8 ≠ 0#8 → min (idx.toNat + k) 255 ≠ (s.mapAt 242#8).toNat) →
    ∃ t, execAll (.busAddrIndex idx :: List.replicate n .busRreqMirror) s = .next t ∧
      t = { s with cursor := t.cursor, writeState := .genericData, busOut := t.busOut } ∧
      t.cursor.toNat = min (idx.toNat + n) 255 ∧
      t.busOut = s.busOut ++ ⟨true, none⟩ ::
        (List.range n).map fun k => ⟨true, some (s.map.read (min (idx.toNat + k) 255))⟩

/-- R280, R121: a generic write frame that stores 0 at 241 disables the emulator there: the bytes before it are stored, the bytes
after it are reported not handled, and nothing more changes. In a run those bytes decode to `BUS.DISABLED`; that exec of
`BUS.WDATA.GENERIC` does the same in a disabled state is the model's reading (DEDUCED, log 2). -/
def Obligations.GenericWriteFrameCanDisableTheEmulator : Prop :=
  ∀ (s : State) (idx : Byte) (before after : List Byte), s.mapAt 241#8 ≠ 0#8 → idx.toNat + before.length = 241 →
    ∃ t, execAll (.busAddrIndex idx :: (before ++ 0#8 :: after).map Instr.busWdataGeneric) s = .next t ∧
      t = { s with
            map := t.map, cursor := 242#8, writeState := .genericData
            busOut := s.busOut ++ List.replicate (before.length + 2) ⟨true, none⟩ ++
              List.replicate after.length ⟨false, none⟩ } ∧
      (∀ k b, before[k]? = some b → t.map.read (idx.toNat + k) = b) ∧ t.map.read 241 = 0#8 ∧
      ∀ a, (a < idx.toNat ∨ 241 < a) → t.map.read a = s.map.read a

/-- R137: a command frame cut by an address phase after its third event leaves a mixed capture: the new target with the old value
bytes, and the target's status code. -/
def Obligations.CutFrameLeavesAMixedCapture : Prop :=
  ∀ (s : State) (addr idx : Byte), s.mapAt 241#8 ≠ 0#8 → idx ≠ 0xFE#8 →
    ∃ t, execAll [.busAddrStart, .busWdataSubMatch, .busWdataTarget addr, .busAddrIndex idx] s = .next t ∧
      t = { s with
            map := t.map, cursor := idx, writeState := .genericData
            busOut := s.busOut ++ List.replicate 4 ⟨true, none⟩ } ∧
      t.map.read 242 = addr ∧ t.map.read 243 = s.map.read 243 ∧ t.map.read 244 = s.map.read 244 ∧
      t.map.read 252 = Config.params.stTarget ∧ ∀ a, a ≠ 242 → a ≠ 252 → t.map.read a = s.map.read a

/-! ## The host port -/

/-- R162, R164, R167: the leading byte. -/
def Obligations.LeadingByteStartsAFrameOrIsIgnored : Prop :=
  ∀ s : State, s.bstate = .idle →
    decodeHost s.bstate 0x52#8 = .hostLeadR ∧ exec .hostLeadR s = .next { s with bstate := .awaitIndexRead } ∧
    decodeHost s.bstate 0x57#8 = .hostLeadW ∧ exec .hostLeadW s = .next { s with bstate := .awaitIndexWrite } ∧
    ∀ b, b ≠ 0x52#8 → b ≠ 0x57#8 →
      decodeHost s.bstate b = .hostLeadOther b ∧ exec (.hostLeadOther b) s = .next s

/-- R163: the reply of a read is the cell; nothing is written. -/
def Obligations.HostReadReplies : Prop :=
  ∀ (s : State) (b : Byte), s.bstate = .awaitIndexRead →
    decodeHost s.bstate b = .hostRIndex b ∧
    exec (.hostRIndex b) s = .next { s with hostOut := s.hostOut ++ [s.map.read b.toNat], bstate := .idle }

/-- R165: the index of a write is held. -/
def Obligations.HostWriteHoldsTheIndex : Prop :=
  ∀ (s : State) (b : Byte), s.bstate = .awaitIndexWrite →
    decodeHost s.bstate b = .hostWIndex b ∧
    exec (.hostWIndex b) s = .next { s with bidx := b, bstate := .awaitValue }

/-- R166: the value of a write is stored at the held index, whatever the index, and acknowledged. -/
def Obligations.HostWriteStoresAndAcknowledges : Prop :=
  ∀ (s : State) (b : Byte), s.bstate = .awaitValue →
    decodeHost s.bstate b = .hostWValue b ∧
    ∃ t, exec (.hostWValue b) s = .next t ∧
      t = { s with map := t.map, hostOut := s.hostOut ++ [Config.params.ackByte], bstate := .idle } ∧
      t.map.read s.bidx.toNat = b ∧ ∀ a, a ≠ s.bidx.toNat → t.map.read a = s.map.read a

/-- The frame of every host row: the bus-slave emulator's and the sequencer's own state are untouched, and at most the cell at the
held index changes (R33, R70). Of a row in a state that selects another row, which no run meets, this rests on the model's reading
(DEDUCED, log 2). -/
def Obligations.HostRowFrame : Prop :=
  ∀ (i : Instr) (s t : State), portOf i = .host → exec i s = .next t →
    t = { s with map := t.map, bstate := t.bstate, bidx := t.bidx, hostOut := t.hostOut } ∧
    (s.bstate ≠ .awaitValue → t.map = s.map) ∧
    ∀ a, a ≠ s.bidx.toNat → t.map.read a = s.map.read a

/-- E3: a write frame followed by a read frame of the same index returns the byte written. -/
def Obligations.HostWriteThenReadRoundTrip : Prop :=
  ∀ (s : State) (idx v : Byte), s.bstate = .idle →
    ∃ t, execAll [.hostLeadW, .hostWIndex idx, .hostWValue v, .hostLeadR, .hostRIndex idx] s = .next t ∧
      t = { s with map := t.map, bidx := idx, hostOut := s.hostOut ++ [Config.params.ackByte, v] } ∧
      t.map.read idx.toNat = v ∧ ∀ a, a ≠ idx.toNat → t.map.read a = s.map.read a

/-- R281, R272: the value byte of a host write to index 241 decides the first bus event after it, of whatever kind. With 0 it is not
handled. With any other value it is handled as its kind and `write_state` say: an address phase, a data phase of the frame in progress,
which is where it was (R121), or a read, with or without the hook. -/
def Obligations.HostEnableTakesEffectAtTheNextEvent : Prop :=
  ∀ (s : State) (v : Byte) (e : BusEvent), s.bstate = .awaitValue → s.bidx = 241#8 →
    ∃ t u, exec (.hostWValue v) s = .next t ∧ t.writeState = s.writeState ∧ t.cursor = s.cursor ∧ t.map.read 241 = v ∧
      (∀ a, a ≠ 241 → t.map.read a = s.map.read a) ∧
      exec (decodeBus Config.params t.busMode e.word) t = .next u ∧
      if v = 0#8 then u = { t with busOut := s.busOut ++ [⟨false, none⟩] }
      else
        (∃ d, u = { t with
          map := u.map, writeState := u.writeState, cursor := u.cursor, busOut := s.busOut ++ [⟨true, d⟩] }) ∧
        match e with
        | .addr b =>
          if b = 0xFE#8 then u = startCommand Config.params t
          else u = { t with cursor := b, writeState := .genericData, busOut := s.busOut ++ [⟨true, none⟩] }
        | .wdata b =>
          match s.writeState with
          | .awaitingIndex => u = mirrorWrite b t
          | .genericData => u = mirrorWrite b t
          | .awaitingSubCommand => u = if b = Config.params.subByte then acceptSub Config.params t else rejectSub t
          | .awaitingTargetAddr => u = captureTarget Config.params b t
          | .awaitingValueHi => u = captureHi Config.params b t
          | .awaitingValueLo => u = captureLo Config.params b t
        | .rreq =>
          u = if s.cursor = s.mapAt 242#8 ∧ s.mapAt 244#8 ≠ 0#8 then fireHook Config.params t else mirrorRead t

/-! ## The single-wire transport -/

/-- R180, R181: one exchange at the current timing; the echo is the environment's draw. -/
def Obligations.TouchByteIsOneExchange : Prop :=
  ∀ (s : State) (v : Byte),
    exec (.owTouchByte v) s =
      .next { s with
              owLog := s.owLog ++ [⟨s.owTiming, v, s.env.drawEcho.1⟩]
              owResult := .echo s.env.drawEcho.1
              env := s.env.drawEcho.2 }

/-- R182: the reset byte at reset timing, then bit timing; present exactly when the echo differs from the byte sent. -/
def Obligations.ResetDetectsPresence : Prop :=
  ∀ s : State,
    exec .owReset s =
      .next { s with
              owTiming := .bitTiming
              owLog := s.owLog ++ [⟨.resetTiming, Config.params.owResetByte, s.env.drawEcho.1⟩]
              owResult := .presence (decide (s.env.drawEcho.1 ≠ Config.params.owResetByte))
              env := s.env.drawEcho.2 }

/-- R183 and R184: a bit slot sends its slot byte, and its value is the echo decoded. The rules give the slots at bit timing; that a
primitive called before the first `reset` exchanges at the current timing is the model's reading (DEDUCED, log 15). -/
def Obligations.BitSlotsSendAndDecode : Prop :=
  ∀ s : State, ∃ x : Bool,
    x = (match Config.params.bitDecode with
      | .allOnes => decide (s.env.drawEcho.1 = 0xFF#8)
      | .lsb => s.env.drawEcho.1.getLsbD 0) ∧
    exec .owWriteBit1 s =
      .next { s with
              owLog := s.owLog ++ [⟨s.owTiming, Config.params.owWrite1Slot, s.env.drawEcho.1⟩]
              owResult := .bit x, env := s.env.drawEcho.2 } ∧
    exec .owWriteBit0 s =
      .next { s with
              owLog := s.owLog ++ [⟨s.owTiming, Config.params.owWrite0Slot, s.env.drawEcho.1⟩]
              owResult := .bit x, env := s.env.drawEcho.2 } ∧
    exec .owReadBit s =
      .next { s with
              owLog := s.owLog ++ [⟨s.owTiming, Config.params.owReadSlot, s.env.drawEcho.1⟩]
              owResult := .bit x, env := s.env.drawEcho.2 }

/-- R185: eight write slots, bit 0 first, whatever the echoes are. At a timing other than bit timing this rests on the model's reading
(DEDUCED, log 15). -/
def Obligations.WriteByteSendsEightSlots : Prop :=
  ∀ (s : State) (v : Byte), ∃ t, exec (.owWriteByte v) s = .next t ∧
    t = { s with owLog := t.owLog, owResult := .nothing, env := { s.env with echoes := t.env.echoes, drawn := t.env.drawn } } ∧
    (∃ l, t.owLog = s.owLog ++ l ∧ l.map Exchange.slot = byteSlots Config.params s.owTiming v) ∧
    ∀ es rest, s.env.echoes = es ++ rest → es.length = 8 →
      t.env = { s.env with echoes := rest } ∧ (t.owLog.drop s.owLog.length).map Exchange.echo = es

/-- R186: eight read slots; bit `i` of the result is the decode of the `i`-th echo. At a timing other than bit timing this rests on
the model's reading (DEDUCED, log 15). -/
def Obligations.ReadByteAssemblesLsbFirst : Prop :=
  ∀ s : State, ∃ t r l, exec .owReadByte s = .next t ∧
    t = { s with
          owLog := s.owLog ++ l, owResult := .byte r
          env := { s.env with echoes := t.env.echoes, drawn := t.env.drawn } } ∧
    l.map Exchange.slot = readSlots Config.params s.owTiming ∧
    (∀ i : Nat, i < 8 → ∃ x, l[i]? = some x ∧ r.getLsbD i = decodeBit Config.params x.echo) ∧
    ∀ es rest, s.env.echoes = es ++ rest → es.length = 8 →
      t.env = { s.env with echoes := rest } ∧ l.map Exchange.echo = es

/-- R187: each command is `writeByte` of its command byte. -/
def Obligations.CommandsWriteTheirByte : Prop :=
  ∀ s : State,
    (∃ t, exec .owCmdSelectAll s = .next t ∧ exec (.owWriteByte Config.params.cmdSelectAll) s = .next t) ∧
    (∃ t, exec .owCmdStartConversion s = .next t ∧ exec (.owWriteByte Config.params.cmdStartConversion) s = .next t) ∧
    (∃ t, exec .owCmdReadResult s = .next t ∧ exec (.owWriteByte Config.params.cmdReadResult) s = .next t)

/-- The frame of every transport row: the map and the agents' registers are untouched, `ow_timing` apart, and of the environment only
the echoes are used (R180: "no map cell is touched"). -/
def Obligations.TransportRowFrame : Prop :=
  ∀ (i : Instr) (s t : State), portOf i = .line → exec i s = .next t →
    t = { s with
          owTiming := t.owTiming, owLog := t.owLog, owResult := t.owResult
          env := { s.env with echoes := t.env.echoes, drawn := t.env.drawn } } ∧
    (t.owTiming = s.owTiming ∨ t.owTiming = .bitTiming) ∧ ∃ l, t.owLog = s.owLog ++ l

/-! ## The sequencer -/

/-- R212 (with R211, R192): below the threshold only the counter moves; at it a reset is made, and with a device present select-all
and start-conversion follow, 17 exchanges in all, and the state becomes `Converting`; with none it stays `Idle`. -/
def Obligations.IdleTickWaitsThenStarts : Prop :=
  ∀ s : State, s.owState = .idle →
    ∃ t, exec .owSeqTickIdle s = .next t ∧
      if s.owTicks + 1 < Config.params.n1 then t = { s with owTicks := s.owTicks + 1 }
      else if s.env.drawEcho.1 = Config.params.owResetByte then
        t = { s with
              owTicks := 0, owTiming := .bitTiming, env := s.env.drawEcho.2
              owLog := s.owLog ++ [⟨.resetTiming, Config.params.owResetByte, s.env.drawEcho.1⟩] }
      else
        t = { s with
              owTicks := 0, owTiming := .bitTiming, owState := .converting, owLog := t.owLog
              env := { s.env with echoes := t.env.echoes, drawn := t.env.drawn } } ∧
        ∃ l, t.owLog = s.owLog ++ l ∧
          l.map Exchange.slot = resetSlot Config.params ::
            (byteSlots Config.params .bitTiming Config.params.cmdSelectAll ++
              byteSlots Config.params .bitTiming Config.params.cmdStartConversion)

/-- R213: the conversion wait; no exchange, no cell. -/
def Obligations.ConvertingTickWaits : Prop :=
  ∀ s : State, s.owState = .converting →
    exec .owSeqTickConverting s =
      .next (if s.owTicks + 1 < Config.params.n2 then { s with owTicks := s.owTicks + 1 }
        else { s with owTicks := 0, owState := .reading })

/-- R214, R215, R216, R218: the reading tick. The scratch bytes are renewed from the last 16 of 33 exchanges when a device is present
(or always with `READ_ANYWAY`) and kept otherwise; the two stores of the temperature are begun in some order; in the range of R216
their bytes are the exact truncation, outside it they are whatever the environment draws. -/
def Obligations.ReadingTickBeginsTheStores : Prop :=
  ∀ s : State, s.owState = .reading →
    ∃ t l hi lo, exec .owSeqTickReading s = .next t ∧
      t = { s with
            owState := .idle, owTicks := 0, owTiming := .bitTiming, owLog := s.owLog ++ l, env := t.env
            owScratchLo := t.owScratchLo, owScratchHi := t.owScratchHi, pendingStores := t.pendingStores } ∧
      (t.pendingStores = s.pendingStores ++ [⟨200#8, hi⟩, ⟨201#8, lo⟩] ∨
        t.pendingStores = s.pendingStores ++ [⟨201#8, lo⟩, ⟨200#8, hi⟩]) ∧
      (-5243 ≤ (joinBytes t.owScratchHi t.owScratchLo).toInt → (joinBytes t.owScratchHi t.owScratchLo).toInt ≤ 5242 →
        (joinBytes hi lo).toInt = ((joinBytes t.owScratchHi t.owScratchLo).toInt * 25).tdiv 4) ∧
      (¬ (-5243 ≤ (joinBytes t.owScratchHi t.owScratchLo).toInt ∧ (joinBytes t.owScratchHi t.owScratchLo).toInt ≤ 5242) →
        ∀ v rest, s.env.temps = v :: rest → joinBytes hi lo = v) ∧
      if s.env.drawEcho.1 ≠ Config.params.owResetByte ∨ Config.params.absentRead = .readAnyway then
        l.map Exchange.slot = resetSlot Config.params ::
          (byteSlots Config.params .bitTiming Config.params.cmdSelectAll ++
            byteSlots Config.params .bitTiming Config.params.cmdReadResult ++
            readSlots Config.params .bitTiming ++ readSlots Config.params .bitTiming) ∧
        ∀ i : Nat, i < 8 → ∃ x y, l[17 + i]? = some x ∧ l[25 + i]? = some y ∧
          t.owScratchLo.getLsbD i = decodeBit Config.params x.echo ∧
          t.owScratchHi.getLsbD i = decodeBit Config.params y.echo
      else
        l.map Exchange.slot = [resetSlot Config.params] ∧ t.owScratchLo = s.owScratchLo ∧ t.owScratchHi = s.owScratchHi

/-- R216: the two begun stores, made by the next two main-loop steps in either order, put the temperature in 200 and 201. -/
def Obligations.BegunStoresReachTheMap : Prop :=
  ∀ (s : State) (pace pace' : Pace) (hi lo : Byte) (rest : List Turn), s.phase = .running →
    s.env.turns = .move (.main pace) :: .move (.main pace') :: rest →
    (s.pendingStores = [⟨200#8, hi⟩, ⟨201#8, lo⟩] ∨ s.pendingStores = [⟨201#8, lo⟩, ⟨200#8, hi⟩]) →
    ∃ t, steps 2 s = .next t ∧
      t = { s with map := t.map, pendingStores := [], env := { s.env with turns := rest } } ∧
      t.map.read 200 = hi ∧ t.map.read 201 = lo ∧ ∀ a, a ≠ 200 → a ≠ 201 → t.map.read a = s.map.read a

/-- R214, R216: three main-loop steps, the reading tick and its two stores, bring the temperature of the scratch bytes to
`map[200..201]`, high byte first, return the sequencer to `Idle`, and change no other cell. That the tick leaves the two stores to the
two steps after it is the model's choice (log 7), and so is the tick in one step (log 17). -/
def Obligations.ReadingTickBringsTheTemperatureToTheMap : Prop :=
  ∀ (s : State) (pace pace' : Pace) (rest : List Turn), s.phase = .running → s.pendingStores = [] → s.owStage = none →
    s.mainPos = .owSeq → s.owState = .reading →
    s.env.turns = .move (.main .wholeTick) :: .move (.main pace) :: .move (.main pace') :: rest →
    ∃ t, steps 3 s = .next t ∧ t.owState = .idle ∧ t.owTicks = 0 ∧ t.owTiming = .bitTiming ∧ t.pendingStores = [] ∧
      t.env.turns = rest ∧ t.mainPos = .ntc ∧
      (-5243 ≤ (joinBytes t.owScratchHi t.owScratchLo).toInt → (joinBytes t.owScratchHi t.owScratchLo).toInt ≤ 5242 →
        (joinBytes (t.map.read 200) (t.map.read 201)).toInt = ((joinBytes t.owScratchHi t.owScratchLo).toInt * 25).tdiv 4) ∧
      (∀ a, a ≠ 200 → a ≠ 201 → t.map.read a = s.map.read a) ∧
      ∃ l, t.owLog = s.owLog ++ l ∧
        if s.env.drawEcho.1 ≠ Config.params.owResetByte ∨ Config.params.absentRead = .readAnyway then
          l.map Exchange.slot = resetSlot Config.params ::
            (byteSlots Config.params .bitTiming Config.params.cmdSelectAll ++
              byteSlots Config.params .bitTiming Config.params.cmdReadResult ++
              readSlots Config.params .bitTiming ++ readSlots Config.params .bitTiming) ∧
          ∀ i : Nat, i < 8 → ∃ x y, l[17 + i]? = some x ∧ l[25 + i]? = some y ∧
            t.owScratchLo.getLsbD i = decodeBit Config.params x.echo ∧
            t.owScratchHi.getLsbD i = decodeBit Config.params y.echo
        else
          l.map Exchange.slot = [resetSlot Config.params] ∧
            t.owScratchLo = s.owScratchLo ∧ t.owScratchHi = s.owScratchHi

/-- R216: the conversion truncates `raw * 25 / 4` toward zero, and its result fits 16 signed bits exactly for raw from -5243 to
5242. -/
def Obligations.ConversionTruncatesTowardZero : Prop :=
  ∀ raw : Int,
    4 * (conv raw).natAbs ≤ 25 * raw.natAbs ∧ 25 * raw.natAbs < 4 * ((conv raw).natAbs + 1) ∧
    (0 ≤ raw → 0 ≤ conv raw) ∧ (raw ≤ 0 → conv raw ≤ 0) ∧
    (fitsHalf (conv raw) = true ↔ -5243 ≤ raw ∧ raw ≤ 5242)

/-- The frame of every tick, and R220: a tick reads no map cell and writes none itself (its stores are begun, not made), and touches
nothing of the two ports' state. -/
def Obligations.TickRowFrameAndIndependence : Prop :=
  ∀ (i : Instr) (s t : State), portOf i = .tick → exec i s = .next t →
    t = { s with
          owState := t.owState, owTicks := t.owTicks, owTiming := t.owTiming, owScratchLo := t.owScratchLo
          owScratchHi := t.owScratchHi, owLog := t.owLog, pendingStores := t.pendingStores, env := t.env } ∧
    ∀ m, exec i { s with map := m } = .next { t with map := m }

/-- R211: before its threshold the sequencer only counts. -/
def Obligations.IdleTicksOnlyCount : Prop :=
  ∀ (p : Params) (s : State) (k : Nat), s.owState = .idle → s.owTicks = 0 → k < p.n1 →
    ticks p k s = { s with owTicks := k }

/-- R219: from `Idle` with the counter 0 and a device present at the reset of tick `N1_OW`, no store is begun before tick
`N1_OW + N2_OW + 1`, and that tick begins the stores to 200 and 201 and returns to `Idle` with the counter 0. That a tick begins its
stores, and later steps make them, is the model's choice (log 7). -/
def Obligations.FirstStoreComesAtTheEndOfTheCycle : Prop :=
  ∀ (p : Params) (s : State), s.owState = .idle → s.owTicks = 0 → s.env.drawEcho.1 ≠ p.owResetByte →
    (∀ k, k ≤ p.n1 + p.n2 → (ticks p k s).pendingStores = s.pendingStores) ∧
    (ticks p (p.n1 + p.n2) s).owState = .reading ∧
    (ticks p (p.n1 + p.n2 + 1) s).owState = .idle ∧ (ticks p (p.n1 + p.n2 + 1) s).owTicks = 0 ∧
    ∃ a b, (ticks p (p.n1 + p.n2 + 1) s).pendingStores = s.pendingStores ++ [a, b] ∧
      ((a.index = 200#8 ∧ b.index = 201#8) ∨ (a.index = 201#8 ∧ b.index = 200#8))

/-- R220: a device that never answers stalls the sequencer in `Idle` for ever. After any number of ticks in which every exchange obeys
the line law `OW_IDLE_LINE`, nothing has been stored or begun and only resets have been sent. -/
def Obligations.AbsentDeviceStallsInIdle : Prop :=
  ∀ (p : Params) (n : Nat) (s : State), s.owState = .idle →
    (∀ x ∈ (ticks p n s).owLog.drop s.owLog.length, x.idleLine = true) →
    (ticks p n s).owState = .idle ∧ (ticks p n s).map = s.map ∧ (ticks p n s).pendingStores = s.pendingStores ∧
    (ticks p n s).owScratchLo = s.owScratchLo ∧ (ticks p n s).owScratchHi = s.owScratchHi ∧
    ∀ x ∈ (ticks p n s).owLog.drop s.owLog.length, x.slot = resetSlot p

/-! ## Encoding -/

/-- Decode of encode gives the instruction back: every row, every operand the encoding admits, in every context that selects the row.
In the command context alone the three command bytes must differ, because a command byte is decoded by its value. -/
def Obligations.DecodeEncodeAgree : Prop :=
  ∀ (p : Params) (c : Context) (i : Instr), (c = .line .command → p.commandsDiffer = true) →
    i.wellFormed p = true → i.fits c = true → decode p c (encode p i) = .ok i

/-- What decodes is well formed, belongs to its context, and encodes back to the word: no two words decode alike in one context. -/
def Obligations.DecodedWordEncodesBack : Prop :=
  ∀ (p : Params) (c : Context) (w : Nat) (i : Instr), decode p c w = .ok i →
    encode p i = w ∧ i.wellFormed p = true ∧ i.fits c = true

/-- Words written out from R90, R98 and R100–R102 decode to the rows they stand for. -/
def Obligations.SpecWordsDecode : Prop :=
  decodeBus Config.params ⟨true, .awaitingIndex, false⟩ 0x010#10 = .busAddrIndex 0x10#8 ∧
  decodeBus Config.params ⟨true, .awaitingValueHi, true⟩ 0x0FE#10 = .busAddrStart ∧
  decodeBus Config.params ⟨true, .genericData, false⟩ 0x112#10 = .busWdataGeneric 0x12#8 ∧
  decodeBus Config.params ⟨true, .genericData, false⟩ 0x200#10 = .busRreqMirror ∧
  decodeBus Config.params ⟨false, .genericData, false⟩ 0x300#10 = .busReserved 0#8 ∧
  decodeBus Config.params ⟨true, .genericData, false⟩ 0x201#10 = .busReservedRreq 1#8 ∧
  decodeHost .idle 0x52#8 = .hostLeadR ∧ decodeHost .awaitValue 0x52#8 = .hostWValue 0x52#8 ∧
  decodeLine Config.tableParams .command 0x44#8 = .ok .owCmdStartConversion ∧
  decodeTick .reading = .owSeqTickReading

/-! ## The whole machine -/

/-- R240, R256: no instruction and no step stops the machine: there is no fault, and every input has an effect. That a reserved event
word gives a next state with the mark set, and does not end the run, is the model's reading of R97 (DEDUCED, log 3). -/
def Obligations.NothingStopsTheMachine : Prop :=
  (∀ (i : Instr) (s : State), ∃ t, exec i s = .next t) ∧ ∀ s : State, ∃ t, step s = .next t

/-- The invariant holds at reset. -/
def Obligations.ResetMeetsTheInvariant : Prop := State.reset.inv Config.params = true

/-- Every step keeps the invariant: the map's canonical form (R20), the tick counter below its threshold (R41, R211), begun stores
inside 200–207 (R60), bit timing past the first reset but for a later reset in progress (R43, R189), and a tick in progress that fits
`ow_state`, its byte alone being on the line (R189), and the mark set while a reserved event word waits (R46). -/
def Obligations.StepKeepsTheInvariant : Prop :=
  ∀ s t : State, s.inv Config.params = true → step s = .next t → t.inv Config.params = true

/-- R34, R60: who can change a cell. A step that changes the byte at `a` is a `BOOT` write, a handled bus event (at the cursor, the
capture or the status), the host's value byte at the held index, or the making of a begun store. -/
def Obligations.CellChangesHaveAWriter : Prop :=
  ∀ (s t : State) (a : Nat), step s = .next t → t.map.read a ≠ s.map.read a →
    (s.phase ≠ .running ∧ (a = 250 ∨ a = 251 ∨ a = 253)) ∨
    (s.phase = .running ∧ s.env.drawTurn.1 = .move .bsp ∧ s.busQueue ≠ [] ∧ s.mapAt 241#8 ≠ 0#8 ∧
      (a = s.cursor.toNat ∨ a = 242 ∨ a = 243 ∨ a = 244 ∨ a = 252)) ∨
    (s.phase = .running ∧ (∃ pace, s.env.drawTurn.1 = .move (.main pace)) ∧ s.pendingStores = [] ∧ s.mainPos = .bridge ∧
      s.hostIn ≠ [] ∧ s.bstate = .awaitValue ∧ a = s.bidx.toNat) ∨
    (s.phase = .running ∧ (∃ pace, s.env.drawTurn.1 = .move (.main pace)) ∧
      ∃ st rest, s.pendingStores = st :: rest ∧ a = st.index.toNat)
end

