-- ==== Sys2Proof/Laws/Memory.lean ====
section
/-! SUPPORT. Laws of the RegisterMap: a read after a write, and the canonical form (20_memory.md R75, 10_state.md R20). -/

namespace Sys2Proof.Machine

@[simp] theorem Memory.read_nil (a : Nat) : Memory.read [] a = 0#8 := rfl

theorem Memory.read_erase_self (m : Memory) (a : Nat) : (m.erase a).read a = 0#8 := by
  induction m with
  | nil => rfl
  | cons c rest ih =>
    by_cases h : c.1 = a
    · simpa [Memory.erase, h] using ih
    · simpa [Memory.erase, Memory.read, h] using ih

theorem Memory.read_erase_ne (m : Memory) {a b : Nat} (h : b ≠ a) : (m.erase a).read b = m.read b := by
  induction m with
  | nil => rfl
  | cons c rest ih =>
    by_cases hc : c.1 = a
    · have hb : ¬ c.1 = b := fun e => h (e.symm.trans hc)
      rw [Memory.read, if_neg hb, ← ih]
      simp [Memory.erase, hc]
    · have : Memory.erase (c :: rest) a = c :: Memory.erase rest a := by simp [Memory.erase, hc]
      rw [this, Memory.read, Memory.read, ih]

theorem Memory.read_insert_ne (m : Memory) {a b : Nat} (v : Byte) (h : b ≠ a) :
    (Memory.insert m a v).read b = m.read b := by
  induction m with
  | nil => simp [Memory.insert, Memory.read, Ne.symm h]
  | cons c rest ih =>
    by_cases hc : a < c.1
    · simp [Memory.insert, hc, Memory.read, Ne.symm h]
    · simp [Memory.insert, hc, Memory.read, ih]

theorem Memory.read_insert_self (m : Memory) (a : Nat) (v : Byte) (h : ∀ c ∈ m, c.1 ≠ a) :
    (Memory.insert m a v).read a = v := by
  induction m with
  | nil => simp [Memory.insert, Memory.read]
  | cons c rest ih =>
    by_cases hc : a < c.1
    · simp [Memory.insert, hc, Memory.read]
    · simp only [Memory.insert, hc, if_false, Memory.read]
      rw [if_neg (h c (by simp)), ih fun d hd => h d (by simp [hd])]

theorem Memory.erase_ne (m : Memory) (a : Nat) : ∀ c ∈ m.erase a, c.1 ≠ a := by
  intro c hc
  simpa [Memory.erase] using (List.mem_filter.mp hc).2

/-- A read after a write to the same index gives the byte written. -/
theorem Memory.read_write_self (m : Memory) (a : Nat) (v : Byte) : (m.write a v).read a = v := by
  by_cases h : v = 0#8
  · simp [Memory.write, h, Memory.read_erase_self]
  · simp [Memory.write, h, Memory.read_insert_self _ _ _ (Memory.erase_ne m a)]

/-- A write leaves every other index alone. -/
theorem Memory.read_write_ne (m : Memory) {a b : Nat} (v : Byte) (h : b ≠ a) :
    (m.write a v).read b = m.read b := by
  by_cases hv : v = 0#8
  · simp [Memory.write, hv, Memory.read_erase_ne m h]
  · simp [Memory.write, hv, Memory.read_insert_ne _ v h, Memory.read_erase_ne m h]

theorem Memory.wfFrom_mono {lo lo' : Nat} (h : lo' ≤ lo) (m : Memory) (hm : Memory.wfFrom lo m = true) :
    Memory.wfFrom lo' m = true := by
  cases m with
  | nil => rfl
  | cons c rest =>
    simp only [Memory.wfFrom, Bool.and_eq_true, decide_eq_true_eq] at hm ⊢
    exact ⟨⟨⟨by omega, hm.1.1.2⟩, hm.1.2⟩, hm.2⟩

theorem Memory.wfFrom_erase (m : Memory) (a lo : Nat) (hm : Memory.wfFrom lo m = true) :
    Memory.wfFrom lo (m.erase a) = true := by
  induction m generalizing lo with
  | nil => rfl
  | cons c rest ih =>
    simp only [Memory.wfFrom, Bool.and_eq_true, decide_eq_true_eq] at hm
    by_cases hc : c.1 = a
    · have : Memory.erase (c :: rest) a = Memory.erase rest a := by simp [Memory.erase, hc]
      rw [this]
      exact Memory.wfFrom_mono (by omega) _ (ih _ hm.2)
    · have : Memory.erase (c :: rest) a = c :: Memory.erase rest a := by simp [Memory.erase, hc]
      rw [this]
      simp only [Memory.wfFrom, Bool.and_eq_true, decide_eq_true_eq]
      exact ⟨hm.1, ih _ hm.2⟩

theorem Memory.wfFrom_insert (m : Memory) (a : Nat) (v : Byte) (lo : Nat) (hm : Memory.wfFrom lo m = true)
    (hlo : lo ≤ a) (ha : a < 256) (hv : v ≠ 0#8) (hne : ∀ c ∈ m, c.1 ≠ a) :
    Memory.wfFrom lo (Memory.insert m a v) = true := by
  induction m generalizing lo with
  | nil => simp [Memory.insert, Memory.wfFrom, hlo, ha, hv]
  | cons c rest ih =>
    simp only [Memory.wfFrom, Bool.and_eq_true, decide_eq_true_eq] at hm
    by_cases hc : a < c.1
    · simp only [Memory.insert, hc, if_true, Memory.wfFrom, Bool.and_eq_true, decide_eq_true_eq]
      exact ⟨⟨⟨hlo, ha⟩, by simpa using hv⟩, ⟨⟨⟨by omega, hm.1.1.2⟩, hm.1.2⟩, hm.2⟩⟩
    · have : c.1 ≠ a := hne c (by simp)
      simp only [Memory.insert, hc, if_false, Memory.wfFrom, Bool.and_eq_true, decide_eq_true_eq]
      exact ⟨hm.1, ih _ hm.2 (by omega) fun d hd => hne d (by simp [hd])⟩

/-- A write at an index of the map keeps the canonical form. -/
theorem Memory.wf_write (m : Memory) (a : Nat) (v : Byte) (hm : m.wf = true) (ha : a < 256) :
    (m.write a v).wf = true := by
  by_cases hv : v = 0#8
  · simpa [Memory.write, Memory.wf, hv] using Memory.wfFrom_erase m a 0 hm
  · simpa [Memory.write, Memory.wf, hv] using
      Memory.wfFrom_insert _ a v 0 (Memory.wfFrom_erase m a 0 hm) (by omega) ha hv (Memory.erase_ne m a)

/-- The reset map has the canonical form. -/
theorem reset_map_wf : State.reset.map.wf = true := rfl

/-- Below the bound the list rises from, every index reads 0. -/
theorem Memory.read_of_wfFrom_lt (m : Memory) (lo a : Nat) (hm : Memory.wfFrom lo m = true) (ha : a < lo) :
    m.read a = 0#8 := by
  induction m generalizing lo with
  | nil => rfl
  | cons c rest ih =>
    simp only [Memory.wfFrom, Bool.and_eq_true, decide_eq_true_eq] at hm
    rw [Memory.read, if_neg (by omega)]
    exact ih _ hm.2 (by omega)

theorem Memory.ext_of_wfFrom (m n : Memory) (lo : Nat) (hm : Memory.wfFrom lo m = true)
    (hn : Memory.wfFrom lo n = true) (h : ∀ a, m.read a = n.read a) : m = n := by
  induction m generalizing n lo with
  | nil =>
    cases n with
    | nil => rfl
    | cons d rest =>
      simp only [Memory.wfFrom, Bool.and_eq_true, bne_iff_ne] at hn
      have := h d.1
      simp [Memory.read] at this
      exact absurd this.symm hn.1.2
  | cons c rest ih =>
    cases n with
    | nil =>
      simp only [Memory.wfFrom, Bool.and_eq_true, bne_iff_ne] at hm
      have := h c.1
      simp [Memory.read] at this
      exact absurd this hm.1.2
    | cons d rest' =>
      have hm' := hm
      have hn' := hn
      simp only [Memory.wfFrom, Bool.and_eq_true, decide_eq_true_eq, bne_iff_ne] at hm hn
      have key : c.1 = d.1 := by
        rcases Nat.lt_trichotomy c.1 d.1 with hlt | heq | hgt
        · have h1 := h c.1
          rw [Memory.read_of_wfFrom_lt (d :: rest') d.1 c.1 _ hlt] at h1
          · simp [Memory.read] at h1
            exact absurd h1 hm.1.2
          · simp [Memory.wfFrom, hn.1.1.2, hn.1.2, hn.2]
        · exact heq
        · have h1 := h d.1
          rw [Memory.read_of_wfFrom_lt (c :: rest) c.1 d.1 _ hgt] at h1
          · simp [Memory.read] at h1
            exact absurd h1.symm hn.1.2
          · simp [Memory.wfFrom, hm.1.1.2, hm.1.2, hm.2]
      have hv : c.2 = d.2 := by simpa [Memory.read, key] using h c.1
      have hcd : c = d := Prod.ext key hv
      subst hcd
      congr 1
      refine ih rest' (c.1 + 1) hm.2 hn.2 fun a => ?_
      by_cases ha : c.1 = a
      · subst ha
        rw [Memory.read_of_wfFrom_lt _ _ _ hm.2 (by omega), Memory.read_of_wfFrom_lt _ _ _ hn.2 (by omega)]
      · have := h a
        rwa [Memory.read, Memory.read, if_neg ha, if_neg ha] at this

/-- Two maps in canonical form that read alike at every index are the same list. -/
theorem Memory.ext_of_wf (m n : Memory) (hm : m.wf = true) (hn : n.wf = true) (h : ∀ a, m.read a = n.read a) : m = n :=
  Memory.ext_of_wfFrom m n 0 hm hn h

end Sys2Proof.Machine
end

