-- ==== Sys2Proof/Laws/State.lean ====
section
/-! SUPPORT. What each update of State.lean's record does to each field: one lemma per field per update, true by rfl. -/

namespace Sys2Proof.Machine

@[simp] theorem State.setMap_map (s : State) (i v : Byte) :
    (s.setMap i v).map = s.map.write i.toNat v := rfl
@[simp] theorem State.setMap_writeState (s : State) (i v : Byte) :
    (s.setMap i v).writeState = s.writeState := rfl
@[simp] theorem State.setMap_cursor (s : State) (i v : Byte) :
    (s.setMap i v).cursor = s.cursor := rfl
@[simp] theorem State.setMap_bstate (s : State) (i v : Byte) :
    (s.setMap i v).bstate = s.bstate := rfl
@[simp] theorem State.setMap_bidx (s : State) (i v : Byte) :
    (s.setMap i v).bidx = s.bidx := rfl
@[simp] theorem State.setMap_owState (s : State) (i v : Byte) :
    (s.setMap i v).owState = s.owState := rfl
@[simp] theorem State.setMap_owTicks (s : State) (i v : Byte) :
    (s.setMap i v).owTicks = s.owTicks := rfl
@[simp] theorem State.setMap_owScratchLo (s : State) (i v : Byte) :
    (s.setMap i v).owScratchLo = s.owScratchLo := rfl
@[simp] theorem State.setMap_owScratchHi (s : State) (i v : Byte) :
    (s.setMap i v).owScratchHi = s.owScratchHi := rfl
@[simp] theorem State.setMap_owTiming (s : State) (i v : Byte) :
    (s.setMap i v).owTiming = s.owTiming := rfl
@[simp] theorem State.setMap_owStage (s : State) (i v : Byte) :
    (s.setMap i v).owStage = s.owStage := rfl
@[simp] theorem State.setMap_owSending (s : State) (i v : Byte) :
    (s.setMap i v).owSending = s.owSending := rfl
@[simp] theorem State.setMap_busQueue (s : State) (i v : Byte) :
    (s.setMap i v).busQueue = s.busQueue := rfl
@[simp] theorem State.setMap_hostIn (s : State) (i v : Byte) :
    (s.setMap i v).hostIn = s.hostIn := rfl
@[simp] theorem State.setMap_hostOut (s : State) (i v : Byte) :
    (s.setMap i v).hostOut = s.hostOut := rfl
@[simp] theorem State.setMap_refused (s : State) (i v : Byte) :
    (s.setMap i v).refused = s.refused := rfl
@[simp] theorem State.setMap_busOut (s : State) (i v : Byte) :
    (s.setMap i v).busOut = s.busOut := rfl
@[simp] theorem State.setMap_owLog (s : State) (i v : Byte) :
    (s.setMap i v).owLog = s.owLog := rfl
@[simp] theorem State.setMap_owResult (s : State) (i v : Byte) :
    (s.setMap i v).owResult = s.owResult := rfl
@[simp] theorem State.setMap_phase (s : State) (i v : Byte) :
    (s.setMap i v).phase = s.phase := rfl
@[simp] theorem State.setMap_mainPos (s : State) (i v : Byte) :
    (s.setMap i v).mainPos = s.mainPos := rfl
@[simp] theorem State.setMap_pendingStores (s : State) (i v : Byte) :
    (s.setMap i v).pendingStores = s.pendingStores := rfl
@[simp] theorem State.setMap_env (s : State) (i v : Byte) :
    (s.setMap i v).env = s.env := rfl

@[simp] theorem State.setWriteState_map (s : State) (w : WriteState) :
    (s.setWriteState w).map = s.map := rfl
@[simp] theorem State.setWriteState_writeState (s : State) (w : WriteState) :
    (s.setWriteState w).writeState = w := rfl
@[simp] theorem State.setWriteState_cursor (s : State) (w : WriteState) :
    (s.setWriteState w).cursor = s.cursor := rfl
@[simp] theorem State.setWriteState_bstate (s : State) (w : WriteState) :
    (s.setWriteState w).bstate = s.bstate := rfl
@[simp] theorem State.setWriteState_bidx (s : State) (w : WriteState) :
    (s.setWriteState w).bidx = s.bidx := rfl
@[simp] theorem State.setWriteState_owState (s : State) (w : WriteState) :
    (s.setWriteState w).owState = s.owState := rfl
@[simp] theorem State.setWriteState_owTicks (s : State) (w : WriteState) :
    (s.setWriteState w).owTicks = s.owTicks := rfl
@[simp] theorem State.setWriteState_owScratchLo (s : State) (w : WriteState) :
    (s.setWriteState w).owScratchLo = s.owScratchLo := rfl
@[simp] theorem State.setWriteState_owScratchHi (s : State) (w : WriteState) :
    (s.setWriteState w).owScratchHi = s.owScratchHi := rfl
@[simp] theorem State.setWriteState_owTiming (s : State) (w : WriteState) :
    (s.setWriteState w).owTiming = s.owTiming := rfl
@[simp] theorem State.setWriteState_owStage (s : State) (w : WriteState) :
    (s.setWriteState w).owStage = s.owStage := rfl
@[simp] theorem State.setWriteState_owSending (s : State) (w : WriteState) :
    (s.setWriteState w).owSending = s.owSending := rfl
@[simp] theorem State.setWriteState_busQueue (s : State) (w : WriteState) :
    (s.setWriteState w).busQueue = s.busQueue := rfl
@[simp] theorem State.setWriteState_hostIn (s : State) (w : WriteState) :
    (s.setWriteState w).hostIn = s.hostIn := rfl
@[simp] theorem State.setWriteState_hostOut (s : State) (w : WriteState) :
    (s.setWriteState w).hostOut = s.hostOut := rfl
@[simp] theorem State.setWriteState_refused (s : State) (w : WriteState) :
    (s.setWriteState w).refused = s.refused := rfl
@[simp] theorem State.setWriteState_busOut (s : State) (w : WriteState) :
    (s.setWriteState w).busOut = s.busOut := rfl
@[simp] theorem State.setWriteState_owLog (s : State) (w : WriteState) :
    (s.setWriteState w).owLog = s.owLog := rfl
@[simp] theorem State.setWriteState_owResult (s : State) (w : WriteState) :
    (s.setWriteState w).owResult = s.owResult := rfl
@[simp] theorem State.setWriteState_phase (s : State) (w : WriteState) :
    (s.setWriteState w).phase = s.phase := rfl
@[simp] theorem State.setWriteState_mainPos (s : State) (w : WriteState) :
    (s.setWriteState w).mainPos = s.mainPos := rfl
@[simp] theorem State.setWriteState_pendingStores (s : State) (w : WriteState) :
    (s.setWriteState w).pendingStores = s.pendingStores := rfl
@[simp] theorem State.setWriteState_env (s : State) (w : WriteState) :
    (s.setWriteState w).env = s.env := rfl

@[simp] theorem State.setCursor_map (s : State) (c : Byte) :
    (s.setCursor c).map = s.map := rfl
@[simp] theorem State.setCursor_writeState (s : State) (c : Byte) :
    (s.setCursor c).writeState = s.writeState := rfl
@[simp] theorem State.setCursor_cursor (s : State) (c : Byte) :
    (s.setCursor c).cursor = c := rfl
@[simp] theorem State.setCursor_bstate (s : State) (c : Byte) :
    (s.setCursor c).bstate = s.bstate := rfl
@[simp] theorem State.setCursor_bidx (s : State) (c : Byte) :
    (s.setCursor c).bidx = s.bidx := rfl
@[simp] theorem State.setCursor_owState (s : State) (c : Byte) :
    (s.setCursor c).owState = s.owState := rfl
@[simp] theorem State.setCursor_owTicks (s : State) (c : Byte) :
    (s.setCursor c).owTicks = s.owTicks := rfl
@[simp] theorem State.setCursor_owScratchLo (s : State) (c : Byte) :
    (s.setCursor c).owScratchLo = s.owScratchLo := rfl
@[simp] theorem State.setCursor_owScratchHi (s : State) (c : Byte) :
    (s.setCursor c).owScratchHi = s.owScratchHi := rfl
@[simp] theorem State.setCursor_owTiming (s : State) (c : Byte) :
    (s.setCursor c).owTiming = s.owTiming := rfl
@[simp] theorem State.setCursor_owStage (s : State) (c : Byte) :
    (s.setCursor c).owStage = s.owStage := rfl
@[simp] theorem State.setCursor_owSending (s : State) (c : Byte) :
    (s.setCursor c).owSending = s.owSending := rfl
@[simp] theorem State.setCursor_busQueue (s : State) (c : Byte) :
    (s.setCursor c).busQueue = s.busQueue := rfl
@[simp] theorem State.setCursor_hostIn (s : State) (c : Byte) :
    (s.setCursor c).hostIn = s.hostIn := rfl
@[simp] theorem State.setCursor_hostOut (s : State) (c : Byte) :
    (s.setCursor c).hostOut = s.hostOut := rfl
@[simp] theorem State.setCursor_refused (s : State) (c : Byte) :
    (s.setCursor c).refused = s.refused := rfl
@[simp] theorem State.setCursor_busOut (s : State) (c : Byte) :
    (s.setCursor c).busOut = s.busOut := rfl
@[simp] theorem State.setCursor_owLog (s : State) (c : Byte) :
    (s.setCursor c).owLog = s.owLog := rfl
@[simp] theorem State.setCursor_owResult (s : State) (c : Byte) :
    (s.setCursor c).owResult = s.owResult := rfl
@[simp] theorem State.setCursor_phase (s : State) (c : Byte) :
    (s.setCursor c).phase = s.phase := rfl
@[simp] theorem State.setCursor_mainPos (s : State) (c : Byte) :
    (s.setCursor c).mainPos = s.mainPos := rfl
@[simp] theorem State.setCursor_pendingStores (s : State) (c : Byte) :
    (s.setCursor c).pendingStores = s.pendingStores := rfl
@[simp] theorem State.setCursor_env (s : State) (c : Byte) :
    (s.setCursor c).env = s.env := rfl

@[simp] theorem State.setBstate_map (s : State) (b : BridgeState) :
    (s.setBstate b).map = s.map := rfl
@[simp] theorem State.setBstate_writeState (s : State) (b : BridgeState) :
    (s.setBstate b).writeState = s.writeState := rfl
@[simp] theorem State.setBstate_cursor (s : State) (b : BridgeState) :
    (s.setBstate b).cursor = s.cursor := rfl
@[simp] theorem State.setBstate_bstate (s : State) (b : BridgeState) :
    (s.setBstate b).bstate = b := rfl
@[simp] theorem State.setBstate_bidx (s : State) (b : BridgeState) :
    (s.setBstate b).bidx = s.bidx := rfl
@[simp] theorem State.setBstate_owState (s : State) (b : BridgeState) :
    (s.setBstate b).owState = s.owState := rfl
@[simp] theorem State.setBstate_owTicks (s : State) (b : BridgeState) :
    (s.setBstate b).owTicks = s.owTicks := rfl
@[simp] theorem State.setBstate_owScratchLo (s : State) (b : BridgeState) :
    (s.setBstate b).owScratchLo = s.owScratchLo := rfl
@[simp] theorem State.setBstate_owScratchHi (s : State) (b : BridgeState) :
    (s.setBstate b).owScratchHi = s.owScratchHi := rfl
@[simp] theorem State.setBstate_owTiming (s : State) (b : BridgeState) :
    (s.setBstate b).owTiming = s.owTiming := rfl
@[simp] theorem State.setBstate_owStage (s : State) (b : BridgeState) :
    (s.setBstate b).owStage = s.owStage := rfl
@[simp] theorem State.setBstate_owSending (s : State) (b : BridgeState) :
    (s.setBstate b).owSending = s.owSending := rfl
@[simp] theorem State.setBstate_busQueue (s : State) (b : BridgeState) :
    (s.setBstate b).busQueue = s.busQueue := rfl
@[simp] theorem State.setBstate_hostIn (s : State) (b : BridgeState) :
    (s.setBstate b).hostIn = s.hostIn := rfl
@[simp] theorem State.setBstate_hostOut (s : State) (b : BridgeState) :
    (s.setBstate b).hostOut = s.hostOut := rfl
@[simp] theorem State.setBstate_refused (s : State) (b : BridgeState) :
    (s.setBstate b).refused = s.refused := rfl
@[simp] theorem State.setBstate_busOut (s : State) (b : BridgeState) :
    (s.setBstate b).busOut = s.busOut := rfl
@[simp] theorem State.setBstate_owLog (s : State) (b : BridgeState) :
    (s.setBstate b).owLog = s.owLog := rfl
@[simp] theorem State.setBstate_owResult (s : State) (b : BridgeState) :
    (s.setBstate b).owResult = s.owResult := rfl
@[simp] theorem State.setBstate_phase (s : State) (b : BridgeState) :
    (s.setBstate b).phase = s.phase := rfl
@[simp] theorem State.setBstate_mainPos (s : State) (b : BridgeState) :
    (s.setBstate b).mainPos = s.mainPos := rfl
@[simp] theorem State.setBstate_pendingStores (s : State) (b : BridgeState) :
    (s.setBstate b).pendingStores = s.pendingStores := rfl
@[simp] theorem State.setBstate_env (s : State) (b : BridgeState) :
    (s.setBstate b).env = s.env := rfl

@[simp] theorem State.setBidx_map (s : State) (b : Byte) :
    (s.setBidx b).map = s.map := rfl
@[simp] theorem State.setBidx_writeState (s : State) (b : Byte) :
    (s.setBidx b).writeState = s.writeState := rfl
@[simp] theorem State.setBidx_cursor (s : State) (b : Byte) :
    (s.setBidx b).cursor = s.cursor := rfl
@[simp] theorem State.setBidx_bstate (s : State) (b : Byte) :
    (s.setBidx b).bstate = s.bstate := rfl
@[simp] theorem State.setBidx_bidx (s : State) (b : Byte) :
    (s.setBidx b).bidx = b := rfl
@[simp] theorem State.setBidx_owState (s : State) (b : Byte) :
    (s.setBidx b).owState = s.owState := rfl
@[simp] theorem State.setBidx_owTicks (s : State) (b : Byte) :
    (s.setBidx b).owTicks = s.owTicks := rfl
@[simp] theorem State.setBidx_owScratchLo (s : State) (b : Byte) :
    (s.setBidx b).owScratchLo = s.owScratchLo := rfl
@[simp] theorem State.setBidx_owScratchHi (s : State) (b : Byte) :
    (s.setBidx b).owScratchHi = s.owScratchHi := rfl
@[simp] theorem State.setBidx_owTiming (s : State) (b : Byte) :
    (s.setBidx b).owTiming = s.owTiming := rfl
@[simp] theorem State.setBidx_owStage (s : State) (b : Byte) :
    (s.setBidx b).owStage = s.owStage := rfl
@[simp] theorem State.setBidx_owSending (s : State) (b : Byte) :
    (s.setBidx b).owSending = s.owSending := rfl
@[simp] theorem State.setBidx_busQueue (s : State) (b : Byte) :
    (s.setBidx b).busQueue = s.busQueue := rfl
@[simp] theorem State.setBidx_hostIn (s : State) (b : Byte) :
    (s.setBidx b).hostIn = s.hostIn := rfl
@[simp] theorem State.setBidx_hostOut (s : State) (b : Byte) :
    (s.setBidx b).hostOut = s.hostOut := rfl
@[simp] theorem State.setBidx_refused (s : State) (b : Byte) :
    (s.setBidx b).refused = s.refused := rfl
@[simp] theorem State.setBidx_busOut (s : State) (b : Byte) :
    (s.setBidx b).busOut = s.busOut := rfl
@[simp] theorem State.setBidx_owLog (s : State) (b : Byte) :
    (s.setBidx b).owLog = s.owLog := rfl
@[simp] theorem State.setBidx_owResult (s : State) (b : Byte) :
    (s.setBidx b).owResult = s.owResult := rfl
@[simp] theorem State.setBidx_phase (s : State) (b : Byte) :
    (s.setBidx b).phase = s.phase := rfl
@[simp] theorem State.setBidx_mainPos (s : State) (b : Byte) :
    (s.setBidx b).mainPos = s.mainPos := rfl
@[simp] theorem State.setBidx_pendingStores (s : State) (b : Byte) :
    (s.setBidx b).pendingStores = s.pendingStores := rfl
@[simp] theorem State.setBidx_env (s : State) (b : Byte) :
    (s.setBidx b).env = s.env := rfl

@[simp] theorem State.setOwState_map (s : State) (o : OwState) :
    (s.setOwState o).map = s.map := rfl
@[simp] theorem State.setOwState_writeState (s : State) (o : OwState) :
    (s.setOwState o).writeState = s.writeState := rfl
@[simp] theorem State.setOwState_cursor (s : State) (o : OwState) :
    (s.setOwState o).cursor = s.cursor := rfl
@[simp] theorem State.setOwState_bstate (s : State) (o : OwState) :
    (s.setOwState o).bstate = s.bstate := rfl
@[simp] theorem State.setOwState_bidx (s : State) (o : OwState) :
    (s.setOwState o).bidx = s.bidx := rfl
@[simp] theorem State.setOwState_owState (s : State) (o : OwState) :
    (s.setOwState o).owState = o := rfl
@[simp] theorem State.setOwState_owTicks (s : State) (o : OwState) :
    (s.setOwState o).owTicks = s.owTicks := rfl
@[simp] theorem State.setOwState_owScratchLo (s : State) (o : OwState) :
    (s.setOwState o).owScratchLo = s.owScratchLo := rfl
@[simp] theorem State.setOwState_owScratchHi (s : State) (o : OwState) :
    (s.setOwState o).owScratchHi = s.owScratchHi := rfl
@[simp] theorem State.setOwState_owTiming (s : State) (o : OwState) :
    (s.setOwState o).owTiming = s.owTiming := rfl
@[simp] theorem State.setOwState_owStage (s : State) (o : OwState) :
    (s.setOwState o).owStage = s.owStage := rfl
@[simp] theorem State.setOwState_owSending (s : State) (o : OwState) :
    (s.setOwState o).owSending = s.owSending := rfl
@[simp] theorem State.setOwState_busQueue (s : State) (o : OwState) :
    (s.setOwState o).busQueue = s.busQueue := rfl
@[simp] theorem State.setOwState_hostIn (s : State) (o : OwState) :
    (s.setOwState o).hostIn = s.hostIn := rfl
@[simp] theorem State.setOwState_hostOut (s : State) (o : OwState) :
    (s.setOwState o).hostOut = s.hostOut := rfl
@[simp] theorem State.setOwState_refused (s : State) (o : OwState) :
    (s.setOwState o).refused = s.refused := rfl
@[simp] theorem State.setOwState_busOut (s : State) (o : OwState) :
    (s.setOwState o).busOut = s.busOut := rfl
@[simp] theorem State.setOwState_owLog (s : State) (o : OwState) :
    (s.setOwState o).owLog = s.owLog := rfl
@[simp] theorem State.setOwState_owResult (s : State) (o : OwState) :
    (s.setOwState o).owResult = s.owResult := rfl
@[simp] theorem State.setOwState_phase (s : State) (o : OwState) :
    (s.setOwState o).phase = s.phase := rfl
@[simp] theorem State.setOwState_mainPos (s : State) (o : OwState) :
    (s.setOwState o).mainPos = s.mainPos := rfl
@[simp] theorem State.setOwState_pendingStores (s : State) (o : OwState) :
    (s.setOwState o).pendingStores = s.pendingStores := rfl
@[simp] theorem State.setOwState_env (s : State) (o : OwState) :
    (s.setOwState o).env = s.env := rfl

@[simp] theorem State.setOwTicks_map (s : State) (n : Nat) :
    (s.setOwTicks n).map = s.map := rfl
@[simp] theorem State.setOwTicks_writeState (s : State) (n : Nat) :
    (s.setOwTicks n).writeState = s.writeState := rfl
@[simp] theorem State.setOwTicks_cursor (s : State) (n : Nat) :
    (s.setOwTicks n).cursor = s.cursor := rfl
@[simp] theorem State.setOwTicks_bstate (s : State) (n : Nat) :
    (s.setOwTicks n).bstate = s.bstate := rfl
@[simp] theorem State.setOwTicks_bidx (s : State) (n : Nat) :
    (s.setOwTicks n).bidx = s.bidx := rfl
@[simp] theorem State.setOwTicks_owState (s : State) (n : Nat) :
    (s.setOwTicks n).owState = s.owState := rfl
@[simp] theorem State.setOwTicks_owTicks (s : State) (n : Nat) :
    (s.setOwTicks n).owTicks = n := rfl
@[simp] theorem State.setOwTicks_owScratchLo (s : State) (n : Nat) :
    (s.setOwTicks n).owScratchLo = s.owScratchLo := rfl
@[simp] theorem State.setOwTicks_owScratchHi (s : State) (n : Nat) :
    (s.setOwTicks n).owScratchHi = s.owScratchHi := rfl
@[simp] theorem State.setOwTicks_owTiming (s : State) (n : Nat) :
    (s.setOwTicks n).owTiming = s.owTiming := rfl
@[simp] theorem State.setOwTicks_owStage (s : State) (n : Nat) :
    (s.setOwTicks n).owStage = s.owStage := rfl
@[simp] theorem State.setOwTicks_owSending (s : State) (n : Nat) :
    (s.setOwTicks n).owSending = s.owSending := rfl
@[simp] theorem State.setOwTicks_busQueue (s : State) (n : Nat) :
    (s.setOwTicks n).busQueue = s.busQueue := rfl
@[simp] theorem State.setOwTicks_hostIn (s : State) (n : Nat) :
    (s.setOwTicks n).hostIn = s.hostIn := rfl
@[simp] theorem State.setOwTicks_hostOut (s : State) (n : Nat) :
    (s.setOwTicks n).hostOut = s.hostOut := rfl
@[simp] theorem State.setOwTicks_refused (s : State) (n : Nat) :
    (s.setOwTicks n).refused = s.refused := rfl
@[simp] theorem State.setOwTicks_busOut (s : State) (n : Nat) :
    (s.setOwTicks n).busOut = s.busOut := rfl
@[simp] theorem State.setOwTicks_owLog (s : State) (n : Nat) :
    (s.setOwTicks n).owLog = s.owLog := rfl
@[simp] theorem State.setOwTicks_owResult (s : State) (n : Nat) :
    (s.setOwTicks n).owResult = s.owResult := rfl
@[simp] theorem State.setOwTicks_phase (s : State) (n : Nat) :
    (s.setOwTicks n).phase = s.phase := rfl
@[simp] theorem State.setOwTicks_mainPos (s : State) (n : Nat) :
    (s.setOwTicks n).mainPos = s.mainPos := rfl
@[simp] theorem State.setOwTicks_pendingStores (s : State) (n : Nat) :
    (s.setOwTicks n).pendingStores = s.pendingStores := rfl
@[simp] theorem State.setOwTicks_env (s : State) (n : Nat) :
    (s.setOwTicks n).env = s.env := rfl

@[simp] theorem State.setScratchLo_map (s : State) (b : Byte) :
    (s.setScratchLo b).map = s.map := rfl
@[simp] theorem State.setScratchLo_writeState (s : State) (b : Byte) :
    (s.setScratchLo b).writeState = s.writeState := rfl
@[simp] theorem State.setScratchLo_cursor (s : State) (b : Byte) :
    (s.setScratchLo b).cursor = s.cursor := rfl
@[simp] theorem State.setScratchLo_bstate (s : State) (b : Byte) :
    (s.setScratchLo b).bstate = s.bstate := rfl
@[simp] theorem State.setScratchLo_bidx (s : State) (b : Byte) :
    (s.setScratchLo b).bidx = s.bidx := rfl
@[simp] theorem State.setScratchLo_owState (s : State) (b : Byte) :
    (s.setScratchLo b).owState = s.owState := rfl
@[simp] theorem State.setScratchLo_owTicks (s : State) (b : Byte) :
    (s.setScratchLo b).owTicks = s.owTicks := rfl
@[simp] theorem State.setScratchLo_owScratchLo (s : State) (b : Byte) :
    (s.setScratchLo b).owScratchLo = b := rfl
@[simp] theorem State.setScratchLo_owScratchHi (s : State) (b : Byte) :
    (s.setScratchLo b).owScratchHi = s.owScratchHi := rfl
@[simp] theorem State.setScratchLo_owTiming (s : State) (b : Byte) :
    (s.setScratchLo b).owTiming = s.owTiming := rfl
@[simp] theorem State.setScratchLo_owStage (s : State) (b : Byte) :
    (s.setScratchLo b).owStage = s.owStage := rfl
@[simp] theorem State.setScratchLo_owSending (s : State) (b : Byte) :
    (s.setScratchLo b).owSending = s.owSending := rfl
@[simp] theorem State.setScratchLo_busQueue (s : State) (b : Byte) :
    (s.setScratchLo b).busQueue = s.busQueue := rfl
@[simp] theorem State.setScratchLo_hostIn (s : State) (b : Byte) :
    (s.setScratchLo b).hostIn = s.hostIn := rfl
@[simp] theorem State.setScratchLo_hostOut (s : State) (b : Byte) :
    (s.setScratchLo b).hostOut = s.hostOut := rfl
@[simp] theorem State.setScratchLo_refused (s : State) (b : Byte) :
    (s.setScratchLo b).refused = s.refused := rfl
@[simp] theorem State.setScratchLo_busOut (s : State) (b : Byte) :
    (s.setScratchLo b).busOut = s.busOut := rfl
@[simp] theorem State.setScratchLo_owLog (s : State) (b : Byte) :
    (s.setScratchLo b).owLog = s.owLog := rfl
@[simp] theorem State.setScratchLo_owResult (s : State) (b : Byte) :
    (s.setScratchLo b).owResult = s.owResult := rfl
@[simp] theorem State.setScratchLo_phase (s : State) (b : Byte) :
    (s.setScratchLo b).phase = s.phase := rfl
@[simp] theorem State.setScratchLo_mainPos (s : State) (b : Byte) :
    (s.setScratchLo b).mainPos = s.mainPos := rfl
@[simp] theorem State.setScratchLo_pendingStores (s : State) (b : Byte) :
    (s.setScratchLo b).pendingStores = s.pendingStores := rfl
@[simp] theorem State.setScratchLo_env (s : State) (b : Byte) :
    (s.setScratchLo b).env = s.env := rfl

@[simp] theorem State.setScratchHi_map (s : State) (b : Byte) :
    (s.setScratchHi b).map = s.map := rfl
@[simp] theorem State.setScratchHi_writeState (s : State) (b : Byte) :
    (s.setScratchHi b).writeState = s.writeState := rfl
@[simp] theorem State.setScratchHi_cursor (s : State) (b : Byte) :
    (s.setScratchHi b).cursor = s.cursor := rfl
@[simp] theorem State.setScratchHi_bstate (s : State) (b : Byte) :
    (s.setScratchHi b).bstate = s.bstate := rfl
@[simp] theorem State.setScratchHi_bidx (s : State) (b : Byte) :
    (s.setScratchHi b).bidx = s.bidx := rfl
@[simp] theorem State.setScratchHi_owState (s : State) (b : Byte) :
    (s.setScratchHi b).owState = s.owState := rfl
@[simp] theorem State.setScratchHi_owTicks (s : State) (b : Byte) :
    (s.setScratchHi b).owTicks = s.owTicks := rfl
@[simp] theorem State.setScratchHi_owScratchLo (s : State) (b : Byte) :
    (s.setScratchHi b).owScratchLo = s.owScratchLo := rfl
@[simp] theorem State.setScratchHi_owScratchHi (s : State) (b : Byte) :
    (s.setScratchHi b).owScratchHi = b := rfl
@[simp] theorem State.setScratchHi_owTiming (s : State) (b : Byte) :
    (s.setScratchHi b).owTiming = s.owTiming := rfl
@[simp] theorem State.setScratchHi_owStage (s : State) (b : Byte) :
    (s.setScratchHi b).owStage = s.owStage := rfl
@[simp] theorem State.setScratchHi_owSending (s : State) (b : Byte) :
    (s.setScratchHi b).owSending = s.owSending := rfl
@[simp] theorem State.setScratchHi_busQueue (s : State) (b : Byte) :
    (s.setScratchHi b).busQueue = s.busQueue := rfl
@[simp] theorem State.setScratchHi_hostIn (s : State) (b : Byte) :
    (s.setScratchHi b).hostIn = s.hostIn := rfl
@[simp] theorem State.setScratchHi_hostOut (s : State) (b : Byte) :
    (s.setScratchHi b).hostOut = s.hostOut := rfl
@[simp] theorem State.setScratchHi_refused (s : State) (b : Byte) :
    (s.setScratchHi b).refused = s.refused := rfl
@[simp] theorem State.setScratchHi_busOut (s : State) (b : Byte) :
    (s.setScratchHi b).busOut = s.busOut := rfl
@[simp] theorem State.setScratchHi_owLog (s : State) (b : Byte) :
    (s.setScratchHi b).owLog = s.owLog := rfl
@[simp] theorem State.setScratchHi_owResult (s : State) (b : Byte) :
    (s.setScratchHi b).owResult = s.owResult := rfl
@[simp] theorem State.setScratchHi_phase (s : State) (b : Byte) :
    (s.setScratchHi b).phase = s.phase := rfl
@[simp] theorem State.setScratchHi_mainPos (s : State) (b : Byte) :
    (s.setScratchHi b).mainPos = s.mainPos := rfl
@[simp] theorem State.setScratchHi_pendingStores (s : State) (b : Byte) :
    (s.setScratchHi b).pendingStores = s.pendingStores := rfl
@[simp] theorem State.setScratchHi_env (s : State) (b : Byte) :
    (s.setScratchHi b).env = s.env := rfl

@[simp] theorem State.setOwTiming_map (s : State) (t : OwTiming) :
    (s.setOwTiming t).map = s.map := rfl
@[simp] theorem State.setOwTiming_writeState (s : State) (t : OwTiming) :
    (s.setOwTiming t).writeState = s.writeState := rfl
@[simp] theorem State.setOwTiming_cursor (s : State) (t : OwTiming) :
    (s.setOwTiming t).cursor = s.cursor := rfl
@[simp] theorem State.setOwTiming_bstate (s : State) (t : OwTiming) :
    (s.setOwTiming t).bstate = s.bstate := rfl
@[simp] theorem State.setOwTiming_bidx (s : State) (t : OwTiming) :
    (s.setOwTiming t).bidx = s.bidx := rfl
@[simp] theorem State.setOwTiming_owState (s : State) (t : OwTiming) :
    (s.setOwTiming t).owState = s.owState := rfl
@[simp] theorem State.setOwTiming_owTicks (s : State) (t : OwTiming) :
    (s.setOwTiming t).owTicks = s.owTicks := rfl
@[simp] theorem State.setOwTiming_owScratchLo (s : State) (t : OwTiming) :
    (s.setOwTiming t).owScratchLo = s.owScratchLo := rfl
@[simp] theorem State.setOwTiming_owScratchHi (s : State) (t : OwTiming) :
    (s.setOwTiming t).owScratchHi = s.owScratchHi := rfl
@[simp] theorem State.setOwTiming_owTiming (s : State) (t : OwTiming) :
    (s.setOwTiming t).owTiming = t := rfl
@[simp] theorem State.setOwTiming_owStage (s : State) (t : OwTiming) :
    (s.setOwTiming t).owStage = s.owStage := rfl
@[simp] theorem State.setOwTiming_owSending (s : State) (t : OwTiming) :
    (s.setOwTiming t).owSending = s.owSending := rfl
@[simp] theorem State.setOwTiming_busQueue (s : State) (t : OwTiming) :
    (s.setOwTiming t).busQueue = s.busQueue := rfl
@[simp] theorem State.setOwTiming_hostIn (s : State) (t : OwTiming) :
    (s.setOwTiming t).hostIn = s.hostIn := rfl
@[simp] theorem State.setOwTiming_hostOut (s : State) (t : OwTiming) :
    (s.setOwTiming t).hostOut = s.hostOut := rfl
@[simp] theorem State.setOwTiming_refused (s : State) (t : OwTiming) :
    (s.setOwTiming t).refused = s.refused := rfl
@[simp] theorem State.setOwTiming_busOut (s : State) (t : OwTiming) :
    (s.setOwTiming t).busOut = s.busOut := rfl
@[simp] theorem State.setOwTiming_owLog (s : State) (t : OwTiming) :
    (s.setOwTiming t).owLog = s.owLog := rfl
@[simp] theorem State.setOwTiming_owResult (s : State) (t : OwTiming) :
    (s.setOwTiming t).owResult = s.owResult := rfl
@[simp] theorem State.setOwTiming_phase (s : State) (t : OwTiming) :
    (s.setOwTiming t).phase = s.phase := rfl
@[simp] theorem State.setOwTiming_mainPos (s : State) (t : OwTiming) :
    (s.setOwTiming t).mainPos = s.mainPos := rfl
@[simp] theorem State.setOwTiming_pendingStores (s : State) (t : OwTiming) :
    (s.setOwTiming t).pendingStores = s.pendingStores := rfl
@[simp] theorem State.setOwTiming_env (s : State) (t : OwTiming) :
    (s.setOwTiming t).env = s.env := rfl

@[simp] theorem State.setStage_map (s : State) (st : Option TickStage) :
    (s.setStage st).map = s.map := rfl
@[simp] theorem State.setStage_writeState (s : State) (st : Option TickStage) :
    (s.setStage st).writeState = s.writeState := rfl
@[simp] theorem State.setStage_cursor (s : State) (st : Option TickStage) :
    (s.setStage st).cursor = s.cursor := rfl
@[simp] theorem State.setStage_bstate (s : State) (st : Option TickStage) :
    (s.setStage st).bstate = s.bstate := rfl
@[simp] theorem State.setStage_bidx (s : State) (st : Option TickStage) :
    (s.setStage st).bidx = s.bidx := rfl
@[simp] theorem State.setStage_owState (s : State) (st : Option TickStage) :
    (s.setStage st).owState = s.owState := rfl
@[simp] theorem State.setStage_owTicks (s : State) (st : Option TickStage) :
    (s.setStage st).owTicks = s.owTicks := rfl
@[simp] theorem State.setStage_owScratchLo (s : State) (st : Option TickStage) :
    (s.setStage st).owScratchLo = s.owScratchLo := rfl
@[simp] theorem State.setStage_owScratchHi (s : State) (st : Option TickStage) :
    (s.setStage st).owScratchHi = s.owScratchHi := rfl
@[simp] theorem State.setStage_owTiming (s : State) (st : Option TickStage) :
    (s.setStage st).owTiming = s.owTiming := rfl
@[simp] theorem State.setStage_owStage (s : State) (st : Option TickStage) :
    (s.setStage st).owStage = st := rfl
@[simp] theorem State.setStage_owSending (s : State) (st : Option TickStage) :
    (s.setStage st).owSending = s.owSending := rfl
@[simp] theorem State.setStage_busQueue (s : State) (st : Option TickStage) :
    (s.setStage st).busQueue = s.busQueue := rfl
@[simp] theorem State.setStage_hostIn (s : State) (st : Option TickStage) :
    (s.setStage st).hostIn = s.hostIn := rfl
@[simp] theorem State.setStage_hostOut (s : State) (st : Option TickStage) :
    (s.setStage st).hostOut = s.hostOut := rfl
@[simp] theorem State.setStage_refused (s : State) (st : Option TickStage) :
    (s.setStage st).refused = s.refused := rfl
@[simp] theorem State.setStage_busOut (s : State) (st : Option TickStage) :
    (s.setStage st).busOut = s.busOut := rfl
@[simp] theorem State.setStage_owLog (s : State) (st : Option TickStage) :
    (s.setStage st).owLog = s.owLog := rfl
@[simp] theorem State.setStage_owResult (s : State) (st : Option TickStage) :
    (s.setStage st).owResult = s.owResult := rfl
@[simp] theorem State.setStage_phase (s : State) (st : Option TickStage) :
    (s.setStage st).phase = s.phase := rfl
@[simp] theorem State.setStage_mainPos (s : State) (st : Option TickStage) :
    (s.setStage st).mainPos = s.mainPos := rfl
@[simp] theorem State.setStage_pendingStores (s : State) (st : Option TickStage) :
    (s.setStage st).pendingStores = s.pendingStores := rfl
@[simp] theorem State.setStage_env (s : State) (st : Option TickStage) :
    (s.setStage st).env = s.env := rfl

@[simp] theorem State.setSending_map (s : State) (v : Option Byte) :
    (s.setSending v).map = s.map := rfl
@[simp] theorem State.setSending_writeState (s : State) (v : Option Byte) :
    (s.setSending v).writeState = s.writeState := rfl
@[simp] theorem State.setSending_cursor (s : State) (v : Option Byte) :
    (s.setSending v).cursor = s.cursor := rfl
@[simp] theorem State.setSending_bstate (s : State) (v : Option Byte) :
    (s.setSending v).bstate = s.bstate := rfl
@[simp] theorem State.setSending_bidx (s : State) (v : Option Byte) :
    (s.setSending v).bidx = s.bidx := rfl
@[simp] theorem State.setSending_owState (s : State) (v : Option Byte) :
    (s.setSending v).owState = s.owState := rfl
@[simp] theorem State.setSending_owTicks (s : State) (v : Option Byte) :
    (s.setSending v).owTicks = s.owTicks := rfl
@[simp] theorem State.setSending_owScratchLo (s : State) (v : Option Byte) :
    (s.setSending v).owScratchLo = s.owScratchLo := rfl
@[simp] theorem State.setSending_owScratchHi (s : State) (v : Option Byte) :
    (s.setSending v).owScratchHi = s.owScratchHi := rfl
@[simp] theorem State.setSending_owTiming (s : State) (v : Option Byte) :
    (s.setSending v).owTiming = s.owTiming := rfl
@[simp] theorem State.setSending_owStage (s : State) (v : Option Byte) :
    (s.setSending v).owStage = s.owStage := rfl
@[simp] theorem State.setSending_owSending (s : State) (v : Option Byte) :
    (s.setSending v).owSending = v := rfl
@[simp] theorem State.setSending_busQueue (s : State) (v : Option Byte) :
    (s.setSending v).busQueue = s.busQueue := rfl
@[simp] theorem State.setSending_hostIn (s : State) (v : Option Byte) :
    (s.setSending v).hostIn = s.hostIn := rfl
@[simp] theorem State.setSending_hostOut (s : State) (v : Option Byte) :
    (s.setSending v).hostOut = s.hostOut := rfl
@[simp] theorem State.setSending_refused (s : State) (v : Option Byte) :
    (s.setSending v).refused = s.refused := rfl
@[simp] theorem State.setSending_busOut (s : State) (v : Option Byte) :
    (s.setSending v).busOut = s.busOut := rfl
@[simp] theorem State.setSending_owLog (s : State) (v : Option Byte) :
    (s.setSending v).owLog = s.owLog := rfl
@[simp] theorem State.setSending_owResult (s : State) (v : Option Byte) :
    (s.setSending v).owResult = s.owResult := rfl
@[simp] theorem State.setSending_phase (s : State) (v : Option Byte) :
    (s.setSending v).phase = s.phase := rfl
@[simp] theorem State.setSending_mainPos (s : State) (v : Option Byte) :
    (s.setSending v).mainPos = s.mainPos := rfl
@[simp] theorem State.setSending_pendingStores (s : State) (v : Option Byte) :
    (s.setSending v).pendingStores = s.pendingStores := rfl
@[simp] theorem State.setSending_env (s : State) (v : Option Byte) :
    (s.setSending v).env = s.env := rfl

@[simp] theorem State.setPhase_map (s : State) (p : Phase) :
    (s.setPhase p).map = s.map := rfl
@[simp] theorem State.setPhase_writeState (s : State) (p : Phase) :
    (s.setPhase p).writeState = s.writeState := rfl
@[simp] theorem State.setPhase_cursor (s : State) (p : Phase) :
    (s.setPhase p).cursor = s.cursor := rfl
@[simp] theorem State.setPhase_bstate (s : State) (p : Phase) :
    (s.setPhase p).bstate = s.bstate := rfl
@[simp] theorem State.setPhase_bidx (s : State) (p : Phase) :
    (s.setPhase p).bidx = s.bidx := rfl
@[simp] theorem State.setPhase_owState (s : State) (p : Phase) :
    (s.setPhase p).owState = s.owState := rfl
@[simp] theorem State.setPhase_owTicks (s : State) (p : Phase) :
    (s.setPhase p).owTicks = s.owTicks := rfl
@[simp] theorem State.setPhase_owScratchLo (s : State) (p : Phase) :
    (s.setPhase p).owScratchLo = s.owScratchLo := rfl
@[simp] theorem State.setPhase_owScratchHi (s : State) (p : Phase) :
    (s.setPhase p).owScratchHi = s.owScratchHi := rfl
@[simp] theorem State.setPhase_owTiming (s : State) (p : Phase) :
    (s.setPhase p).owTiming = s.owTiming := rfl
@[simp] theorem State.setPhase_owStage (s : State) (p : Phase) :
    (s.setPhase p).owStage = s.owStage := rfl
@[simp] theorem State.setPhase_owSending (s : State) (p : Phase) :
    (s.setPhase p).owSending = s.owSending := rfl
@[simp] theorem State.setPhase_busQueue (s : State) (p : Phase) :
    (s.setPhase p).busQueue = s.busQueue := rfl
@[simp] theorem State.setPhase_hostIn (s : State) (p : Phase) :
    (s.setPhase p).hostIn = s.hostIn := rfl
@[simp] theorem State.setPhase_hostOut (s : State) (p : Phase) :
    (s.setPhase p).hostOut = s.hostOut := rfl
@[simp] theorem State.setPhase_refused (s : State) (p : Phase) :
    (s.setPhase p).refused = s.refused := rfl
@[simp] theorem State.setPhase_busOut (s : State) (p : Phase) :
    (s.setPhase p).busOut = s.busOut := rfl
@[simp] theorem State.setPhase_owLog (s : State) (p : Phase) :
    (s.setPhase p).owLog = s.owLog := rfl
@[simp] theorem State.setPhase_owResult (s : State) (p : Phase) :
    (s.setPhase p).owResult = s.owResult := rfl
@[simp] theorem State.setPhase_phase (s : State) (p : Phase) :
    (s.setPhase p).phase = p := rfl
@[simp] theorem State.setPhase_mainPos (s : State) (p : Phase) :
    (s.setPhase p).mainPos = s.mainPos := rfl
@[simp] theorem State.setPhase_pendingStores (s : State) (p : Phase) :
    (s.setPhase p).pendingStores = s.pendingStores := rfl
@[simp] theorem State.setPhase_env (s : State) (p : Phase) :
    (s.setPhase p).env = s.env := rfl

@[simp] theorem State.setMainPos_map (s : State) (m : MainPos) :
    (s.setMainPos m).map = s.map := rfl
@[simp] theorem State.setMainPos_writeState (s : State) (m : MainPos) :
    (s.setMainPos m).writeState = s.writeState := rfl
@[simp] theorem State.setMainPos_cursor (s : State) (m : MainPos) :
    (s.setMainPos m).cursor = s.cursor := rfl
@[simp] theorem State.setMainPos_bstate (s : State) (m : MainPos) :
    (s.setMainPos m).bstate = s.bstate := rfl
@[simp] theorem State.setMainPos_bidx (s : State) (m : MainPos) :
    (s.setMainPos m).bidx = s.bidx := rfl
@[simp] theorem State.setMainPos_owState (s : State) (m : MainPos) :
    (s.setMainPos m).owState = s.owState := rfl
@[simp] theorem State.setMainPos_owTicks (s : State) (m : MainPos) :
    (s.setMainPos m).owTicks = s.owTicks := rfl
@[simp] theorem State.setMainPos_owScratchLo (s : State) (m : MainPos) :
    (s.setMainPos m).owScratchLo = s.owScratchLo := rfl
@[simp] theorem State.setMainPos_owScratchHi (s : State) (m : MainPos) :
    (s.setMainPos m).owScratchHi = s.owScratchHi := rfl
@[simp] theorem State.setMainPos_owTiming (s : State) (m : MainPos) :
    (s.setMainPos m).owTiming = s.owTiming := rfl
@[simp] theorem State.setMainPos_owStage (s : State) (m : MainPos) :
    (s.setMainPos m).owStage = s.owStage := rfl
@[simp] theorem State.setMainPos_owSending (s : State) (m : MainPos) :
    (s.setMainPos m).owSending = s.owSending := rfl
@[simp] theorem State.setMainPos_busQueue (s : State) (m : MainPos) :
    (s.setMainPos m).busQueue = s.busQueue := rfl
@[simp] theorem State.setMainPos_hostIn (s : State) (m : MainPos) :
    (s.setMainPos m).hostIn = s.hostIn := rfl
@[simp] theorem State.setMainPos_hostOut (s : State) (m : MainPos) :
    (s.setMainPos m).hostOut = s.hostOut := rfl
@[simp] theorem State.setMainPos_refused (s : State) (m : MainPos) :
    (s.setMainPos m).refused = s.refused := rfl
@[simp] theorem State.setMainPos_busOut (s : State) (m : MainPos) :
    (s.setMainPos m).busOut = s.busOut := rfl
@[simp] theorem State.setMainPos_owLog (s : State) (m : MainPos) :
    (s.setMainPos m).owLog = s.owLog := rfl
@[simp] theorem State.setMainPos_owResult (s : State) (m : MainPos) :
    (s.setMainPos m).owResult = s.owResult := rfl
@[simp] theorem State.setMainPos_phase (s : State) (m : MainPos) :
    (s.setMainPos m).phase = s.phase := rfl
@[simp] theorem State.setMainPos_mainPos (s : State) (m : MainPos) :
    (s.setMainPos m).mainPos = m := rfl
@[simp] theorem State.setMainPos_pendingStores (s : State) (m : MainPos) :
    (s.setMainPos m).pendingStores = s.pendingStores := rfl
@[simp] theorem State.setMainPos_env (s : State) (m : MainPos) :
    (s.setMainPos m).env = s.env := rfl

@[simp] theorem State.setPending_map (s : State) (l : List Store) :
    (s.setPending l).map = s.map := rfl
@[simp] theorem State.setPending_writeState (s : State) (l : List Store) :
    (s.setPending l).writeState = s.writeState := rfl
@[simp] theorem State.setPending_cursor (s : State) (l : List Store) :
    (s.setPending l).cursor = s.cursor := rfl
@[simp] theorem State.setPending_bstate (s : State) (l : List Store) :
    (s.setPending l).bstate = s.bstate := rfl
@[simp] theorem State.setPending_bidx (s : State) (l : List Store) :
    (s.setPending l).bidx = s.bidx := rfl
@[simp] theorem State.setPending_owState (s : State) (l : List Store) :
    (s.setPending l).owState = s.owState := rfl
@[simp] theorem State.setPending_owTicks (s : State) (l : List Store) :
    (s.setPending l).owTicks = s.owTicks := rfl
@[simp] theorem State.setPending_owScratchLo (s : State) (l : List Store) :
    (s.setPending l).owScratchLo = s.owScratchLo := rfl
@[simp] theorem State.setPending_owScratchHi (s : State) (l : List Store) :
    (s.setPending l).owScratchHi = s.owScratchHi := rfl
@[simp] theorem State.setPending_owTiming (s : State) (l : List Store) :
    (s.setPending l).owTiming = s.owTiming := rfl
@[simp] theorem State.setPending_owStage (s : State) (l : List Store) :
    (s.setPending l).owStage = s.owStage := rfl
@[simp] theorem State.setPending_owSending (s : State) (l : List Store) :
    (s.setPending l).owSending = s.owSending := rfl
@[simp] theorem State.setPending_busQueue (s : State) (l : List Store) :
    (s.setPending l).busQueue = s.busQueue := rfl
@[simp] theorem State.setPending_hostIn (s : State) (l : List Store) :
    (s.setPending l).hostIn = s.hostIn := rfl
@[simp] theorem State.setPending_hostOut (s : State) (l : List Store) :
    (s.setPending l).hostOut = s.hostOut := rfl
@[simp] theorem State.setPending_refused (s : State) (l : List Store) :
    (s.setPending l).refused = s.refused := rfl
@[simp] theorem State.setPending_busOut (s : State) (l : List Store) :
    (s.setPending l).busOut = s.busOut := rfl
@[simp] theorem State.setPending_owLog (s : State) (l : List Store) :
    (s.setPending l).owLog = s.owLog := rfl
@[simp] theorem State.setPending_owResult (s : State) (l : List Store) :
    (s.setPending l).owResult = s.owResult := rfl
@[simp] theorem State.setPending_phase (s : State) (l : List Store) :
    (s.setPending l).phase = s.phase := rfl
@[simp] theorem State.setPending_mainPos (s : State) (l : List Store) :
    (s.setPending l).mainPos = s.mainPos := rfl
@[simp] theorem State.setPending_pendingStores (s : State) (l : List Store) :
    (s.setPending l).pendingStores = l := rfl
@[simp] theorem State.setPending_env (s : State) (l : List Store) :
    (s.setPending l).env = s.env := rfl

@[simp] theorem State.setEnv_map (s : State) (e : Env) :
    (s.setEnv e).map = s.map := rfl
@[simp] theorem State.setEnv_writeState (s : State) (e : Env) :
    (s.setEnv e).writeState = s.writeState := rfl
@[simp] theorem State.setEnv_cursor (s : State) (e : Env) :
    (s.setEnv e).cursor = s.cursor := rfl
@[simp] theorem State.setEnv_bstate (s : State) (e : Env) :
    (s.setEnv e).bstate = s.bstate := rfl
@[simp] theorem State.setEnv_bidx (s : State) (e : Env) :
    (s.setEnv e).bidx = s.bidx := rfl
@[simp] theorem State.setEnv_owState (s : State) (e : Env) :
    (s.setEnv e).owState = s.owState := rfl
@[simp] theorem State.setEnv_owTicks (s : State) (e : Env) :
    (s.setEnv e).owTicks = s.owTicks := rfl
@[simp] theorem State.setEnv_owScratchLo (s : State) (e : Env) :
    (s.setEnv e).owScratchLo = s.owScratchLo := rfl
@[simp] theorem State.setEnv_owScratchHi (s : State) (e : Env) :
    (s.setEnv e).owScratchHi = s.owScratchHi := rfl
@[simp] theorem State.setEnv_owTiming (s : State) (e : Env) :
    (s.setEnv e).owTiming = s.owTiming := rfl
@[simp] theorem State.setEnv_owStage (s : State) (e : Env) :
    (s.setEnv e).owStage = s.owStage := rfl
@[simp] theorem State.setEnv_owSending (s : State) (e : Env) :
    (s.setEnv e).owSending = s.owSending := rfl
@[simp] theorem State.setEnv_busQueue (s : State) (e : Env) :
    (s.setEnv e).busQueue = s.busQueue := rfl
@[simp] theorem State.setEnv_hostIn (s : State) (e : Env) :
    (s.setEnv e).hostIn = s.hostIn := rfl
@[simp] theorem State.setEnv_hostOut (s : State) (e : Env) :
    (s.setEnv e).hostOut = s.hostOut := rfl
@[simp] theorem State.setEnv_refused (s : State) (e : Env) :
    (s.setEnv e).refused = s.refused := rfl
@[simp] theorem State.setEnv_busOut (s : State) (e : Env) :
    (s.setEnv e).busOut = s.busOut := rfl
@[simp] theorem State.setEnv_owLog (s : State) (e : Env) :
    (s.setEnv e).owLog = s.owLog := rfl
@[simp] theorem State.setEnv_owResult (s : State) (e : Env) :
    (s.setEnv e).owResult = s.owResult := rfl
@[simp] theorem State.setEnv_phase (s : State) (e : Env) :
    (s.setEnv e).phase = s.phase := rfl
@[simp] theorem State.setEnv_mainPos (s : State) (e : Env) :
    (s.setEnv e).mainPos = s.mainPos := rfl
@[simp] theorem State.setEnv_pendingStores (s : State) (e : Env) :
    (s.setEnv e).pendingStores = s.pendingStores := rfl
@[simp] theorem State.setEnv_env (s : State) (e : Env) :
    (s.setEnv e).env = e := rfl

@[simp] theorem State.setBusQueue_map (s : State) (q : List EventWord) :
    (s.setBusQueue q).map = s.map := rfl
@[simp] theorem State.setBusQueue_writeState (s : State) (q : List EventWord) :
    (s.setBusQueue q).writeState = s.writeState := rfl
@[simp] theorem State.setBusQueue_cursor (s : State) (q : List EventWord) :
    (s.setBusQueue q).cursor = s.cursor := rfl
@[simp] theorem State.setBusQueue_bstate (s : State) (q : List EventWord) :
    (s.setBusQueue q).bstate = s.bstate := rfl
@[simp] theorem State.setBusQueue_bidx (s : State) (q : List EventWord) :
    (s.setBusQueue q).bidx = s.bidx := rfl
@[simp] theorem State.setBusQueue_owState (s : State) (q : List EventWord) :
    (s.setBusQueue q).owState = s.owState := rfl
@[simp] theorem State.setBusQueue_owTicks (s : State) (q : List EventWord) :
    (s.setBusQueue q).owTicks = s.owTicks := rfl
@[simp] theorem State.setBusQueue_owScratchLo (s : State) (q : List EventWord) :
    (s.setBusQueue q).owScratchLo = s.owScratchLo := rfl
@[simp] theorem State.setBusQueue_owScratchHi (s : State) (q : List EventWord) :
    (s.setBusQueue q).owScratchHi = s.owScratchHi := rfl
@[simp] theorem State.setBusQueue_owTiming (s : State) (q : List EventWord) :
    (s.setBusQueue q).owTiming = s.owTiming := rfl
@[simp] theorem State.setBusQueue_owStage (s : State) (q : List EventWord) :
    (s.setBusQueue q).owStage = s.owStage := rfl
@[simp] theorem State.setBusQueue_owSending (s : State) (q : List EventWord) :
    (s.setBusQueue q).owSending = s.owSending := rfl
@[simp] theorem State.setBusQueue_busQueue (s : State) (q : List EventWord) :
    (s.setBusQueue q).busQueue = q := rfl
@[simp] theorem State.setBusQueue_hostIn (s : State) (q : List EventWord) :
    (s.setBusQueue q).hostIn = s.hostIn := rfl
@[simp] theorem State.setBusQueue_hostOut (s : State) (q : List EventWord) :
    (s.setBusQueue q).hostOut = s.hostOut := rfl
@[simp] theorem State.setBusQueue_refused (s : State) (q : List EventWord) :
    (s.setBusQueue q).refused = s.refused := rfl
@[simp] theorem State.setBusQueue_busOut (s : State) (q : List EventWord) :
    (s.setBusQueue q).busOut = s.busOut := rfl
@[simp] theorem State.setBusQueue_owLog (s : State) (q : List EventWord) :
    (s.setBusQueue q).owLog = s.owLog := rfl
@[simp] theorem State.setBusQueue_owResult (s : State) (q : List EventWord) :
    (s.setBusQueue q).owResult = s.owResult := rfl
@[simp] theorem State.setBusQueue_phase (s : State) (q : List EventWord) :
    (s.setBusQueue q).phase = s.phase := rfl
@[simp] theorem State.setBusQueue_mainPos (s : State) (q : List EventWord) :
    (s.setBusQueue q).mainPos = s.mainPos := rfl
@[simp] theorem State.setBusQueue_pendingStores (s : State) (q : List EventWord) :
    (s.setBusQueue q).pendingStores = s.pendingStores := rfl
@[simp] theorem State.setBusQueue_env (s : State) (q : List EventWord) :
    (s.setBusQueue q).env = s.env := rfl

@[simp] theorem State.setHostIn_map (s : State) (q : List Byte) :
    (s.setHostIn q).map = s.map := rfl
@[simp] theorem State.setHostIn_writeState (s : State) (q : List Byte) :
    (s.setHostIn q).writeState = s.writeState := rfl
@[simp] theorem State.setHostIn_cursor (s : State) (q : List Byte) :
    (s.setHostIn q).cursor = s.cursor := rfl
@[simp] theorem State.setHostIn_bstate (s : State) (q : List Byte) :
    (s.setHostIn q).bstate = s.bstate := rfl
@[simp] theorem State.setHostIn_bidx (s : State) (q : List Byte) :
    (s.setHostIn q).bidx = s.bidx := rfl
@[simp] theorem State.setHostIn_owState (s : State) (q : List Byte) :
    (s.setHostIn q).owState = s.owState := rfl
@[simp] theorem State.setHostIn_owTicks (s : State) (q : List Byte) :
    (s.setHostIn q).owTicks = s.owTicks := rfl
@[simp] theorem State.setHostIn_owScratchLo (s : State) (q : List Byte) :
    (s.setHostIn q).owScratchLo = s.owScratchLo := rfl
@[simp] theorem State.setHostIn_owScratchHi (s : State) (q : List Byte) :
    (s.setHostIn q).owScratchHi = s.owScratchHi := rfl
@[simp] theorem State.setHostIn_owTiming (s : State) (q : List Byte) :
    (s.setHostIn q).owTiming = s.owTiming := rfl
@[simp] theorem State.setHostIn_owStage (s : State) (q : List Byte) :
    (s.setHostIn q).owStage = s.owStage := rfl
@[simp] theorem State.setHostIn_owSending (s : State) (q : List Byte) :
    (s.setHostIn q).owSending = s.owSending := rfl
@[simp] theorem State.setHostIn_busQueue (s : State) (q : List Byte) :
    (s.setHostIn q).busQueue = s.busQueue := rfl
@[simp] theorem State.setHostIn_hostIn (s : State) (q : List Byte) :
    (s.setHostIn q).hostIn = q := rfl
@[simp] theorem State.setHostIn_hostOut (s : State) (q : List Byte) :
    (s.setHostIn q).hostOut = s.hostOut := rfl
@[simp] theorem State.setHostIn_refused (s : State) (q : List Byte) :
    (s.setHostIn q).refused = s.refused := rfl
@[simp] theorem State.setHostIn_busOut (s : State) (q : List Byte) :
    (s.setHostIn q).busOut = s.busOut := rfl
@[simp] theorem State.setHostIn_owLog (s : State) (q : List Byte) :
    (s.setHostIn q).owLog = s.owLog := rfl
@[simp] theorem State.setHostIn_owResult (s : State) (q : List Byte) :
    (s.setHostIn q).owResult = s.owResult := rfl
@[simp] theorem State.setHostIn_phase (s : State) (q : List Byte) :
    (s.setHostIn q).phase = s.phase := rfl
@[simp] theorem State.setHostIn_mainPos (s : State) (q : List Byte) :
    (s.setHostIn q).mainPos = s.mainPos := rfl
@[simp] theorem State.setHostIn_pendingStores (s : State) (q : List Byte) :
    (s.setHostIn q).pendingStores = s.pendingStores := rfl
@[simp] theorem State.setHostIn_env (s : State) (q : List Byte) :
    (s.setHostIn q).env = s.env := rfl

@[simp] theorem State.answerBus_map (s : State) (handled : Bool) (data : Option Byte) :
    (s.answerBus handled data).map = s.map := rfl
@[simp] theorem State.answerBus_writeState (s : State) (handled : Bool) (data : Option Byte) :
    (s.answerBus handled data).writeState = s.writeState := rfl
@[simp] theorem State.answerBus_cursor (s : State) (handled : Bool) (data : Option Byte) :
    (s.answerBus handled data).cursor = s.cursor := rfl
@[simp] theorem State.answerBus_bstate (s : State) (handled : Bool) (data : Option Byte) :
    (s.answerBus handled data).bstate = s.bstate := rfl
@[simp] theorem State.answerBus_bidx (s : State) (handled : Bool) (data : Option Byte) :
    (s.answerBus handled data).bidx = s.bidx := rfl
@[simp] theorem State.answerBus_owState (s : State) (handled : Bool) (data : Option Byte) :
    (s.answerBus handled data).owState = s.owState := rfl
@[simp] theorem State.answerBus_owTicks (s : State) (handled : Bool) (data : Option Byte) :
    (s.answerBus handled data).owTicks = s.owTicks := rfl
@[simp] theorem State.answerBus_owScratchLo (s : State) (handled : Bool) (data : Option Byte) :
    (s.answerBus handled data).owScratchLo = s.owScratchLo := rfl
@[simp] theorem State.answerBus_owScratchHi (s : State) (handled : Bool) (data : Option Byte) :
    (s.answerBus handled data).owScratchHi = s.owScratchHi := rfl
@[simp] theorem State.answerBus_owTiming (s : State) (handled : Bool) (data : Option Byte) :
    (s.answerBus handled data).owTiming = s.owTiming := rfl
@[simp] theorem State.answerBus_owStage (s : State) (handled : Bool) (data : Option Byte) :
    (s.answerBus handled data).owStage = s.owStage := rfl
@[simp] theorem State.answerBus_owSending (s : State) (handled : Bool) (data : Option Byte) :
    (s.answerBus handled data).owSending = s.owSending := rfl
@[simp] theorem State.answerBus_busQueue (s : State) (handled : Bool) (data : Option Byte) :
    (s.answerBus handled data).busQueue = s.busQueue := rfl
@[simp] theorem State.answerBus_hostIn (s : State) (handled : Bool) (data : Option Byte) :
    (s.answerBus handled data).hostIn = s.hostIn := rfl
@[simp] theorem State.answerBus_hostOut (s : State) (handled : Bool) (data : Option Byte) :
    (s.answerBus handled data).hostOut = s.hostOut := rfl
@[simp] theorem State.answerBus_refused (s : State) (handled : Bool) (data : Option Byte) :
    (s.answerBus handled data).refused = s.refused := rfl
@[simp] theorem State.answerBus_busOut (s : State) (handled : Bool) (data : Option Byte) :
    (s.answerBus handled data).busOut = s.busOut ++ [{ handled := handled, data := data }] := rfl
@[simp] theorem State.answerBus_owLog (s : State) (handled : Bool) (data : Option Byte) :
    (s.answerBus handled data).owLog = s.owLog := rfl
@[simp] theorem State.answerBus_owResult (s : State) (handled : Bool) (data : Option Byte) :
    (s.answerBus handled data).owResult = s.owResult := rfl
@[simp] theorem State.answerBus_phase (s : State) (handled : Bool) (data : Option Byte) :
    (s.answerBus handled data).phase = s.phase := rfl
@[simp] theorem State.answerBus_mainPos (s : State) (handled : Bool) (data : Option Byte) :
    (s.answerBus handled data).mainPos = s.mainPos := rfl
@[simp] theorem State.answerBus_pendingStores (s : State) (handled : Bool) (data : Option Byte) :
    (s.answerBus handled data).pendingStores = s.pendingStores := rfl
@[simp] theorem State.answerBus_env (s : State) (handled : Bool) (data : Option Byte) :
    (s.answerBus handled data).env = s.env := rfl

@[simp] theorem State.replyHost_map (s : State) (v : Byte) :
    (s.replyHost v).map = s.map := rfl
@[simp] theorem State.replyHost_writeState (s : State) (v : Byte) :
    (s.replyHost v).writeState = s.writeState := rfl
@[simp] theorem State.replyHost_cursor (s : State) (v : Byte) :
    (s.replyHost v).cursor = s.cursor := rfl
@[simp] theorem State.replyHost_bstate (s : State) (v : Byte) :
    (s.replyHost v).bstate = s.bstate := rfl
@[simp] theorem State.replyHost_bidx (s : State) (v : Byte) :
    (s.replyHost v).bidx = s.bidx := rfl
@[simp] theorem State.replyHost_owState (s : State) (v : Byte) :
    (s.replyHost v).owState = s.owState := rfl
@[simp] theorem State.replyHost_owTicks (s : State) (v : Byte) :
    (s.replyHost v).owTicks = s.owTicks := rfl
@[simp] theorem State.replyHost_owScratchLo (s : State) (v : Byte) :
    (s.replyHost v).owScratchLo = s.owScratchLo := rfl
@[simp] theorem State.replyHost_owScratchHi (s : State) (v : Byte) :
    (s.replyHost v).owScratchHi = s.owScratchHi := rfl
@[simp] theorem State.replyHost_owTiming (s : State) (v : Byte) :
    (s.replyHost v).owTiming = s.owTiming := rfl
@[simp] theorem State.replyHost_owStage (s : State) (v : Byte) :
    (s.replyHost v).owStage = s.owStage := rfl
@[simp] theorem State.replyHost_owSending (s : State) (v : Byte) :
    (s.replyHost v).owSending = s.owSending := rfl
@[simp] theorem State.replyHost_busQueue (s : State) (v : Byte) :
    (s.replyHost v).busQueue = s.busQueue := rfl
@[simp] theorem State.replyHost_hostIn (s : State) (v : Byte) :
    (s.replyHost v).hostIn = s.hostIn := rfl
@[simp] theorem State.replyHost_hostOut (s : State) (v : Byte) :
    (s.replyHost v).hostOut = s.hostOut ++ [v] := rfl
@[simp] theorem State.replyHost_refused (s : State) (v : Byte) :
    (s.replyHost v).refused = s.refused := rfl
@[simp] theorem State.replyHost_busOut (s : State) (v : Byte) :
    (s.replyHost v).busOut = s.busOut := rfl
@[simp] theorem State.replyHost_owLog (s : State) (v : Byte) :
    (s.replyHost v).owLog = s.owLog := rfl
@[simp] theorem State.replyHost_owResult (s : State) (v : Byte) :
    (s.replyHost v).owResult = s.owResult := rfl
@[simp] theorem State.replyHost_phase (s : State) (v : Byte) :
    (s.replyHost v).phase = s.phase := rfl
@[simp] theorem State.replyHost_mainPos (s : State) (v : Byte) :
    (s.replyHost v).mainPos = s.mainPos := rfl
@[simp] theorem State.replyHost_pendingStores (s : State) (v : Byte) :
    (s.replyHost v).pendingStores = s.pendingStores := rfl
@[simp] theorem State.replyHost_env (s : State) (v : Byte) :
    (s.replyHost v).env = s.env := rfl

@[simp] theorem State.markRefused_map (s : State) :
    (s.markRefused).map = s.map := rfl
@[simp] theorem State.markRefused_writeState (s : State) :
    (s.markRefused).writeState = s.writeState := rfl
@[simp] theorem State.markRefused_cursor (s : State) :
    (s.markRefused).cursor = s.cursor := rfl
@[simp] theorem State.markRefused_bstate (s : State) :
    (s.markRefused).bstate = s.bstate := rfl
@[simp] theorem State.markRefused_bidx (s : State) :
    (s.markRefused).bidx = s.bidx := rfl
@[simp] theorem State.markRefused_owState (s : State) :
    (s.markRefused).owState = s.owState := rfl
@[simp] theorem State.markRefused_owTicks (s : State) :
    (s.markRefused).owTicks = s.owTicks := rfl
@[simp] theorem State.markRefused_owScratchLo (s : State) :
    (s.markRefused).owScratchLo = s.owScratchLo := rfl
@[simp] theorem State.markRefused_owScratchHi (s : State) :
    (s.markRefused).owScratchHi = s.owScratchHi := rfl
@[simp] theorem State.markRefused_owTiming (s : State) :
    (s.markRefused).owTiming = s.owTiming := rfl
@[simp] theorem State.markRefused_owStage (s : State) :
    (s.markRefused).owStage = s.owStage := rfl
@[simp] theorem State.markRefused_owSending (s : State) :
    (s.markRefused).owSending = s.owSending := rfl
@[simp] theorem State.markRefused_busQueue (s : State) :
    (s.markRefused).busQueue = s.busQueue := rfl
@[simp] theorem State.markRefused_hostIn (s : State) :
    (s.markRefused).hostIn = s.hostIn := rfl
@[simp] theorem State.markRefused_hostOut (s : State) :
    (s.markRefused).hostOut = s.hostOut := rfl
@[simp] theorem State.markRefused_refused (s : State) :
    (s.markRefused).refused = true := rfl
@[simp] theorem State.markRefused_busOut (s : State) :
    (s.markRefused).busOut = s.busOut := rfl
@[simp] theorem State.markRefused_owLog (s : State) :
    (s.markRefused).owLog = s.owLog := rfl
@[simp] theorem State.markRefused_owResult (s : State) :
    (s.markRefused).owResult = s.owResult := rfl
@[simp] theorem State.markRefused_phase (s : State) :
    (s.markRefused).phase = s.phase := rfl
@[simp] theorem State.markRefused_mainPos (s : State) :
    (s.markRefused).mainPos = s.mainPos := rfl
@[simp] theorem State.markRefused_pendingStores (s : State) :
    (s.markRefused).pendingStores = s.pendingStores := rfl
@[simp] theorem State.markRefused_env (s : State) :
    (s.markRefused).env = s.env := rfl

@[simp] theorem State.arriveEvent_map (s : State) (w : EventWord) :
    (s.arriveEvent w).map = s.map := rfl
@[simp] theorem State.arriveEvent_writeState (s : State) (w : EventWord) :
    (s.arriveEvent w).writeState = s.writeState := rfl
@[simp] theorem State.arriveEvent_cursor (s : State) (w : EventWord) :
    (s.arriveEvent w).cursor = s.cursor := rfl
@[simp] theorem State.arriveEvent_bstate (s : State) (w : EventWord) :
    (s.arriveEvent w).bstate = s.bstate := rfl
@[simp] theorem State.arriveEvent_bidx (s : State) (w : EventWord) :
    (s.arriveEvent w).bidx = s.bidx := rfl
@[simp] theorem State.arriveEvent_owState (s : State) (w : EventWord) :
    (s.arriveEvent w).owState = s.owState := rfl
@[simp] theorem State.arriveEvent_owTicks (s : State) (w : EventWord) :
    (s.arriveEvent w).owTicks = s.owTicks := rfl
@[simp] theorem State.arriveEvent_owScratchLo (s : State) (w : EventWord) :
    (s.arriveEvent w).owScratchLo = s.owScratchLo := rfl
@[simp] theorem State.arriveEvent_owScratchHi (s : State) (w : EventWord) :
    (s.arriveEvent w).owScratchHi = s.owScratchHi := rfl
@[simp] theorem State.arriveEvent_owTiming (s : State) (w : EventWord) :
    (s.arriveEvent w).owTiming = s.owTiming := rfl
@[simp] theorem State.arriveEvent_owStage (s : State) (w : EventWord) :
    (s.arriveEvent w).owStage = s.owStage := rfl
@[simp] theorem State.arriveEvent_owSending (s : State) (w : EventWord) :
    (s.arriveEvent w).owSending = s.owSending := rfl
@[simp] theorem State.arriveEvent_busQueue (s : State) (w : EventWord) :
    (s.arriveEvent w).busQueue = s.busQueue ++ [w] := rfl
@[simp] theorem State.arriveEvent_hostIn (s : State) (w : EventWord) :
    (s.arriveEvent w).hostIn = s.hostIn := rfl
@[simp] theorem State.arriveEvent_hostOut (s : State) (w : EventWord) :
    (s.arriveEvent w).hostOut = s.hostOut := rfl
@[simp] theorem State.arriveEvent_refused (s : State) (w : EventWord) :
    (s.arriveEvent w).refused = (s.refused || EventWord.reserved w) := rfl
@[simp] theorem State.arriveEvent_busOut (s : State) (w : EventWord) :
    (s.arriveEvent w).busOut = s.busOut := rfl
@[simp] theorem State.arriveEvent_owLog (s : State) (w : EventWord) :
    (s.arriveEvent w).owLog = s.owLog := rfl
@[simp] theorem State.arriveEvent_owResult (s : State) (w : EventWord) :
    (s.arriveEvent w).owResult = s.owResult := rfl
@[simp] theorem State.arriveEvent_phase (s : State) (w : EventWord) :
    (s.arriveEvent w).phase = s.phase := rfl
@[simp] theorem State.arriveEvent_mainPos (s : State) (w : EventWord) :
    (s.arriveEvent w).mainPos = s.mainPos := rfl
@[simp] theorem State.arriveEvent_pendingStores (s : State) (w : EventWord) :
    (s.arriveEvent w).pendingStores = s.pendingStores := rfl
@[simp] theorem State.arriveEvent_env (s : State) (w : EventWord) :
    (s.arriveEvent w).env = s.env := rfl

@[simp] theorem State.logExchange_map (s : State) (x : Exchange) :
    (s.logExchange x).map = s.map := rfl
@[simp] theorem State.logExchange_writeState (s : State) (x : Exchange) :
    (s.logExchange x).writeState = s.writeState := rfl
@[simp] theorem State.logExchange_cursor (s : State) (x : Exchange) :
    (s.logExchange x).cursor = s.cursor := rfl
@[simp] theorem State.logExchange_bstate (s : State) (x : Exchange) :
    (s.logExchange x).bstate = s.bstate := rfl
@[simp] theorem State.logExchange_bidx (s : State) (x : Exchange) :
    (s.logExchange x).bidx = s.bidx := rfl
@[simp] theorem State.logExchange_owState (s : State) (x : Exchange) :
    (s.logExchange x).owState = s.owState := rfl
@[simp] theorem State.logExchange_owTicks (s : State) (x : Exchange) :
    (s.logExchange x).owTicks = s.owTicks := rfl
@[simp] theorem State.logExchange_owScratchLo (s : State) (x : Exchange) :
    (s.logExchange x).owScratchLo = s.owScratchLo := rfl
@[simp] theorem State.logExchange_owScratchHi (s : State) (x : Exchange) :
    (s.logExchange x).owScratchHi = s.owScratchHi := rfl
@[simp] theorem State.logExchange_owTiming (s : State) (x : Exchange) :
    (s.logExchange x).owTiming = s.owTiming := rfl
@[simp] theorem State.logExchange_owStage (s : State) (x : Exchange) :
    (s.logExchange x).owStage = s.owStage := rfl
@[simp] theorem State.logExchange_owSending (s : State) (x : Exchange) :
    (s.logExchange x).owSending = s.owSending := rfl
@[simp] theorem State.logExchange_busQueue (s : State) (x : Exchange) :
    (s.logExchange x).busQueue = s.busQueue := rfl
@[simp] theorem State.logExchange_hostIn (s : State) (x : Exchange) :
    (s.logExchange x).hostIn = s.hostIn := rfl
@[simp] theorem State.logExchange_hostOut (s : State) (x : Exchange) :
    (s.logExchange x).hostOut = s.hostOut := rfl
@[simp] theorem State.logExchange_refused (s : State) (x : Exchange) :
    (s.logExchange x).refused = s.refused := rfl
@[simp] theorem State.logExchange_busOut (s : State) (x : Exchange) :
    (s.logExchange x).busOut = s.busOut := rfl
@[simp] theorem State.logExchange_owLog (s : State) (x : Exchange) :
    (s.logExchange x).owLog = s.owLog ++ [x] := rfl
@[simp] theorem State.logExchange_owResult (s : State) (x : Exchange) :
    (s.logExchange x).owResult = s.owResult := rfl
@[simp] theorem State.logExchange_phase (s : State) (x : Exchange) :
    (s.logExchange x).phase = s.phase := rfl
@[simp] theorem State.logExchange_mainPos (s : State) (x : Exchange) :
    (s.logExchange x).mainPos = s.mainPos := rfl
@[simp] theorem State.logExchange_pendingStores (s : State) (x : Exchange) :
    (s.logExchange x).pendingStores = s.pendingStores := rfl
@[simp] theorem State.logExchange_env (s : State) (x : Exchange) :
    (s.logExchange x).env = s.env := rfl

@[simp] theorem State.setLineResult_map (s : State) (r : LineResult) :
    (s.setLineResult r).map = s.map := rfl
@[simp] theorem State.setLineResult_writeState (s : State) (r : LineResult) :
    (s.setLineResult r).writeState = s.writeState := rfl
@[simp] theorem State.setLineResult_cursor (s : State) (r : LineResult) :
    (s.setLineResult r).cursor = s.cursor := rfl
@[simp] theorem State.setLineResult_bstate (s : State) (r : LineResult) :
    (s.setLineResult r).bstate = s.bstate := rfl
@[simp] theorem State.setLineResult_bidx (s : State) (r : LineResult) :
    (s.setLineResult r).bidx = s.bidx := rfl
@[simp] theorem State.setLineResult_owState (s : State) (r : LineResult) :
    (s.setLineResult r).owState = s.owState := rfl
@[simp] theorem State.setLineResult_owTicks (s : State) (r : LineResult) :
    (s.setLineResult r).owTicks = s.owTicks := rfl
@[simp] theorem State.setLineResult_owScratchLo (s : State) (r : LineResult) :
    (s.setLineResult r).owScratchLo = s.owScratchLo := rfl
@[simp] theorem State.setLineResult_owScratchHi (s : State) (r : LineResult) :
    (s.setLineResult r).owScratchHi = s.owScratchHi := rfl
@[simp] theorem State.setLineResult_owTiming (s : State) (r : LineResult) :
    (s.setLineResult r).owTiming = s.owTiming := rfl
@[simp] theorem State.setLineResult_owStage (s : State) (r : LineResult) :
    (s.setLineResult r).owStage = s.owStage := rfl
@[simp] theorem State.setLineResult_owSending (s : State) (r : LineResult) :
    (s.setLineResult r).owSending = s.owSending := rfl
@[simp] theorem State.setLineResult_busQueue (s : State) (r : LineResult) :
    (s.setLineResult r).busQueue = s.busQueue := rfl
@[simp] theorem State.setLineResult_hostIn (s : State) (r : LineResult) :
    (s.setLineResult r).hostIn = s.hostIn := rfl
@[simp] theorem State.setLineResult_hostOut (s : State) (r : LineResult) :
    (s.setLineResult r).hostOut = s.hostOut := rfl
@[simp] theorem State.setLineResult_refused (s : State) (r : LineResult) :
    (s.setLineResult r).refused = s.refused := rfl
@[simp] theorem State.setLineResult_busOut (s : State) (r : LineResult) :
    (s.setLineResult r).busOut = s.busOut := rfl
@[simp] theorem State.setLineResult_owLog (s : State) (r : LineResult) :
    (s.setLineResult r).owLog = s.owLog := rfl
@[simp] theorem State.setLineResult_owResult (s : State) (r : LineResult) :
    (s.setLineResult r).owResult = r := rfl
@[simp] theorem State.setLineResult_phase (s : State) (r : LineResult) :
    (s.setLineResult r).phase = s.phase := rfl
@[simp] theorem State.setLineResult_mainPos (s : State) (r : LineResult) :
    (s.setLineResult r).mainPos = s.mainPos := rfl
@[simp] theorem State.setLineResult_pendingStores (s : State) (r : LineResult) :
    (s.setLineResult r).pendingStores = s.pendingStores := rfl
@[simp] theorem State.setLineResult_env (s : State) (r : LineResult) :
    (s.setLineResult r).env = s.env := rfl

/-! ## What each update does to a read of the map -/

@[simp] theorem State.setWriteState_mapAt (s : State) (w : WriteState) (j : Byte) :
    (s.setWriteState w).mapAt j = s.mapAt j := rfl
@[simp] theorem State.setCursor_mapAt (s : State) (c : Byte) (j : Byte) :
    (s.setCursor c).mapAt j = s.mapAt j := rfl
@[simp] theorem State.setBstate_mapAt (s : State) (b : BridgeState) (j : Byte) :
    (s.setBstate b).mapAt j = s.mapAt j := rfl
@[simp] theorem State.setBidx_mapAt (s : State) (b : Byte) (j : Byte) :
    (s.setBidx b).mapAt j = s.mapAt j := rfl
@[simp] theorem State.setOwState_mapAt (s : State) (o : OwState) (j : Byte) :
    (s.setOwState o).mapAt j = s.mapAt j := rfl
@[simp] theorem State.setOwTicks_mapAt (s : State) (n : Nat) (j : Byte) :
    (s.setOwTicks n).mapAt j = s.mapAt j := rfl
@[simp] theorem State.setScratchLo_mapAt (s : State) (b : Byte) (j : Byte) :
    (s.setScratchLo b).mapAt j = s.mapAt j := rfl
@[simp] theorem State.setScratchHi_mapAt (s : State) (b : Byte) (j : Byte) :
    (s.setScratchHi b).mapAt j = s.mapAt j := rfl
@[simp] theorem State.setOwTiming_mapAt (s : State) (t : OwTiming) (j : Byte) :
    (s.setOwTiming t).mapAt j = s.mapAt j := rfl
@[simp] theorem State.setStage_mapAt (s : State) (st : Option TickStage) (j : Byte) :
    (s.setStage st).mapAt j = s.mapAt j := rfl
@[simp] theorem State.setSending_mapAt (s : State) (v : Option Byte) (j : Byte) :
    (s.setSending v).mapAt j = s.mapAt j := rfl
@[simp] theorem State.setPhase_mapAt (s : State) (p : Phase) (j : Byte) :
    (s.setPhase p).mapAt j = s.mapAt j := rfl
@[simp] theorem State.setMainPos_mapAt (s : State) (m : MainPos) (j : Byte) :
    (s.setMainPos m).mapAt j = s.mapAt j := rfl
@[simp] theorem State.setPending_mapAt (s : State) (l : List Store) (j : Byte) :
    (s.setPending l).mapAt j = s.mapAt j := rfl
@[simp] theorem State.setEnv_mapAt (s : State) (e : Env) (j : Byte) :
    (s.setEnv e).mapAt j = s.mapAt j := rfl
@[simp] theorem State.setBusQueue_mapAt (s : State) (q : List EventWord) (j : Byte) :
    (s.setBusQueue q).mapAt j = s.mapAt j := rfl
@[simp] theorem State.setHostIn_mapAt (s : State) (q : List Byte) (j : Byte) :
    (s.setHostIn q).mapAt j = s.mapAt j := rfl
@[simp] theorem State.answerBus_mapAt (s : State) (handled : Bool) (data : Option Byte) (j : Byte) :
    (s.answerBus handled data).mapAt j = s.mapAt j := rfl
@[simp] theorem State.replyHost_mapAt (s : State) (v : Byte) (j : Byte) :
    (s.replyHost v).mapAt j = s.mapAt j := rfl
@[simp] theorem State.markRefused_mapAt (s : State) (j : Byte) :
    (s.markRefused).mapAt j = s.mapAt j := rfl
@[simp] theorem State.arriveEvent_mapAt (s : State) (w : EventWord) (j : Byte) :
    (s.arriveEvent w).mapAt j = s.mapAt j := rfl
@[simp] theorem State.logExchange_mapAt (s : State) (x : Exchange) (j : Byte) :
    (s.logExchange x).mapAt j = s.mapAt j := rfl
@[simp] theorem State.setLineResult_mapAt (s : State) (r : LineResult) (j : Byte) :
    (s.setLineResult r).mapAt j = s.mapAt j := rfl

end Sys2Proof.Machine
end

