-- ==== Sys2Proof/Laws/Ops.lean ====
section
/-! SUPPORT. One lemma per shared operation: reads of the map after a write, the flags, the cursor's advance, the draws of the
environment, and the bytes of the thermometer's result. -/

namespace Sys2Proof.Machine

/-! ## The map through an 8-bit index -/

@[simp] theorem State.mapAt_setMap_self (s : State) (i v : Byte) : (s.setMap i v).mapAt i = v :=
  Memory.read_write_self _ _ _

theorem State.mapAt_setMap_ne (s : State) {i j : Byte} (v : Byte) (h : j ≠ i) : (s.setMap i v).mapAt j = s.mapAt j :=
  Memory.read_write_ne _ _ fun e => h (BitVec.eq_of_toNat_eq e)

theorem State.mapAt_setMap (s : State) (i j v : Byte) :
    (s.setMap i v).mapAt j = if j = i then v else s.mapAt j := by
  by_cases h : j = i
  · simp [h]
  · simp [h, State.mapAt_setMap_ne]

theorem Memory.read_write (m : Memory) (a b : Nat) (v : Byte) :
    (m.write a v).read b = if b = a then v else m.read b := by
  by_cases h : b = a
  · simp [h, Memory.read_write_self]
  · simp [h, Memory.read_write_ne]

theorem setMap_wf (s : State) (i v : Byte) (h : s.map.wf = true) : (s.setMap i v).map.wf = true :=
  Memory.wf_write _ _ _ h (by have := i.isLt; omega)

/-! ## Flags -/

theorem State.enabled_iff (s : State) : s.enabled = true ↔ s.mapAt 241#8 ≠ 0#8 := by simp [State.enabled]

theorem State.enabled_eq_false_iff (s : State) : s.enabled = false ↔ s.mapAt 241#8 = 0#8 := by simp [State.enabled]

theorem State.hook_iff (s : State) : s.hook = true ↔ s.cursor = s.mapAt 242#8 ∧ s.mapAt 244#8 ≠ 0#8 := by
  simp [State.hook, State.capturePending]

theorem State.hook_of_no_capture (s : State) (h : s.mapAt 244#8 = 0#8) : s.hook = false := by
  simp [State.hook, State.capturePending, h]

@[simp] theorem State.busMode_enabled (s : State) : s.busMode.enabled = s.enabled := rfl

@[simp] theorem State.busMode_writeState (s : State) : s.busMode.writeState = s.writeState := rfl

@[simp] theorem State.busMode_hook (s : State) : s.busMode.hook = s.hook := rfl

/-! ## Operands -/

/-- The advance of the cursor as a number (R125). -/
theorem adv_toNat (c : Byte) : (adv c).toNat = min (c.toNat + 1) 255 := by
  by_cases h : c = 255#8
  · simp [adv, h]
  · have hn : c.toNat ≠ 255 := fun e => h (BitVec.eq_of_toNat_eq (by simpa using e))
    have := c.isLt
    simp only [adv, if_neg h, BitVec.toNat_add, BitVec.toNat_ofNat]
    omega

/-- The two bytes of a 16-bit pattern join to it again (R103). -/
theorem joinBytes_high_low (t : Half) : joinBytes (highByte t) (lowByte t) = t := by
  unfold joinBytes highByte lowByte
  ext i hi
  simp only [BitVec.getElem_append, BitVec.getElem_extractLsb']
  split
  · simp [BitVec.getLsbD_eq_getElem, hi]
  · rw [show 8 + (i - 8) = i by omega]
    simp [BitVec.getLsbD_eq_getElem, hi]

/-- A bit put into a place that was 0 reads back, and the other places are kept. -/
theorem putBit_getLsbD (r : Byte) (i j : Nat) (x : Bool) (hi : i < 8) (hr : r.getLsbD i = false) :
    (putBit r i x).getLsbD j = if j = i then x else r.getLsbD j := by
  cases x
  · by_cases h : j = i <;> simp [putBit, h, hr]
  · by_cases h : j = i
    · simp [putBit, h, hi]
    · have : ¬ (j < 8 ∧ ¬ j < i ∧ j - i = 0) := by omega
      by_cases hj : j < 8
      · by_cases hji : j < i
        · simp [putBit, h, hji]
        · have : ¬ j - i = 0 := by omega
          simp [putBit, h, BitVec.getLsbD_one, this]
      · simp [putBit, h, BitVec.getLsbD_of_ge _ _ (Nat.not_lt.mp hj)]

/-- The bits of a byte on the line, bit 0 first (R101). -/
theorem bitsOf_eq (v : Byte) : bitsOf v = (List.range 8).map fun i => v.getLsbD i := rfl

/-! ## Draws -/

/-- A scripted echo is the one drawn. -/
theorem Env.drawEcho_script (e : Env) (b : Byte) (rest : List Byte) (h : e.echoes = b :: rest) :
    e.drawEcho = (b, { e with echoes := rest }) := by simp [Env.drawEcho, h]

/-- Drawing an echo uses nothing of the environment but the echoes and the counter. -/
theorem Env.drawEcho_env (e : Env) :
    e.drawEcho.2 = { e with echoes := e.drawEcho.2.echoes, drawn := e.drawEcho.2.drawn } := by
  unfold Env.drawEcho
  split <;> rfl

theorem Env.drawTurn_script (e : Env) (t : Turn) (rest : List Turn) (h : e.turns = t :: rest) :
    e.drawTurn = (t, { e with turns := rest }) := by simp [Env.drawTurn, h]

theorem Env.drawTemp_script (e : Env) (t : Half) (rest : List Half) (h : e.temps = t :: rest) :
    e.drawTemp = (t, { e with temps := rest }) := by simp [Env.drawTemp, h]

/-- A free draw of the schedule is never a direct call: a call is the head of the given schedule (log 14). -/
theorem Env.drawTurn_call (e : Env) (c : LineCall) (h : e.drawTurn.1 = .call c) : ∃ rest, e.turns = .call c :: rest := by
  unfold Env.drawTurn at h
  split at h
  · next t rest ht => exact ⟨rest, by simpa [ht] using h⟩
  · exact absurd h (by simp)

/-! ## The stores of NTC -/

theorem onceEach_cells_nodup (l : List NtcWrite) : ((onceEach l).map NtcWrite.cell).Nodup := by
  induction l with
  | nil => simp [onceEach]
  | cons w rest ih =>
    simp only [onceEach, List.map_cons, List.nodup_cons]
    refine ⟨?_, List.Nodup.sublist ((List.filter_sublist).map _) ih⟩
    simp only [List.mem_map, List.mem_filter, not_exists, not_and]
    rintro u ⟨-, hu⟩ he
    simp [he] at hu

theorem ntcStore_index (w : NtcWrite) : (ntcStore w).index.toNat = 202 + w.cell.val := by
  have := w.cell.isLt
  simp only [ntcStore, BitVec.toNat_ofNat]
  omega

/-- What one `NTC` iteration begins: stores to 202–207, at most one to each (R251, U13). -/
theorem ntcStores_spec (l : List NtcWrite) :
    (∀ st ∈ (onceEach l).map ntcStore, 202 ≤ st.index.toNat ∧ st.index.toNat ≤ 207) ∧
      (((onceEach l).map ntcStore).map Store.index).Nodup := by
  constructor
  · intro st hst
    obtain ⟨w, -, rfl⟩ := List.mem_map.mp hst
    have := w.cell.isLt
    rw [ntcStore_index]
    omega
  · have key : ((onceEach l).map ntcStore).map Store.index =
        ((onceEach l).map NtcWrite.cell).map fun c => BitVec.ofNat 8 (202 + c.val) := by
      simp [List.map_map, Function.comp_def, ntcStore]
    rw [key]
    refine (onceEach_cells_nodup l).map fun a b hab => ?_
    have h := congrArg BitVec.toNat hab
    have := a.isLt
    have := b.isLt
    simp only [BitVec.toNat_ofNat] at h
    exact Fin.ext (by omega)

end Sys2Proof.Machine
end

