-- ==== Sys2Proof/Laws/BusSlave.lean ====
section
/-! SUPPORT. Spec lemmas of the bus event step and of the host byte step: which rule each state takes, each rule's effect as one record,
and what every event can change. -/

namespace Sys2Proof.Machine

/-! ## Which rule an event takes (R121, R122, R132, R138) -/

theorem busEvent_disabled (p : Params) (e : BusEvent) (s : State) (h : s.mapAt 241#8 = 0#8) :
    busEvent p e s = { s with busOut := s.busOut ++ [⟨false, none⟩] } := by
  simp only [busEvent, (State.enabled_eq_false_iff s).mpr h]
  rfl

theorem busEvent_addr (p : Params) (b : Byte) (s : State) (h : s.mapAt 241#8 ≠ 0#8) :
    busEvent p (.addr b) s = addrPhase p b s := by rw [busEvent, if_pos ((State.enabled_iff s).mpr h)]

theorem busEvent_wdata (p : Params) (b : Byte) (s : State) (h : s.mapAt 241#8 ≠ 0#8) :
    busEvent p (.wdata b) s = dataPhase p b s := by rw [busEvent, if_pos ((State.enabled_iff s).mpr h)]

theorem busEvent_rreq (p : Params) (s : State) (h : s.mapAt 241#8 ≠ 0#8) :
    busEvent p .rreq s = readSide p s := by rw [busEvent, if_pos ((State.enabled_iff s).mpr h)]

theorem readSide_mirror (p : Params) (s : State) (h : ¬ (s.cursor = s.mapAt 242#8 ∧ s.mapAt 244#8 ≠ 0#8)) :
    readSide p s = mirrorRead s := by rw [readSide, if_neg fun hk => h ((State.hook_iff s).mp hk)]

theorem readSide_hook (p : Params) (s : State) (h : s.cursor = s.mapAt 242#8 ∧ s.mapAt 244#8 ≠ 0#8) :
    readSide p s = fireHook p s := by rw [readSide, if_pos ((State.hook_iff s).mpr h)]

/-! ## The frame of every event (R60, R246) -/

/-- Two states agree but for what a bus event may write: the map, the decoder state, the cursor and the reports. -/
theorem busEvent_frame (p : Params) (e : BusEvent) (s : State) :
    busEvent p e s =
      { s with
        map := (busEvent p e s).map, writeState := (busEvent p e s).writeState
        cursor := (busEvent p e s).cursor, busOut := (busEvent p e s).busOut } := by
  unfold busEvent
  split
  · cases e with
    | addr b => dsimp only; unfold addrPhase; split <;> rfl
    | wdata b => dsimp only; unfold dataPhase; split <;> first | rfl | (split <;> rfl)
    | rreq =>
      dsimp only
      unfold readSide
      split
      · unfold fireHook; split <;> rfl
      · rfl
  · rfl

/-- The cells a bus event can change (R60): the one at the cursor, the capture and the status. -/
theorem busEvent_cells (p : Params) (e : BusEvent) (s : State) (a : Nat) (hc : a ≠ s.cursor.toNat) (h2 : a ≠ 242)
    (h3 : a ≠ 243) (h4 : a ≠ 244) (h5 : a ≠ 252) : (busEvent p e s).map.read a = s.map.read a := by
  unfold busEvent
  split
  · cases e with
    | addr b =>
      dsimp only; unfold addrPhase; split <;> simp [startCommand, loadCursor, State.setStatus, Memory.read_write, *]
    | wdata b =>
      dsimp only; unfold dataPhase
      split
      · simp [mirrorWrite, Memory.read_write, hc]
      · simp [mirrorWrite, Memory.read_write, hc]
      · split <;> simp [acceptSub, rejectSub, State.setStatus, Memory.read_write, h5]
      · simp [captureTarget, State.setStatus, Memory.read_write, h2, h5]
      · simp [captureHi, State.setStatus, Memory.read_write, h3, h5]
      · simp [captureLo, State.setStatus, Memory.read_write, h4, h5]
    | rreq =>
      dsimp only
      unfold readSide
      split
      · unfold fireHook
        split <;> simp [consumeCapture, mirrorRead, State.setStatus, Memory.read_write, h4, h5]
      · simp [mirrorRead]
  · simp [notHandled]

/-- A disabled event changes no cell. -/
theorem busEvent_disabled_map (p : Params) (e : BusEvent) (s : State) (h : s.mapAt 241#8 = 0#8) :
    (busEvent p e s).map = s.map := by rw [busEvent_disabled p e s h]

/-- A bus event keeps the map's canonical form. -/
theorem busEvent_wf (p : Params) (e : BusEvent) (s : State) (h : s.map.wf = true) : (busEvent p e s).map.wf = true := by
  unfold busEvent
  split
  · cases e with
    | addr b =>
      dsimp only; unfold addrPhase
      split
      · exact setMap_wf s 252#8 _ h
      · exact h
    | wdata b =>
      dsimp only; unfold dataPhase
      split
      · exact setMap_wf s _ _ h
      · exact setMap_wf s _ _ h
      · split
        · exact setMap_wf s _ _ h
        · exact h
      · exact setMap_wf (s.setMap 242#8 b) 252#8 _ (setMap_wf s _ _ h)
      · exact setMap_wf (s.setMap 243#8 b) 252#8 _ (setMap_wf s _ _ h)
      · exact setMap_wf (s.setMap 244#8 b) 252#8 _ (setMap_wf s _ _ h)
    | rreq =>
      dsimp only
      unfold readSide
      split
      · unfold fireHook
        split <;> exact setMap_wf (s.setMap 244#8 0#8) 252#8 _ (setMap_wf s _ _ h)
      · exact h
  · exact h

/-! ## The host port -/

/-- What a host byte can change: the bridge's own state, the reply stream, and, in `AwaitValue`, the cell at the held index. -/
theorem bridgeByte_frame (p : Params) (b : Byte) (s : State) :
    bridgeByte p b s =
      { s with
        map := (bridgeByte p b s).map, bstate := (bridgeByte p b s).bstate
        bidx := (bridgeByte p b s).bidx, hostOut := (bridgeByte p b s).hostOut } := by
  unfold bridgeByte
  split
  · unfold leadByte; split
    · rfl
    · split <;> rfl
  · rfl
  · rfl
  · rfl

theorem bridgeByte_map_of_ne (p : Params) (b : Byte) (s : State) (h : s.bstate ≠ .awaitValue) :
    (bridgeByte p b s).map = s.map := by
  unfold bridgeByte
  split
  · unfold leadByte; split
    · rfl
    · split <;> rfl
  · rfl
  · rfl
  · exact absurd ‹_› h

theorem bridgeByte_map_awaitValue (p : Params) (b : Byte) (s : State) (h : s.bstate = .awaitValue) :
    (bridgeByte p b s).map = s.map.write s.bidx.toNat b := by simp [bridgeByte, h, storeCell]

theorem bridgeByte_cells (p : Params) (b : Byte) (s : State) (a : Nat) (h : a ≠ s.bidx.toNat) :
    (bridgeByte p b s).map.read a = s.map.read a := by
  by_cases hb : s.bstate = .awaitValue
  · rw [bridgeByte_map_awaitValue p b s hb, Memory.read_write_ne _ _ h]
  · rw [bridgeByte_map_of_ne p b s hb]

theorem bridgeByte_wf (p : Params) (b : Byte) (s : State) (h : s.map.wf = true) : (bridgeByte p b s).map.wf = true := by
  by_cases hb : s.bstate = .awaitValue
  · rw [bridgeByte_map_awaitValue p b s hb]; exact setMap_wf s _ _ h
  · rw [bridgeByte_map_of_ne p b s hb]; exact h

end Sys2Proof.Machine
end

