-- ==== Sys2Proof/Laws/Decode.lean ====
section
/-! SUPPORT. The fields of an event word, and the row an event word of each kind decodes to (30_encoding.md R90, R97). -/

namespace Sys2Proof

theorem kind_eventWord (k : BitVec 2) (b : Byte) : EventWord.kind (eventWord k b) = k := by
  revert k b
  decide +kernel

theorem byte_eventWord (k : BitVec 2) (b : Byte) : EventWord.byte (eventWord k b) = b := by
  revert k b
  decide +kernel

/-- An event word is its two fields. -/
theorem eventWord_kind_byte (w : EventWord) : eventWord (EventWord.kind w) (EventWord.byte w) = w := by
  revert w
  decide +kernel

theorem kind_cases (k : BitVec 2) : k = 0#2 ∨ k = 1#2 ∨ k = 2#2 ∨ k = 3#2 := by
  revert k
  decide

theorem decodeBus_addr (p : Params) (m : BusMode) (b : Byte) :
    decodeBus p m (eventWord 0#2 b) = selectEvent p m (.addr b) := by
  rw [decodeBus, kind_eventWord, byte_eventWord]
  rfl

theorem decodeBus_wdata (p : Params) (m : BusMode) (b : Byte) :
    decodeBus p m (eventWord 1#2 b) = selectEvent p m (.wdata b) := by
  rw [decodeBus, kind_eventWord, byte_eventWord]
  rfl

theorem decodeBus_rreq (p : Params) (m : BusMode) (b : Byte) :
    decodeBus p m (eventWord 2#2 b) = if b = 0#8 then selectEvent p m .rreq else .busReservedRreq b := by
  rw [decodeBus, kind_eventWord, byte_eventWord]
  rfl

theorem decodeBus_reserved (p : Params) (m : BusMode) (b : Byte) :
    decodeBus p m (eventWord 3#2 b) = .busReserved b := by
  rw [decodeBus, kind_eventWord, byte_eventWord]
  rfl

/-- A reserved word by its number (R97). -/
theorem reserved_iff (w : EventWord) :
    EventWord.reserved w = true ↔ 768 ≤ w.toNat ∨ 512 < w.toNat ∧ w.toNat < 768 := by
  revert w
  decide +kernel

/-- The word of an event is not reserved. -/
theorem reserved_word (e : BusEvent) : EventWord.reserved e.word = false := by
  cases e <;> simp [EventWord.reserved, BusEvent.word, kind_eventWord, byte_eventWord]

/-- A word that is not reserved spells an event (R90). -/
theorem word_of_not_reserved (w : EventWord) (h : EventWord.reserved w = false) : ∃ e : BusEvent, w = e.word := by
  rw [← eventWord_kind_byte w] at h ⊢
  generalize EventWord.kind w = k at h
  generalize EventWord.byte w = b at h
  obtain rfl | rfl | rfl | rfl := kind_cases k
  · exact ⟨.addr b, rfl⟩
  · exact ⟨.wdata b, rfl⟩
  · obtain rfl : b = 0#8 := by simpa [EventWord.reserved, kind_eventWord, byte_eventWord] using h
    exact ⟨.rreq, rfl⟩
  · simp [EventWord.reserved, kind_eventWord] at h

/-- The word of an event decodes to the row the modes select for the event (R105, R138). -/
theorem decodeBus_word (p : Params) (m : BusMode) (e : BusEvent) : decodeBus p m e.word = selectEvent p m e := by
  cases e with
  | addr b => exact decodeBus_addr p m b
  | wdata b => exact decodeBus_wdata p m b
  | rreq => exact decodeBus_rreq p m 0#8

end Sys2Proof
end

