-- ==== Sys2Proof/Laws/Transport.lean ====
section
/-! SUPPORT. Spec lemmas of the transport primitives: what each sends, what it returns, and that it uses nothing of the state but the
exchange log, the timing and the echoes. -/

namespace Sys2Proof.Machine

/-- One exchange (R180). -/
theorem touchByte_eq (v : Byte) (s : State) :
    touchByte v s =
      (s.env.drawEcho.1,
        { s with owLog := s.owLog ++ [⟨s.owTiming, v, s.env.drawEcho.1⟩], env := s.env.drawEcho.2 }) := rfl

/-- The reset (R182). -/
theorem owReset_eq (p : Params) (s : State) :
    owReset p s =
      (presence p s.env.drawEcho.1,
        { s with
          owTiming := .bitTiming
          owLog := s.owLog ++ [⟨.resetTiming, p.owResetByte, s.env.drawEcho.1⟩]
          env := s.env.drawEcho.2 }) := rfl

/-- A write slot (R183). -/
theorem touchBit_eq (p : Params) (x : Bool) (s : State) :
    touchBit p x s =
      (decodeBit p s.env.drawEcho.1,
        { s with owLog := s.owLog ++ [⟨s.owTiming, writeSlot p x, s.env.drawEcho.1⟩], env := s.env.drawEcho.2 }) := rfl

/-- A read slot (R184). -/
theorem readBit_eq (p : Params) (s : State) :
    readBit p s =
      (decodeBit p s.env.drawEcho.1,
        { s with owLog := s.owLog ++ [⟨s.owTiming, p.owReadSlot, s.env.drawEcho.1⟩], env := s.env.drawEcho.2 }) := rfl

/-- Write slots (R185): the exchanges they append, and the echoes they use. -/
theorem writeBits_spec (p : Params) (bs : List Bool) (s : State) :
    ∃ l e d, writeBits p bs s = { s with owLog := s.owLog ++ l, env := { s.env with echoes := e, drawn := d } } ∧
      l.map Exchange.slot = bs.map (fun x => (s.owTiming, writeSlot p x)) ∧
      ∀ es rest, s.env.echoes = es ++ rest → es.length = bs.length →
        e = rest ∧ d = s.env.drawn ∧ l.map Exchange.echo = es := by
  induction bs generalizing s with
  | nil =>
    refine ⟨[], s.env.echoes, s.env.drawn, by simp [writeBits], rfl, ?_⟩
    intro es rest h hl
    cases es <;> simp_all
  | cons x bs ih =>
    obtain ⟨l, e, d, h1, h2, h3⟩ := ih (touchBit p x s).2
    refine ⟨⟨s.owTiming, writeSlot p x, s.env.drawEcho.1⟩ :: l, e, d, ?_, ?_, ?_⟩
    · rw [writeBits, h1, touchBit_eq]
      dsimp only
      rw [Env.drawEcho_env]
      simp
    · simpa [Exchange.slot, touchBit_eq] using h2
    · intro es rest h hl
      cases es with
      | nil => simp at hl
      | cons b es =>
        have hd := Env.drawEcho_script s.env b (es ++ rest) h
        have := h3 es rest (by simp [touchBit_eq, hd]) (by simpa using hl)
        simpa [touchBit_eq, hd] using this

/-- Read slots (R186): the exchanges, the echoes and the byte assembled. -/
theorem readBits_spec (p : Params) (is : List Nat) (r : Byte) (s : State) (his : ∀ i ∈ is, i < 8) (hnd : is.Nodup)
    (hr : ∀ i ∈ is, r.getLsbD i = false) :
    ∃ l e d, (readBits p is r s).2 = { s with owLog := s.owLog ++ l, env := { s.env with echoes := e, drawn := d } } ∧
      l.map Exchange.slot = is.map (fun _ => (s.owTiming, p.owReadSlot)) ∧
      (∀ (k i : Nat), is[k]? = some i → ∃ x, l[k]? = some x ∧ (readBits p is r s).1.getLsbD i = decodeBit p x.echo) ∧
      (∀ i, i ∉ is → (readBits p is r s).1.getLsbD i = r.getLsbD i) ∧
      ∀ es rest, s.env.echoes = es ++ rest → es.length = is.length →
        e = rest ∧ d = s.env.drawn ∧ l.map Exchange.echo = es := by
  induction is generalizing r s with
  | nil =>
    refine ⟨[], s.env.echoes, s.env.drawn, by simp [readBits], rfl, by simp, by simp [readBits], ?_⟩
    intro es rest h hl
    cases es <;> simp_all
  | cons i is ih =>
    have hi8 : i < 8 := his i (by simp)
    have hri : r.getLsbD i = false := hr i (by simp)
    have hput := fun j => putBit_getLsbD r i j (readBit p s).1 hi8 hri
    obtain ⟨hin, hnd'⟩ := List.nodup_cons.mp hnd
    obtain ⟨l, e, d, h1, h2, h3, h4, h5⟩ := ih (putBit r i (readBit p s).1) (readBit p s).2
      (fun j hj => his j (by simp [hj])) hnd'
      (fun j hj => by
        have hji : j ≠ i := fun e => hin (e ▸ hj)
        rw [hput j, if_neg hji]
        exact hr j (by simp [hj]))
    refine ⟨⟨s.owTiming, p.owReadSlot, s.env.drawEcho.1⟩ :: l, e, d, ?_, ?_, ?_, ?_, ?_⟩
    · rw [readBits, h1, readBit_eq]
      dsimp only
      rw [Env.drawEcho_env]
      simp
    · simpa [Exchange.slot, readBit_eq] using h2
    · intro k j hk
      cases k with
      | zero =>
        have hji : i = j := by simpa using hk
        subst hji
        refine ⟨⟨s.owTiming, p.owReadSlot, s.env.drawEcho.1⟩, by simp, ?_⟩
        rw [readBits, h4 i hin, hput i, if_pos rfl]
        rfl
      | succ k =>
        obtain ⟨x, hx, hv⟩ := h3 k j (by simpa using hk)
        exact ⟨x, by simpa using hx, hv⟩
    · intro j hj
      have hji : j ≠ i := fun e => hj (by simp [e])
      rw [readBits, h4 j (fun h => hj (by simp [h])), hput j, if_neg hji]
    · intro es rest h hl
      cases es with
      | nil => simp at hl
      | cons b es =>
        have hd := Env.drawEcho_script s.env b (es ++ rest) h
        have := h5 es rest (by simp [readBit_eq, hd]) (by simpa using hl)
        simpa [readBit_eq, hd] using this

/-- A byte written (R185). -/
theorem writeByte_spec (p : Params) (v : Byte) (s : State) :
    ∃ l e d, writeByte p v s = { s with owLog := s.owLog ++ l, env := { s.env with echoes := e, drawn := d } } ∧
      l.map Exchange.slot = byteSlots p s.owTiming v ∧
      ∀ es rest, s.env.echoes = es ++ rest → es.length = 8 → e = rest ∧ d = s.env.drawn ∧ l.map Exchange.echo = es := by
  obtain ⟨l, e, d, h1, h2, h3⟩ := writeBits_spec p (bitsOf v) s
  exact ⟨l, e, d, h1, by rw [h2, bitsOf_eq]; simp [byteSlots, writeSlot], h3⟩

/-- A byte read (R186): bit `i` of the value is the decode of the `i`-th echo. -/
theorem readByte_spec (p : Params) (s : State) :
    ∃ l e d, (readByte p s).2 = { s with owLog := s.owLog ++ l, env := { s.env with echoes := e, drawn := d } } ∧
      l.map Exchange.slot = readSlots p s.owTiming ∧
      (∀ i : Nat, i < 8 → ∃ x, l[i]? = some x ∧ (readByte p s).1.getLsbD i = decodeBit p x.echo) ∧
      ∀ es rest, s.env.echoes = es ++ rest → es.length = 8 → e = rest ∧ d = s.env.drawn ∧ l.map Exchange.echo = es := by
  obtain ⟨l, e, d, h1, h2, h3, -, h5⟩ := readBits_spec p (List.range 8) 0#8 s (by decide) (by decide) (by simp)
  exact ⟨l, e, d, h1, by rw [h2]; rfl, fun i hi => h3 i i (by simp [hi]), h5⟩

/-! ## The transport reads no cell (R180) -/

theorem owReset_map (p : Params) (s : State) (m : Memory) :
    owReset p { s with map := m } = ((owReset p s).1, { (owReset p s).2 with map := m }) := rfl

theorem writeBits_map (p : Params) (bs : List Bool) (s : State) (m : Memory) :
    writeBits p bs { s with map := m } = { writeBits p bs s with map := m } := by
  induction bs generalizing s with
  | nil => rfl
  | cons x bs ih => exact ih (touchBit p x s).2

theorem readBits_map (p : Params) (is : List Nat) (r : Byte) (s : State) (m : Memory) :
    readBits p is r { s with map := m } = ((readBits p is r s).1, { (readBits p is r s).2 with map := m }) := by
  induction is generalizing r s with
  | nil => rfl
  | cons i is ih => exact ih (putBit r i (readBit p s).1) (readBit p s).2

theorem writeByte_map (p : Params) (v : Byte) (s : State) (m : Memory) :
    writeByte p v { s with map := m } = { writeByte p v s with map := m } := writeBits_map _ _ _ _

theorem readByte_map (p : Params) (s : State) (m : Memory) :
    readByte p { s with map := m } = ((readByte p s).1, { (readByte p s).2 with map := m }) := readBits_map _ _ _ _ _

end Sys2Proof.Machine
end

