-- ==== Sys2Proof/Laws/Sequencer.lean ====
section
/-! SUPPORT. Spec lemmas of the sequencer's ticks. -/

namespace Sys2Proof.Machine

/-! ## The conversion (R216, R218) -/

theorem temperature_in_range (s : State) (h : fitsHalf (conv (rawReading s.owScratchHi s.owScratchLo)) = true) :
    temperature s = (BitVec.ofInt 16 (conv (rawReading s.owScratchHi s.owScratchLo)), s) := by
  simp [temperature, h]

theorem temperature_out_of_range (s : State) (h : fitsHalf (conv (rawReading s.owScratchHi s.owScratchLo)) = false) :
    temperature s = (s.env.drawTemp.1, s.setEnv s.env.drawTemp.2) := by
  simp [temperature, h]

theorem temperature_state (s : State) : ∃ e, (temperature s).2 = { s with env := e } := by
  unfold temperature
  simp only
  split
  · exact ⟨s.env, rfl⟩
  · exact ⟨_, rfl⟩

/-- A result that fits 16 bits is the value of its pattern. -/
theorem ofInt_toInt_of_fits (t : Int) (h : fitsHalf t = true) : (BitVec.ofInt 16 t).toInt = t := by
  simp only [fitsHalf, Bool.and_eq_true, decide_eq_true_eq] at h
  rw [BitVec.toInt_ofInt]
  exact Int.bmod_eq_of_le (by omega) (by omega)

/-- The truncation of R216 as a floor division, for each sign. -/
theorem conv_nonneg (raw : Int) (h : 0 ≤ raw) : conv raw = raw * 25 / 4 := by
  rw [conv, Int.tdiv_eq_ediv_of_nonneg (by omega)]

theorem conv_nonpos (raw : Int) (h : raw ≤ 0) : conv raw = -(-raw * 25 / 4) := by
  rw [conv, show raw * 25 = -(-raw * 25) by omega, Int.neg_tdiv, Int.tdiv_eq_ediv_of_nonneg (by omega)]

theorem fitsHalf_iff (t : Int) : fitsHalf t = true ↔ -32768 ≤ t ∧ t ≤ 32767 := by
  simp only [fitsHalf, Bool.and_eq_true, decide_eq_true_eq]

/-- The range of R216 in terms of the raw reading. -/
theorem fitsHalf_conv (raw : Int) : fitsHalf (conv raw) = true ↔ -5243 ≤ raw ∧ raw ≤ 5242 := by
  rw [fitsHalf_iff]
  rcases Int.le_total 0 raw with h | h
  · rw [conv_nonneg raw h]; omega
  · rw [conv_nonpos raw h]; omega

/-! ## The parts of the ticks -/

/-- The start of a conversion (R212). -/
theorem startConversion_absent (p : Params) (s : State) (h : s.env.drawEcho.1 = p.owResetByte) :
    startConversion p s =
      { s with
        owTiming := .bitTiming
        owLog := s.owLog ++ [⟨.resetTiming, p.owResetByte, s.env.drawEcho.1⟩]
        env := s.env.drawEcho.2 } := by
  have : presence p s.env.drawEcho.1 = false := by simp [presence, h]
  simp [startConversion, owReset_eq, this]

theorem startConversion_present (p : Params) (s : State) (h : s.env.drawEcho.1 ≠ p.owResetByte) :
    ∃ l e d, startConversion p s =
        { s with
          owTiming := .bitTiming, owState := .converting
          owLog := s.owLog ++ ⟨.resetTiming, p.owResetByte, s.env.drawEcho.1⟩ :: l
          env := { s.env with echoes := e, drawn := d } } ∧
      l.map Exchange.slot = byteSlots p .bitTiming p.cmdSelectAll ++ byteSlots p .bitTiming p.cmdStartConversion := by
  have hp : presence p s.env.drawEcho.1 = true := by simpa [presence] using h
  obtain ⟨l1, e1, d1, h1, h1', -⟩ := writeByte_spec p p.cmdSelectAll (owReset p s).2
  obtain ⟨l2, e2, d2, h2, h2', -⟩ := writeByte_spec p p.cmdStartConversion (writeByte p p.cmdSelectAll (owReset p s).2)
  refine ⟨l1 ++ l2, e2, d2, ?_, ?_⟩
  · simp only [startConversion]
    rw [if_pos (by simpa [owReset_eq] using hp), h2, h1, owReset_eq, Env.drawEcho_env]
    simp [State.setOwState]
  · rw [h1] at h2'
    simpa [owReset_eq, h1'] using h2'

/-- The read half of the reading tick when it is skipped (R214, `STALE` and no presence). -/
theorem acquire_skipped (p : Params) (s : State) (h : s.env.drawEcho.1 = p.owResetByte) (ha : p.absentRead = .stale) :
    acquire p s =
      { s with
        owTiming := .bitTiming
        owLog := s.owLog ++ [⟨.resetTiming, p.owResetByte, s.env.drawEcho.1⟩]
        env := s.env.drawEcho.2 } := by
  have : presence p s.env.drawEcho.1 = false := by simp [presence, h]
  simp [acquire, owReset_eq, this, ha]

/-- The scratch bytes read (R214, R215): 32 exchanges, LSB first. -/
theorem readScratch_spec (p : Params) (s : State) :
    ∃ l e d lo hi, readScratch p s =
        { s with
          owScratchLo := lo, owScratchHi := hi, owLog := s.owLog ++ l
          env := { s.env with echoes := e, drawn := d } } ∧
      l.map Exchange.slot = byteSlots p s.owTiming p.cmdSelectAll ++ byteSlots p s.owTiming p.cmdReadResult ++
        readSlots p s.owTiming ++ readSlots p s.owTiming ∧
      ∀ i : Nat, i < 8 → ∃ x y, l[16 + i]? = some x ∧ l[24 + i]? = some y ∧
        lo.getLsbD i = decodeBit p x.echo ∧ hi.getLsbD i = decodeBit p y.echo := by
  obtain ⟨l1, e1, d1, h1, h1', -⟩ := writeByte_spec p p.cmdSelectAll s
  obtain ⟨l2, e2, d2, h2, h2', -⟩ := writeByte_spec p p.cmdReadResult (writeByte p p.cmdSelectAll s)
  obtain ⟨l3, e3, d3, h3, h3', h3'', -⟩ :=
    readByte_spec p (writeByte p p.cmdReadResult (writeByte p p.cmdSelectAll s))
  obtain ⟨l4, e4, d4, h4, h4', h4'', -⟩ :=
    readByte_spec p ((readByte p (writeByte p p.cmdReadResult (writeByte p p.cmdSelectAll s))).2.setScratchLo
      (readByte p (writeByte p p.cmdReadResult (writeByte p p.cmdSelectAll s))).1)
  rw [h1] at h2'
  rw [h2, h1] at h3'
  rw [h3, h2, h1] at h4'
  have len : ∀ (l : List Exchange) (m : List (OwTiming × Byte)), l.map Exchange.slot = m → l.length = m.length := by
    intro l m h; rw [← h]; simp
  have L1 := len _ _ h1'
  have L2 := len _ _ h2'
  have L3 := len _ _ h3'
  simp only [byteSlots, readSlots, List.length_map, List.length_range, List.length_replicate] at L1 L2 L3
  refine ⟨l1 ++ l2 ++ l3 ++ l4, e4, d4,
    (readByte p (writeByte p p.cmdReadResult (writeByte p p.cmdSelectAll s))).1,
    (readByte p ((readByte p (writeByte p p.cmdReadResult (writeByte p p.cmdSelectAll s))).2.setScratchLo
      (readByte p (writeByte p p.cmdReadResult (writeByte p p.cmdSelectAll s))).1)).1, ?_, ?_, ?_⟩
  · simp only [readScratch]
    rw [h4]
    generalize hb : (readByte p ((readByte p (writeByte p p.cmdReadResult (writeByte p p.cmdSelectAll s))).2.setScratchLo
      (readByte p (writeByte p p.cmdReadResult (writeByte p p.cmdSelectAll s))).1)).1 = b
    generalize hc : (readByte p (writeByte p p.cmdReadResult (writeByte p p.cmdSelectAll s))).1 = c
    rw [h3, h2, h1]
    simp [State.setScratchLo, State.setScratchHi]
  · simpa [h1', h2', h3'] using h4'
  · intro i hi
    obtain ⟨x, hx, hx'⟩ := h3'' i hi
    obtain ⟨y, hy, hy'⟩ := h4'' i hi
    refine ⟨x, y, ?_, ?_, hx', hy'⟩
    · rw [List.getElem?_append_left (by simp; omega), List.getElem?_append_right (by simp; omega)]
      simpa [L1, L2] using hx
    · rw [List.getElem?_append_right (by simp; omega)]
      simpa [L1, L2, L3] using hy

/-- The read half of the reading tick when it is done (R214). -/
theorem acquire_done (p : Params) (s : State) (h : s.env.drawEcho.1 ≠ p.owResetByte ∨ p.absentRead = .readAnyway) :
    ∃ l e d lo hi, acquire p s =
        { s with
          owTiming := .bitTiming, owScratchLo := lo, owScratchHi := hi, owLog := s.owLog ++ l
          env := { s.env with echoes := e, drawn := d } } ∧
      l.map Exchange.slot = resetSlot p ::
        (byteSlots p .bitTiming p.cmdSelectAll ++ byteSlots p .bitTiming p.cmdReadResult ++
          readSlots p .bitTiming ++ readSlots p .bitTiming) ∧
      ∀ i : Nat, i < 8 → ∃ x y, l[17 + i]? = some x ∧ l[25 + i]? = some y ∧
        lo.getLsbD i = decodeBit p x.echo ∧ hi.getLsbD i = decodeBit p y.echo := by
  obtain ⟨l, e, d, lo, hi, h1, h2, h3⟩ := readScratch_spec p (owReset p s).2
  have hc : ((owReset p s).1 || p.absentRead == .readAnyway) = true := by
    rcases h with h | h
    · simp [owReset_eq, presence, h]
    · simp [h]
  refine ⟨⟨.resetTiming, p.owResetByte, s.env.drawEcho.1⟩ :: l, e, d, lo, hi, ?_, ?_, ?_⟩
  · simp only [acquire]
    rw [if_pos hc, h1, owReset_eq, Env.drawEcho_env]
    simp
  · simpa [Exchange.slot, resetSlot, owReset_eq] using h2
  · intro i hi
    obtain ⟨x, y, hx, hy, hv⟩ := h3 i hi
    exact ⟨x, y, by rw [show 17 + i = (16 + i) + 1 by omega]; simpa using hx,
      by rw [show 25 + i = (24 + i) + 1 by omega]; simpa using hy, hv⟩

/-- The value the stores carry (R216, R218), whatever the state: exact where it fits, the environment's where it does not. -/
theorem temperature_spec (u : State) :
    (-5243 ≤ rawReading u.owScratchHi u.owScratchLo → rawReading u.owScratchHi u.owScratchLo ≤ 5242 →
      (temperature u).1.toInt = conv (rawReading u.owScratchHi u.owScratchLo)) ∧
    (¬ (-5243 ≤ rawReading u.owScratchHi u.owScratchLo ∧ rawReading u.owScratchHi u.owScratchLo ≤ 5242) →
      ∀ v rest, u.env.temps = v :: rest → (temperature u).1 = v) := by
  constructor
  · intro a b
    have h := (fitsHalf_conv _).mpr ⟨a, b⟩
    rw [temperature_in_range u h]
    exact ofInt_toInt_of_fits _ h
  · intro a v rest hv
    rw [← fitsHalf_conv, Bool.not_eq_true] at a
    rw [temperature_out_of_range u a]
    simp [Env.drawTemp, hv]

/-- What the read half of the reading tick keeps, done or skipped. -/
theorem acquire_keeps (p : Params) (s : State) :
    (acquire p s).pendingStores = s.pendingStores ∧ (acquire p s).env.temps = s.env.temps ∧
      (acquire p s).env.orders = s.env.orders ∧ (acquire p s).owTiming = .bitTiming ∧ (acquire p s).map = s.map := by
  by_cases h : s.env.drawEcho.1 ≠ p.owResetByte ∨ p.absentRead = .readAnyway
  · obtain ⟨l, e, d, lo, hi, h1, -, -⟩ := acquire_done p s h
    rw [h1]
    exact ⟨rfl, rfl, rfl, rfl, rfl⟩
  · have h2 : s.env.drawEcho.1 = p.owResetByte ∧ p.absentRead = .stale := by
      refine ⟨by simpa using fun e => h (.inl e), ?_⟩
      cases ha : p.absentRead with
      | stale => rfl
      | readAnyway => exact absurd (.inr ha) h
    rw [acquire_skipped p s h2.1 h2.2, Env.drawEcho_env]
    exact ⟨rfl, rfl, rfl, rfl, rfl⟩

/-- The two byte stores of a pair, in either order (R69). -/
theorem pairStores_cases (o : Bool) (i : Byte) (v : Half) :
    pairStores o i v = [⟨i, highByte v⟩, ⟨i + 1#8, lowByte v⟩] ∨
      pairStores o i v = [⟨i + 1#8, lowByte v⟩, ⟨i, highByte v⟩] := by
  cases o
  · exact .inr rfl
  · exact .inl rfl

/-- The end of the reading tick (R214, R216): what it leaves after the read half. -/
theorem tickReading_eq (p : Params) (s : State) :
    ∃ e, tickReading p s =
      { acquire p s with
        owState := .idle, owTicks := 0, env := e
        pendingStores := (acquire p s).pendingStores ++
          pairStores (temperature (acquire p s)).2.env.drawOrder.1 200#8 (temperature (acquire p s)).1 } := by
  have key : ∀ t : State, ∃ e, ((store16 200#8 (temperature t).1 (temperature t).2).setOwState .idle).setOwTicks 0 =
      { t with
        owState := .idle, owTicks := 0, env := e
        pendingStores := t.pendingStores ++ pairStores (temperature t).2.env.drawOrder.1 200#8 (temperature t).1 } := by
    intro t
    obtain ⟨e, he⟩ := temperature_state t
    refine ⟨(temperature t).2.env.drawOrder.2, ?_⟩
    generalize (temperature t).1 = v
    generalize (temperature t).2 = u at he ⊢
    subst he
    rfl
  exact key (acquire p s)

/-! ## A tick reads no cell (R220) -/

theorem startConversion_map (p : Params) (s : State) (m : Memory) :
    startConversion p { s with map := m } = { startConversion p s with map := m } := by
  simp only [startConversion, owReset_map, writeByte_map]
  split <;> rfl

theorem acquire_map (p : Params) (s : State) (m : Memory) :
    acquire p { s with map := m } = { acquire p s with map := m } := by
  have scratch : ∀ u : State, readScratch p { u with map := m } = { readScratch p u with map := m } := by
    intro u
    simp only [readScratch, writeByte_map, readByte_map]
    generalize readByte p (writeByte p p.cmdReadResult (writeByte p p.cmdSelectAll u)) = r
    exact congrArg (fun q : Byte × State => q.2.setScratchHi q.1) (readByte_map p (r.2.setScratchLo r.1) m)
  simp only [acquire, owReset_map, scratch]
  split <;> rfl

theorem tickReading_map (p : Params) (s : State) (m : Memory) :
    tickReading p { s with map := m } = { tickReading p s with map := m } := by
  have temp : ∀ u : State, temperature { u with map := m } = ((temperature u).1, { (temperature u).2 with map := m }) := by
    intro u
    simp only [temperature]
    split <;> rfl
  simp only [tickReading, finishReading, acquire_map, temp]
  rfl

/-- The tick of each state (R210). -/
theorem owTick_idle (p : Params) (s : State) (h : s.owState = .idle) : owTick p s = tickIdle p s := by
  unfold owTick
  rw [h]

theorem owTick_converting (p : Params) (s : State) (h : s.owState = .converting) : owTick p s = tickConverting p s := by
  unfold owTick
  rw [h]

theorem owTick_reading (p : Params) (s : State) (h : s.owState = .reading) : owTick p s = tickReading p s := by
  unfold owTick
  rw [h]

theorem owState_cases (s : State) : s.owState = .idle ∨ s.owState = .converting ∨ s.owState = .reading := by
  cases s.owState <;> simp

/-- A tick on another map does the same and leaves that map. -/
theorem owTick_map (p : Params) (s : State) (m : Memory) :
    owTick p { s with map := m } = { owTick p s with map := m } := by
  obtain h | h | h := owState_cases s
  · rw [owTick_idle p s h, owTick_idle p { s with map := m } h, tickIdle, tickIdle]
    by_cases hn : s.owTicks + 1 < p.n1
    · rw [if_pos hn, if_pos hn]
      rfl
    · rw [if_neg hn, if_neg hn]
      exact startConversion_map p (s.setOwTicks 0) m
  · rw [owTick_converting p s h, owTick_converting p { s with map := m } h, tickConverting, tickConverting]
    by_cases hn : s.owTicks + 1 < p.n2
    · rw [if_pos hn, if_pos hn]
      rfl
    · rw [if_neg hn, if_neg hn]
      rfl
  · rw [owTick_reading p s h, owTick_reading p { s with map := m } h, tickReading_map]

/-- A tick only appends exchanges. -/
theorem owTick_log (p : Params) (s : State) : ∃ l, (owTick p s).owLog = s.owLog ++ l := by
  obtain h | h | h := owState_cases s
  · rw [owTick_idle p s h, tickIdle]
    split
    · exact ⟨[], by simp⟩
    · by_cases hp : s.env.drawEcho.1 = p.owResetByte
      · rw [startConversion_absent p (s.setOwTicks 0) hp]
        exact ⟨_, rfl⟩
      · obtain ⟨l, e, d, h1, -⟩ := startConversion_present p (s.setOwTicks 0) hp
        rw [h1]
        exact ⟨_, rfl⟩
  · rw [owTick_converting p s h, tickConverting]
    split <;> exact ⟨[], by simp⟩
  · rw [owTick_reading p s h]
    obtain ⟨e, he⟩ := tickReading_eq p s
    rw [he]
    by_cases hp : s.env.drawEcho.1 ≠ p.owResetByte ∨ p.absentRead = .readAnyway
    · obtain ⟨l, e, d, lo, hi, h1, -, -⟩ := acquire_done p s hp
      exact ⟨l, congrArg State.owLog h1⟩
    · rw [not_or, not_not] at hp
      have ha : p.absentRead = .stale := by
        cases ha : p.absentRead with
        | stale => rfl
        | readAnyway => exact absurd ha hp.2
      exact ⟨_, congrArg State.owLog (acquire_skipped p s hp.1 ha)⟩

/-- A tick does not touch the schedule (R245). -/
theorem owTick_turns (p : Params) (s : State) : (owTick p s).env.turns = s.env.turns := by
  have echo : ∀ e : Env, e.drawEcho.2.turns = e.turns := fun e => by rw [Env.drawEcho_env]
  obtain h | h | h := owState_cases s
  · rw [owTick_idle p s h, tickIdle]
    split
    · rfl
    · by_cases hp : s.env.drawEcho.1 = p.owResetByte
      · rw [startConversion_absent p (s.setOwTicks 0) hp]
        exact echo _
      · obtain ⟨l, e, d, h1, -⟩ := startConversion_present p (s.setOwTicks 0) hp
        rw [h1]
        rfl
  · rw [owTick_converting p s h, tickConverting]
    split <;> rfl
  · rw [owTick_reading p s h]
    have acq : (acquire p s).env.turns = s.env.turns := by
      by_cases hp : s.env.drawEcho.1 ≠ p.owResetByte ∨ p.absentRead = .readAnyway
      · obtain ⟨l, e, d, lo, hi, h1, -, -⟩ := acquire_done p s hp
        rw [h1]
      · rw [not_or, not_not] at hp
        have ha : p.absentRead = .stale := by
          cases ha : p.absentRead with
          | stale => rfl
          | readAnyway => exact absurd ha hp.2
        rw [acquire_skipped p s hp.1 ha]
        exact echo _
    have temp : ∀ u : State, (temperature u).2.env.turns = u.env.turns := by
      intro u
      simp only [temperature]
      split
      · rfl
      · simp only [State.setEnv_env, Env.drawTemp]
        split <;> rfl
    have order : ∀ e : Env, e.drawOrder.2.turns = e.turns := fun e => by
      unfold Env.drawOrder
      split <;> rfl
    exact (order _).trans ((temp _).trans acq)

end Sys2Proof.Machine
end

