-- ==== Sys2Proof/Laws/Step.lean ====
section
/-! SUPPORT. What exec does by port, which port a decoded row belongs to, and one inversion lemma for the step. -/

namespace Sys2Proof.Machine

/-! ## exec by port -/

/-- A bus row is the event step of its word, or the refusal mark of a reserved word. -/
theorem exec_bus (i : Instr) (h : portOf i = .bus) :
    (∃ e, ∀ s, exec i s = .next (busEvent Config.params e s)) ∨ ∀ s, exec i s = .next s.markRefused := by
  cases i with
  | busDisabled e => exact .inl ⟨e, fun _ => rfl⟩
  | busAddrIndex b => exact .inl ⟨.addr b, fun _ => rfl⟩
  | busAddrStart => exact .inl ⟨.addr startByte, fun _ => rfl⟩
  | busWdataSubMatch => exact .inl ⟨.wdata Config.params.subByte, fun _ => rfl⟩
  | busWdataGeneric b | busWdataSubMismatch b | busWdataTarget b | busWdataValueHi b | busWdataValueLo b =>
    exact .inl ⟨.wdata b, fun _ => rfl⟩
  | busRreqMirror | busRreqHook => exact .inl ⟨.rreq, fun _ => rfl⟩
  | busReserved b | busReservedRreq b => exact .inr fun _ => rfl
  | _ => simp [portOf] at h

/-- A host row is the byte step of its byte. -/
theorem exec_host (i : Instr) (h : portOf i = .host) : ∃ b, ∀ s, exec i s = .next (bridgeByte Config.params b s) := by
  cases i with
  | hostLeadR => exact ⟨readToken, fun _ => rfl⟩
  | hostLeadW => exact ⟨writeToken, fun _ => rfl⟩
  | hostRIndex b | hostWIndex b | hostWValue b | hostLeadOther b => exact ⟨b, fun _ => rfl⟩
  | _ => simp [portOf] at h

/-- A tick row is the tick. -/
theorem exec_tick (i : Instr) (h : portOf i = .tick) (s : State) : exec i s = .next (owTick Config.params s) := by
  cases i with
  | owSeqTickIdle | owSeqTickConverting | owSeqTickReading => rfl
  | _ => simp [portOf] at h

/-- Every instruction answers a next state (R240). -/
theorem exec_next (i : Instr) (s : State) : ∃ t, exec i s = .next t := by cases i <;> exact ⟨_, rfl⟩

/-- A transport row appends exchanges, may set bit timing, and uses nothing of the environment but the echoes. -/
theorem exec_line (i : Instr) (s : State) (h : portOf i = .line) :
    ∃ tm l r e d, exec i s = .next { s with
        owTiming := tm, owLog := s.owLog ++ l, owResult := r, env := { s.env with echoes := e, drawn := d } } ∧
      (tm = s.owTiming ∨ tm = .bitTiming) := by
  have echo : ∀ x : Exchange, ∀ tm r, ∃ l e d, ({ s with
        owTiming := tm, owLog := s.owLog ++ [x], owResult := r, env := s.env.drawEcho.2 } : State) =
      { s with owTiming := tm, owLog := s.owLog ++ l, owResult := r, env := { s.env with echoes := e, drawn := d } } :=
    fun x tm r => ⟨[x], s.env.drawEcho.2.echoes, s.env.drawEcho.2.drawn, by rw [← Env.drawEcho_env]⟩
  have byte : ∀ v : Byte, ∃ l e d, exec (.owWriteByte v) s = .next
      { s with owLog := s.owLog ++ l, owResult := .nothing, env := { s.env with echoes := e, drawn := d } } := by
    intro v
    obtain ⟨l, e, d, h1, -, -⟩ := writeByte_spec Config.params v s
    refine ⟨l, e, d, ?_⟩
    simp only [exec, execOwWriteByte, h1, State.setLineResult]
  cases i with
  | owTouchByte v =>
    obtain ⟨l, e, d, h1⟩ := echo ⟨s.owTiming, v, s.env.drawEcho.1⟩ s.owTiming (.echo s.env.drawEcho.1)
    exact ⟨_, l, _, e, d, congrArg Host.Outcome.next h1, .inl rfl⟩
  | owReset =>
    obtain ⟨l, e, d, h1⟩ := echo ⟨.resetTiming, Config.params.owResetByte, s.env.drawEcho.1⟩ .bitTiming
      (.presence (presence Config.params s.env.drawEcho.1))
    exact ⟨_, l, _, e, d, congrArg Host.Outcome.next h1, .inr rfl⟩
  | owWriteBit1 =>
    obtain ⟨l, e, d, h1⟩ := echo ⟨s.owTiming, writeSlot Config.params true, s.env.drawEcho.1⟩ s.owTiming
      (.bit (decodeBit Config.params s.env.drawEcho.1))
    exact ⟨_, l, _, e, d, congrArg Host.Outcome.next h1, .inl rfl⟩
  | owWriteBit0 =>
    obtain ⟨l, e, d, h1⟩ := echo ⟨s.owTiming, writeSlot Config.params false, s.env.drawEcho.1⟩ s.owTiming
      (.bit (decodeBit Config.params s.env.drawEcho.1))
    exact ⟨_, l, _, e, d, congrArg Host.Outcome.next h1, .inl rfl⟩
  | owReadBit =>
    obtain ⟨l, e, d, h1⟩ := echo ⟨s.owTiming, Config.params.owReadSlot, s.env.drawEcho.1⟩ s.owTiming
      (.bit (decodeBit Config.params s.env.drawEcho.1))
    exact ⟨_, l, _, e, d, congrArg Host.Outcome.next h1, .inl rfl⟩
  | owWriteByte v =>
    obtain ⟨l, e, d, h1⟩ := byte v
    exact ⟨_, l, _, e, d, h1, .inl rfl⟩
  | owReadByte =>
    obtain ⟨l, e, d, h1, -, -, -⟩ := readByte_spec Config.params s
    refine ⟨s.owTiming, l, .byte (readByte Config.params s).1, e, d, ?_, .inl rfl⟩
    simp only [exec, execOwReadByte]
    generalize (readByte Config.params s).1 = b
    rw [h1, State.setLineResult]
  | owCmdSelectAll =>
    obtain ⟨l, e, d, h1⟩ := byte Config.params.cmdSelectAll
    exact ⟨_, l, _, e, d, h1, .inl rfl⟩
  | owCmdStartConversion =>
    obtain ⟨l, e, d, h1⟩ := byte Config.params.cmdStartConversion
    exact ⟨_, l, _, e, d, h1, .inl rfl⟩
  | owCmdReadResult =>
    obtain ⟨l, e, d, h1⟩ := byte Config.params.cmdReadResult
    exact ⟨_, l, _, e, d, h1, .inl rfl⟩
  | _ => simp [portOf] at h

/-! ## The tick by its frame -/

/-- What a tick can change: the sequencer's own registers, the line, the begun stores and the environment; never the map. -/
theorem owTick_frame (p : Params) (s : State) :
    owTick p s =
      { s with
        owState := (owTick p s).owState, owTicks := (owTick p s).owTicks, owTiming := (owTick p s).owTiming
        owScratchLo := (owTick p s).owScratchLo, owScratchHi := (owTick p s).owScratchHi
        owLog := (owTick p s).owLog, pendingStores := (owTick p s).pendingStores, env := (owTick p s).env } := by
  have done : ∀ u : State, (∃ a b c d e f g h, u = { s with
      owState := a, owTicks := b, owTiming := c, owScratchLo := d, owScratchHi := e, owLog := f
      pendingStores := g, env := h }) → u = { s with
      owState := u.owState, owTicks := u.owTicks, owTiming := u.owTiming, owScratchLo := u.owScratchLo
      owScratchHi := u.owScratchHi, owLog := u.owLog, pendingStores := u.pendingStores, env := u.env } := by
    rintro u ⟨a, b, c, d, e, f, g, h, rfl⟩
    rfl
  apply done
  unfold owTick
  split
  · unfold tickIdle
    split
    · exact ⟨_, _, _, _, _, _, _, _, rfl⟩
    · by_cases h : s.env.drawEcho.1 = p.owResetByte
      · rw [startConversion_absent p (s.setOwTicks 0) h]
        exact ⟨_, _, _, _, _, _, _, _, rfl⟩
      · obtain ⟨l, e, d, h1, -⟩ := startConversion_present p (s.setOwTicks 0) h
        rw [h1]
        exact ⟨_, _, _, _, _, _, _, _, rfl⟩
  · unfold tickConverting
    split <;> exact ⟨_, _, _, _, _, _, _, _, rfl⟩
  · obtain ⟨e, he⟩ := tickReading_eq p s
    rw [he]
    generalize hv : (temperature (acquire p s)).1 = v
    generalize ho : (temperature (acquire p s)).2.env.drawOrder.1 = o
    by_cases h : s.env.drawEcho.1 ≠ p.owResetByte ∨ p.absentRead = .readAnyway
    · obtain ⟨l, e', d, lo, hi, h1, -, -⟩ := acquire_done p s h
      rw [h1]
      exact ⟨_, _, _, _, _, _, _, _, rfl⟩
    · have h2 : s.env.drawEcho.1 = p.owResetByte ∧ p.absentRead = .stale := by
        refine ⟨by simpa using fun e => h (.inl e), ?_⟩
        cases ha : p.absentRead with
        | stale => rfl
        | readAnyway => exact absurd (.inr ha) h
      rw [acquire_skipped p s h2.1 h2.2]
      exact ⟨_, _, _, _, _, _, _, _, rfl⟩

/-! ## Decoded rows and their ports -/

theorem portOf_selectEvent (p : Params) (m : BusMode) (e : BusEvent) : portOf (selectEvent p m e) = .bus := by
  unfold selectEvent
  split
  · cases e with
    | addr b => dsimp only; split <;> rfl
    | wdata b => dsimp only; split <;> first | rfl | (split <;> rfl)
    | rreq => dsimp only; split <;> rfl
  · rfl

theorem portOf_decodeBus (p : Params) (m : BusMode) (w : EventWord) : portOf (decodeBus p m w) = .bus := by
  unfold decodeBus
  split
  · rfl
  · split
    · split
      · exact portOf_selectEvent _ _ _
      · rfl
    · split <;> exact portOf_selectEvent _ _ _

theorem portOf_decodeHost (st : BridgeState) (b : Byte) : portOf (decodeHost st b) = .host := by
  cases st
  · unfold decodeHost
    dsimp only
    split
    · rfl
    · split <;> rfl
  · rfl
  · rfl
  · rfl

theorem portOf_decodeTick (st : OwState) : portOf (decodeTick st) = .tick := by cases st <;> rfl

theorem portOf_lineInstr (c : LineCall) : portOf (lineInstr c) = .line := by cases c <;> rfl

/-- The row selected for an event runs that event, whatever the state (R138; log 2). -/
theorem exec_selectEvent (s t : State) (e : BusEvent) :
    exec (selectEvent Config.params s.busMode e) t = .next (busEvent Config.params e t) := by
  unfold selectEvent
  split
  · cases e with
    | addr b =>
      dsimp only
      split
      · next h => subst h; rfl
      · rfl
    | wdata b =>
      dsimp only
      split <;> first | rfl | skip
      split
      · next h => subst h; rfl
      · rfl
    | rreq => dsimp only; split <;> rfl
  · rfl

/-- The row of a reserved word sets the mark and changes nothing else, whatever the modes (R97). -/
theorem exec_reserved (m : BusMode) (t : State) (w : EventWord) (h : EventWord.reserved w = true) :
    exec (decodeBus Config.params m w) t = .next t.markRefused := by
  rw [← eventWord_kind_byte w] at h ⊢
  generalize EventWord.kind w = k at h
  generalize EventWord.byte w = b at h
  obtain rfl | rfl | rfl | rfl := kind_cases k
  · simp [EventWord.reserved, kind_eventWord] at h
  · simp [EventWord.reserved, kind_eventWord] at h
  · have hb : b ≠ 0#8 := by simpa [EventWord.reserved, kind_eventWord, byte_eventWord] using h
    rw [decodeBus_rreq, if_neg hb]
    rfl
  · rw [decodeBus_reserved]
    rfl

/-- The row of an event word sets the mark exactly if the word is reserved (R46, R97). -/
theorem exec_decodeBus_refused (s t u : State) (w : EventWord) (h : exec (decodeBus Config.params s.busMode w) t = .next u) :
    u.refused = (t.refused || EventWord.reserved w) := by
  cases hw : EventWord.reserved w with
  | false =>
    obtain ⟨e, rfl⟩ := word_of_not_reserved w hw
    rw [decodeBus_word, exec_selectEvent] at h
    rw [← Host.Outcome.next.inj h, busEvent_frame, Bool.or_false]
  | true =>
    rw [exec_reserved _ _ _ hw] at h
    rw [← Host.Outcome.next.inj h, Bool.or_true, State.markRefused_refused]

/-! ## The step of a running machine, move by move -/

theorem step_running (s : State) (h : s.phase = .running) :
    step s = runFetch (turnFetch Config.params s.env.drawTurn.1 (s.setEnv s.env.drawTurn.2)) := by
  rw [step, fetch, h]
  rfl

theorem step_bsp (s : State) (h : s.phase = .running) (ht : s.env.drawTurn.1 = .move .bsp) (w : EventWord)
    (q : List EventWord) (hq : s.busQueue = w :: q) :
    step s = exec (decodeBus Config.params s.busMode w) ((s.setEnv s.env.drawTurn.2).setBusQueue q) := by
  rw [step_running s h, ht]
  have hq' : (s.setEnv s.env.drawTurn.2).busQueue = w :: q := hq
  simp only [turnFetch, moveFetch, bspFetch, hq']
  rfl

theorem step_bsp_empty (s : State) (h : s.phase = .running) (ht : s.env.drawTurn.1 = .move .bsp) (hq : s.busQueue = []) :
    step s = .next (s.setEnv s.env.drawTurn.2) := by
  rw [step_running s h, ht]
  have hq' : (s.setEnv s.env.drawTurn.2).busQueue = [] := hq
  simp only [turnFetch, moveFetch, bspFetch, hq']
  rfl

theorem step_call (s : State) (h : s.phase = .running) (c : LineCall) (ht : s.env.drawTurn.1 = .call c) :
    step s = exec (lineInstr c) (s.setEnv s.env.drawTurn.2) := by
  rw [step_running s h, ht]
  rfl

/-- A move of the main loop with a begun store makes it (R74). -/
theorem step_store (s : State) (h : s.phase = .running) {pace : Pace} (ht : s.env.drawTurn.1 = .move (.main pace)) (st : Store)
    (rest : List Store) (hp : s.pendingStores = st :: rest) :
    step s = .next (((s.setEnv s.env.drawTurn.2).setMap st.index st.value).setPending rest) := by
  rw [step_running s h, ht]
  have hp' : (s.setEnv s.env.drawTurn.2).pendingStores = st :: rest := hp
  simp only [turnFetch, moveFetch, mainFetch, hp']
  rfl

/-- A move of the main loop with a tick in progress is its next slice (R189). -/
theorem step_stage (s : State) (h : s.phase = .running) {pace : Pace} (ht : s.env.drawTurn.1 = .move (.main pace))
    (hp : s.pendingStores = []) (st : TickStage) (hs : s.owStage = some st) :
    step s = .next (stageMove Config.params st (s.setEnv s.env.drawTurn.2)) := by
  rw [step_running s h, ht]
  have hp' : (s.setEnv s.env.drawTurn.2).pendingStores = [] := hp
  have hs' : (s.setEnv s.env.drawTurn.2).owStage = some st := hs
  simp only [turnFetch, moveFetch, mainFetch, hp', hs']
  rfl

/-- A move of the main loop with nothing begun is its next agent's (R253). -/
theorem step_main (s : State) (h : s.phase = .running) {pace : Pace} (ht : s.env.drawTurn.1 = .move (.main pace))
    (hp : s.pendingStores = []) (hs : s.owStage = none) :
    step s = runFetch (agentFetch Config.params pace (s.setEnv s.env.drawTurn.2)) := by
  rw [step_running s h, ht]
  have hp' : (s.setEnv s.env.drawTurn.2).pendingStores = [] := hp
  have hs' : (s.setEnv s.env.drawTurn.2).owStage = none := hs
  simp only [turnFetch, moveFetch, mainFetch, hp', hs']

/-- The sequencer's turn taken whole, or in slices where the tick does not use the line, runs the row of `ow_state` (R210). -/
theorem step_tick (s : State) (h : s.phase = .running) {pace : Pace} (ht : s.env.drawTurn.1 = .move (.main pace))
    (hp : s.pendingStores = []) (hs : s.owStage = none) (hm : s.mainPos = .owSeq)
    (hw : pace = .wholeTick ∨ firstStage Config.params s = none) :
    step s = exec (decodeTick s.owState) ((s.setEnv s.env.drawTurn.2).setMainPos .ntc) := by
  rw [step_main s h ht hp hs]
  have hm' : (s.setEnv s.env.drawTurn.2).mainPos = .owSeq := hm
  simp only [agentFetch, hm']
  cases pace with
  | wholeTick => rfl
  | oneSlice =>
    have hf : firstStage Config.params ((s.setEnv s.env.drawTurn.2).setMainPos .ntc) = none := by
      rcases hw with hw | hw
      · exact absurd hw (by decide)
      · exact hw
    simp only [tickFetch, hf]
    rfl

/-- The sequencer's turn in slices, where the tick uses the line, only begins the tick (R189). -/
theorem step_begin (s : State) (h : s.phase = .running) (ht : s.env.drawTurn.1 = .move (.main .oneSlice))
    (hp : s.pendingStores = []) (hs : s.owStage = none) (hm : s.mainPos = .owSeq) (st : TickStage)
    (hf : firstStage Config.params s = some st) :
    step s = .next (beginTick st ((s.setEnv s.env.drawTurn.2).setMainPos .ntc)) := by
  rw [step_main s h ht hp hs]
  have hm' : (s.setEnv s.env.drawTurn.2).mainPos = .owSeq := hm
  have hf' : firstStage Config.params ((s.setEnv s.env.drawTurn.2).setMainPos .ntc) = some st := hf
  simp only [agentFetch, hm', tickFetch, hf']
  rfl

/-! ## One inversion lemma for the step -/

/-- Everything a step can do: a `BOOT` write, an input's arrival, a bus event, a host byte, a tick, the begin or a
slice of one, a begun store, a pass of the loop, an `NTC` iteration, or a directly called transport primitive. -/
theorem step_cases (s t : State) (h : step s = .next t) :
    (s.phase ≠ .running ∧ ∃ a v ph, (a = 250#8 ∨ a = 251#8 ∨ a = 253#8) ∧ t = (s.setMap a v).setPhase ph) ∨
    (s.phase = .running ∧
      ((s.env.drawTurn.1 = .move .bsp ∧ s.busQueue = [] ∧ t = s.setEnv s.env.drawTurn.2) ∨
        (s.env.drawTurn.1 = .move .bsp ∧ ∃ w q, s.busQueue = w :: q ∧
          exec (decodeBus Config.params s.busMode w) ((s.setEnv s.env.drawTurn.2).setBusQueue q) = .next t) ∨
        (∃ w, s.env.drawTurn.1 = .move (.busMaster w) ∧
          t = (s.setEnv s.env.drawTurn.2).arriveEvent w) ∨
        (∃ b, s.env.drawTurn.1 = .move (.host b) ∧ t = (s.setEnv s.env.drawTurn.2).setHostIn (s.hostIn ++ [b])) ∨
        (∃ c, s.env.drawTurn.1 = .call c ∧ exec (lineInstr c) (s.setEnv s.env.drawTurn.2) = .next t) ∨
        (∃ pace, s.env.drawTurn.1 = .move (.main pace) ∧
          ((∃ st rest, s.pendingStores = st :: rest ∧
              t = ((s.setEnv s.env.drawTurn.2).setMap st.index st.value).setPending rest) ∨
            (s.pendingStores = [] ∧ ∃ mp, t = (s.setEnv s.env.drawTurn.2).setMainPos mp) ∨
            (s.pendingStores = [] ∧ s.mainPos = .bridge ∧ ∃ b q, s.hostIn = b :: q ∧
              exec (decodeHost s.bstate b) (((s.setEnv s.env.drawTurn.2).setHostIn q).setMainPos .spoofer) = .next t) ∨
            (s.pendingStores = [] ∧ s.owStage = none ∧ s.mainPos = .owSeq ∧
              exec (decodeTick s.owState) ((s.setEnv s.env.drawTurn.2).setMainPos .ntc) = .next t) ∨
            (s.pendingStores = [] ∧ s.mainPos = .ntc ∧ ∃ e l,
              t = ((s.setEnv e).setPending ((onceEach l).map ntcStore)).setMainPos .delay) ∨
            (s.owStage = none ∧ ∃ st, firstStage Config.params s = some st ∧
              t = beginTick st ((s.setEnv s.env.drawTurn.2).setMainPos .ntc)) ∨
            (∃ st, s.owStage = some st ∧ t = stageMove Config.params st (s.setEnv s.env.drawTurn.2)))))) := by
  unfold step fetch at h
  split at h
  · next hp =>
    refine .inl ⟨by simp [hp], 250#8, Config.params.fwVersionMajor, .bootMinor, .inl rfl, ?_⟩
    exact (Host.Outcome.next.inj h).symm
  · next hp =>
    refine .inl ⟨by simp [hp], 251#8, Config.params.fwVersionMinor, .bootCurve, .inr (.inl rfl), ?_⟩
    exact (Host.Outcome.next.inj h).symm
  · next hp =>
    refine .inl ⟨by simp [hp], 253#8, Config.params.curveSelect, .running, .inr (.inr rfl), ?_⟩
    exact (Host.Outcome.next.inj h).symm
  · next hp =>
    refine .inr ⟨hp, ?_⟩
    simp only [State.takeTurn] at h
    unfold turnFetch at h
    split at h
    · next m hm =>
      unfold moveFetch at h
      split at h
      · unfold bspFetch at h
        split at h
        · next hq => exact .inl ⟨hm, hq, (Host.Outcome.next.inj h).symm⟩
        · next w q hq => exact .inr (.inl ⟨hm, w, q, hq, h⟩)
      · next pace =>
        refine .inr (.inr (.inr (.inr (.inr ⟨pace, hm, ?_⟩))))
        unfold mainFetch at h
        split at h
        · next st rest hst => exact .inl ⟨st, rest, hst, (Host.Outcome.next.inj h).symm⟩
        · next hst =>
          split at h
          · next st hs =>
            exact .inr (.inr (.inr (.inr (.inr (.inr ⟨st, hs, (Host.Outcome.next.inj h).symm⟩)))))
          · next hs =>
            unfold agentFetch at h
            split at h
            · next hmp =>
              split at h
              · exact .inr (.inl ⟨hst, _, (Host.Outcome.next.inj h).symm⟩)
              · next b q hq => exact .inr (.inr (.inl ⟨hst, hmp, b, q, hq, h⟩))
            · exact .inr (.inl ⟨hst, _, (Host.Outcome.next.inj h).symm⟩)
            · next hmp =>
              unfold tickFetch at h
              split at h
              · exact .inr (.inr (.inr (.inl ⟨hst, hs, hmp, h⟩)))
              · split at h
                · next st hf =>
                  exact .inr (.inr (.inr (.inr (.inr (.inl ⟨hs, st, hf, (Host.Outcome.next.inj h).symm⟩)))))
                · exact .inr (.inr (.inr (.inl ⟨hst, hs, hmp, h⟩)))
            · next hmp => exact .inr (.inr (.inr (.inr (.inl ⟨hst, hmp, _, _, (Host.Outcome.next.inj h).symm⟩))))
            · exact .inr (.inl ⟨hst, _, (Host.Outcome.next.inj h).symm⟩)
      · next w => exact .inr (.inr (.inl ⟨w, hm, (Host.Outcome.next.inj h).symm⟩))
      · next b => exact .inr (.inr (.inr (.inl ⟨b, hm, (Host.Outcome.next.inj h).symm⟩)))
    · next c hc => exact .inr (.inr (.inr (.inr (.inl ⟨c, hc, h⟩))))

/-- Every step answers a next state (R256). -/
theorem step_next (s : State) : ∃ t, step s = .next t := by
  unfold step runFetch
  split
  · exact ⟨_, rfl⟩
  · exact exec_next _ _

/-- A run goes on from the state its first step answers. -/
theorem steps_succ (n : Nat) (s t : State) (h : step s = .next t) : steps (n + 1) s = steps n t := by
  rw [steps, h]

/-- Two runs one after the other. -/
theorem steps_add (m n : Nat) (s t : State) (h : steps m s = .next t) : steps (m + n) s = steps n t := by
  induction m generalizing s with
  | zero => rw [Nat.zero_add, Host.Outcome.next.inj h]
  | succ m ih =>
    obtain ⟨u, hu⟩ := step_next s
    rw [steps_succ m s u hu] at h
    rw [show m + 1 + n = (m + n) + 1 by omega, steps_succ (m + n) s u hu, ih u h]

/-- A list of instructions goes on from the state its first one answers. -/
theorem execAll_cons (i : Instr) (l : List Instr) (s t : State) (h : exec i s = .next t) :
    execAll (i :: l) s = execAll l t := by
  rw [execAll, h]

end Sys2Proof.Machine
end

