-- ==== Sys2Proof/Laws/Slices.lean ====
section
/-! SUPPORT. The tick in slices (R189): what a slice can change, that what the bus-slave handler does and what a slice does are
independent, and that the slices of a tick end where the whole tick ends. -/

namespace Sys2Proof.Machine

/-! ## What a slice can change -/

/-- The end of the tick in `Reading` as one record (R214, R216). -/
theorem finishReading_eq (s : State) :
    ∃ e, e.turns = s.env.turns ∧ finishReading s =
      { s with
        owState := .idle, owTicks := 0, env := e
        pendingStores := s.pendingStores ++ pairStores (temperature s).2.env.drawOrder.1 200#8 (temperature s).1 } := by
  refine ⟨(temperature s).2.env.drawOrder.2, ?_, ?_⟩
  · have order : ∀ e : Env, e.drawOrder.2.turns = e.turns := fun e => by unfold Env.drawOrder; split <;> rfl
    rw [order]
    unfold temperature
    dsimp only
    split
    · rfl
    · show (Env.drawTemp s.env).2.turns = _
      unfold Env.drawTemp
      split <;> rfl
  · obtain ⟨e, he⟩ := temperature_state s
    change ((store16 200#8 (temperature s).1 (temperature s).2).setOwState .idle).setOwTicks 0 = _
    generalize (temperature s).1 = v
    generalize (temperature s).2 = u at he ⊢
    subst he
    rfl

/-- The fields a slice may write, given by the values they take. -/
def State.sliced (s : State) (os : OwState) (n : Nat) (tm : OwTiming) (lo hi : Byte) (st : Option TickStage) (v : Option Byte)
    (l : List Exchange) (ps : List Store) (e : Env) : State :=
  { s with
    owState := os, owTicks := n, owTiming := tm, owScratchLo := lo, owScratchHi := hi, owStage := st, owSending := v
    owLog := l, pendingStores := ps, env := e }

/-- A slice changes the sequencer's own registers, the line, the begun stores and the environment, never the schedule. -/
def State.SliceOf (s t : State) : Prop :=
  ∃ os n tm lo hi st v l ps e, e.turns = s.env.turns ∧ t = s.sliced os n tm lo hi st v l ps e

theorem sliceOf_self (s : State) : s.SliceOf s := ⟨_, _, _, _, _, _, _, _, _, _, rfl, rfl⟩

theorem SliceOf_trans {s t u : State} (h : s.SliceOf t) (h' : t.SliceOf u) : s.SliceOf u := by
  obtain ⟨os, n, tm, lo, hi, st, v, l, ps, e, he, rfl⟩ := h
  obtain ⟨os', n', tm', lo', hi', st', v', l', ps', e', he', rfl⟩ := h'
  exact ⟨_, _, _, _, _, _, _, _, _, _, he'.trans he, rfl⟩

theorem finishReading_slice (s : State) : s.SliceOf (finishReading s) := by
  obtain ⟨e, he, h⟩ := finishReading_eq s
  rw [h]
  exact ⟨_, _, _, _, _, _, _, _, _, _, he, rfl⟩

theorem goStart_slice (bits : List Bool) (s : State) : s.SliceOf (goStart bits s) := by
  cases bits <;> exact ⟨_, _, _, _, _, _, _, _, _, _, rfl, rfl⟩

theorem goHigh_slice (left : List Nat) (r : Byte) (s : State) : s.SliceOf (goHigh left r s) := by
  cases left with
  | nil => exact SliceOf_trans ⟨_, _, _, _, _, _, _, _, _, _, rfl, rfl⟩ (finishReading_slice _)
  | cons i rest => exact ⟨_, _, _, _, _, _, _, _, _, _, rfl, rfl⟩

theorem goLow_slice (left : List Nat) (r : Byte) (s : State) : s.SliceOf (goLow left r s) := by
  cases left with
  | nil =>
    have h : s.SliceOf (s.setScratchLo r) := ⟨_, _, _, _, _, _, _, _, _, _, rfl, rfl⟩
    exact SliceOf_trans h (goHigh_slice (List.range 8) 0#8 (s.setScratchLo r))
  | cons i rest => exact ⟨_, _, _, _, _, _, _, _, _, _, rfl, rfl⟩

theorem goCommand_slice (bits : List Bool) (s : State) : s.SliceOf (goCommand bits s) := by
  cases bits with
  | nil => exact goLow_slice (List.range 8) 0#8 s
  | cons x rest => exact ⟨_, _, _, _, _, _, _, _, _, _, rfl, rfl⟩

/-- An echo drawn is no entry of the schedule. -/
theorem Env.drawEcho_turns (e : Env) : e.drawEcho.2.turns = e.turns := by rw [Env.drawEcho_env]

theorem owReset_slice (p : Params) (s : State) : s.SliceOf (owReset p s).2 :=
  ⟨_, _, _, _, _, _, _, _, _, _, Env.drawEcho_turns _, rfl⟩

theorem touchBit_slice (p : Params) (x : Bool) (s : State) : s.SliceOf (touchBit p x s).2 :=
  ⟨_, _, _, _, _, _, _, _, _, _, Env.drawEcho_turns _, rfl⟩

theorem readBit_slice (p : Params) (s : State) : s.SliceOf (readBit p s).2 :=
  ⟨_, _, _, _, _, _, _, _, _, _, Env.drawEcho_turns _, rfl⟩

theorem sendHalf_slice (p : Params) (st : TickStage) (s : State) : s.SliceOf (sendHalf p st s) := by
  unfold sendHalf
  split <;> exact ⟨_, _, _, _, _, _, _, _, _, _, rfl, rfl⟩

theorem echoHalf_slice (p : Params) (st : TickStage) (s : State) : s.SliceOf (echoHalf p st s) := by
  cases st with
  | startReset =>
    simp only [echoHalf]
    refine SliceOf_trans (owReset_slice p s) ?_
    split
    · exact goStart_slice _ _
    · exact ⟨_, _, _, _, _, _, _, _, _, _, rfl, rfl⟩
  | startSlots x rest => exact SliceOf_trans (touchBit_slice p x s) (goStart_slice _ _)
  | readReset =>
    simp only [echoHalf]
    refine SliceOf_trans (owReset_slice p s) ?_
    split
    · exact goCommand_slice _ _
    · exact SliceOf_trans ⟨_, _, _, _, _, _, _, _, _, _, rfl, rfl⟩ (finishReading_slice _)
  | commandSlots x rest => exact SliceOf_trans (touchBit_slice p x s) (goCommand_slice _ _)
  | lowSlots i rest r => exact SliceOf_trans (readBit_slice p s) (goLow_slice _ _ _)
  | highSlots i rest r => exact SliceOf_trans (readBit_slice p s) (goHigh_slice _ _ _)

theorem stageMove_slice (p : Params) (st : TickStage) (s : State) : s.SliceOf (stageMove p st s) := by
  unfold stageMove
  split
  · exact sendHalf_slice p st s
  · exact SliceOf_trans ⟨_, _, _, _, _, _, _, _, _, _, rfl, rfl⟩ (echoHalf_slice p st (s.setSending none))

theorem beginTick_slice (st : TickStage) (s : State) : s.SliceOf (beginTick st s) := by
  unfold beginTick
  split <;> exact ⟨_, _, _, _, _, _, _, _, _, _, rfl, rfl⟩

/-! ## The invariant through a slice -/

/-- What holds between two exchanges of a tick in `ow_state = os`, its stage apart. -/
def State.Between (os : OwState) (s : State) : Prop :=
  s.map.wf = true ∧ s.owTicks = 0 ∧ s.pendingStores.all Store.inZone = true ∧ s.owTiming = .bitTiming ∧
    s.owSending = none ∧ s.owState = os ∧ s.markSound = true

theorem inv_of_between {p : Params} {os : OwState} {s : State} (h : s.Between os)
    (hs : ∀ st, s.owStage = some st → st.within = os) : s.inv p = true := by
  obtain ⟨h1, h2, h3, h4, h5, h6, h7⟩ := h
  simp only [State.inv, Bool.and_eq_true]
  refine ⟨⟨⟨⟨⟨h1, ?_⟩, h3⟩, ?_⟩, ?_⟩, h7⟩
  · unfold State.ticksInRange
    split <;> simp [h2, Params.n1, Params.n2]
  · unfold State.timingSet
    split <;> simp [h4]
  · unfold State.stageSound
    split
    · simp [h5]
    · next st hst => simp [h2, h5, h6, hs st hst]

theorem finishReading_inv {p : Params} {os : OwState} {s : State} (h : s.Between os) (hs : s.owStage = none) :
    (finishReading s).inv p = true := by
  obtain ⟨e, -, he⟩ := finishReading_eq s
  obtain ⟨h1, -, h3, h4, h5, -, h7⟩ := h
  rw [he]
  refine inv_of_between (os := .idle) ⟨h1, rfl, ?_, h4, h5, rfl, h7⟩
    fun st hst => absurd (hs.symm.trans hst) (by simp)
  simp only [List.all_append, h3, Bool.true_and]
  rcases pairStores_cases (temperature s).2.env.drawOrder.1 200#8 (temperature s).1 with h | h <;> rw [h] <;> simp [Store.inZone]

theorem goStart_inv {p : Params} {s : State} (h : s.Between .idle) (bits : List Bool) :
    (goStart bits s).inv p = true := by
  cases bits with
  | nil =>
    obtain ⟨h1, h2, h3, h4, h5, -, h7⟩ := h
    exact inv_of_between (os := .converting) ⟨h1, h2, h3, h4, h5, rfl, h7⟩ (by simp [goStart])
  | cons x rest => exact inv_of_between h (by simp [goStart, TickStage.within])

theorem goHigh_inv {p : Params} {s : State} (h : s.Between .reading) (left : List Nat) (r : Byte) :
    (goHigh left r s).inv p = true := by
  cases left with
  | nil => exact finishReading_inv (s := (s.setScratchHi r).setStage none) h rfl
  | cons i rest => exact inv_of_between h (by simp [goHigh, TickStage.within])

theorem goLow_inv {p : Params} {s : State} (h : s.Between .reading) (left : List Nat) (r : Byte) :
    (goLow left r s).inv p = true := by
  cases left with
  | nil => exact goHigh_inv (s := s.setScratchLo r) h _ _
  | cons i rest => exact inv_of_between h (by simp [goLow, TickStage.within])

theorem goCommand_inv {p : Params} {s : State} (h : s.Between .reading) (bits : List Bool) :
    (goCommand bits s).inv p = true := by
  cases bits with
  | nil => exact goLow_inv h _ _
  | cons x rest => exact inv_of_between h (by simp [goCommand, TickStage.within])

theorem touchBit_between {p : Params} {os : OwState} {x : Bool} {s : State} (h : s.Between os) :
    (touchBit p x s).2.Between os := by
  rw [touchBit_eq]
  exact h

theorem readBit_between {p : Params} {os : OwState} {s : State} (h : s.Between os) : (readBit p s).2.Between os := by
  rw [readBit_eq]
  exact h

/-- What the invariant says of a state with a tick in progress (R189, R210). -/
theorem inv_stage {p : Params} {s : State} (h : s.inv p = true) {st : TickStage} (hst : s.owStage = some st) :
    s.map.wf = true ∧ s.owTicks = 0 ∧ s.pendingStores.all Store.inZone = true ∧ s.owState = st.within ∧
      (s.owSending = none ∨ s.owSending = some (st.sends p)) ∧ (st.isReset = true ∨ s.owTiming = .bitTiming) ∧
      s.markSound = true := by
  simp only [State.inv, Bool.and_eq_true, State.stageSound, hst, Bool.or_eq_true, beq_iff_eq] at h
  obtain ⟨⟨⟨⟨⟨h1, -⟩, h3⟩, h4⟩, ⟨h5, h6⟩, h7⟩, h8⟩ := h
  refine ⟨h1, h6, h3, h5, h7, ?_, h8⟩
  cases st <;> simp_all [State.timingSet, TickStage.isReset]

/-- A slice keeps the invariant. -/
theorem stageMove_inv {p : Params} {s : State} (h : s.inv p = true) {st : TickStage} (hst : s.owStage = some st) :
    (stageMove p st s).inv p = true := by
  obtain ⟨h1, h2, h3, h4, h5, h6, h8⟩ := inv_stage h hst
  unfold stageMove
  split
  · have ht : (sendHalf p st s).owTicks = 0 := by unfold sendHalf; split <;> exact h2
    have hs : (sendHalf p st s).owState = st.within := by unfold sendHalf; split <;> exact h4
    have hg : (sendHalf p st s).owStage = some st := by unfold sendHalf; split <;> exact hst
    have hv : (sendHalf p st s).owSending = some (st.sends p) := by unfold sendHalf; split <;> rfl
    simp only [State.inv, Bool.and_eq_true]
    refine ⟨⟨⟨⟨⟨?_, ?_⟩, ?_⟩, ?_⟩, ?_⟩, by unfold sendHalf; split <;> exact h8⟩
    · unfold sendHalf; split <;> exact h1
    · unfold State.ticksInRange; split <;> simp [ht, Params.n1, Params.n2]
    · unfold sendHalf; split <;> exact h3
    · cases st <;> simp_all [State.timingSet, TickStage.isReset, sendHalf]
    · simp [State.stageSound, hg, hs, ht, hv]
  · have hs : st.isReset = false → (s.setSending none).Between st.within := fun h =>
      ⟨h1, h2, h3, by simpa [h] using h6, rfl, h4, h8⟩
    have hr : ((owReset p (s.setSending none)).2).Between st.within := by
      rw [owReset_eq]
      exact ⟨h1, h2, h3, rfl, rfl, h4, h8⟩
    cases st with
    | startReset =>
      have hb : ((owReset p (s.setSending none)).2).Between .idle := hr
      simp only [echoHalf]
      generalize owReset p (s.setSending none) = u at hb
      split
      · exact goStart_inv hb _
      · exact inv_of_between (os := .idle) hb (by simp)
    | readReset =>
      have hb : ((owReset p (s.setSending none)).2).Between .reading := hr
      simp only [echoHalf]
      generalize owReset p (s.setSending none) = u at hb
      split
      · exact goCommand_inv hb _
      · exact finishReading_inv (s := u.2.setStage none) hb rfl
    | startSlots x rest => exact goStart_inv (touchBit_between (hs rfl)) rest
    | commandSlots x rest => exact goCommand_inv (touchBit_between (hs rfl)) rest
    | lowSlots i rest r => exact goLow_inv (readBit_between (hs rfl)) rest _
    | highSlots i rest r => exact goHigh_inv (readBit_between (hs rfl)) rest _

/-- Beginning a tick keeps the invariant. -/
theorem beginTick_inv {p : Params} {s : State} (h : s.inv p = true) (hs : s.owStage = none) {st : TickStage}
    (hf : firstStage p s = some st) : (beginTick st s).inv p = true := by
  simp only [State.inv, Bool.and_eq_true, State.timingSet, State.stageSound, hs, beq_iff_eq, Bool.or_eq_true] at h
  obtain ⟨⟨⟨⟨⟨h1, h2⟩, h3⟩, h4⟩, h5⟩, h8⟩ := h
  simp only [State.inv, Bool.and_eq_true]
  obtain ho | ho | ho := owState_cases s
  · have e : st = .startReset := by
      simp only [firstStage, ho] at hf
      split at hf <;> simp_all
    subst e
    have e : beginTick .startReset s = (s.setOwTicks 0).setStage (some .startReset) := by simp only [beginTick, ho]
    rw [e]
    refine ⟨⟨⟨⟨⟨by simpa using h1, ?_⟩, by simpa using h3⟩, ?_⟩, ?_⟩, h8⟩
    · simp [State.ticksInRange, ho, Params.n1]
    · simp [State.timingSet]
    · simp [State.stageSound, TickStage.within, ho, h5]
  · simp [firstStage, ho] at hf
  · have e : st = .readReset := by simpa [firstStage, ho] using hf.symm
    subst e
    simp only [State.ticksInRange, ho, beq_iff_eq] at h2
    have e : beginTick .readReset s = s.setStage (some .readReset) := by simp only [beginTick, ho]
    rw [e]
    refine ⟨⟨⟨⟨⟨by simpa using h1, ?_⟩, by simpa using h3⟩, ?_⟩, ?_⟩, h8⟩
    · simp [State.ticksInRange, ho, h2]
    · simp [State.timingSet]
      simp [ho] at h4
      exact .inl h4
    · simp [State.stageSound, TickStage.within, ho, h2, h5]

/-! ## Slices and bus events are independent (R189) -/

/-- The fields the bus-slave handler may write, its queue, the mark and the schedule. -/
def State.around (s : State) (m : Memory) (w : WriteState) (c : Byte) (o : List BusReport) (r : Bool) (q : List EventWord)
    (ts : List Turn) : State :=
  { s with
    map := m, writeState := w, cursor := c, busOut := o, refused := r, busQueue := q, env := { s.env with turns := ts } }

theorem Env.drawEcho_withTurns (e : Env) (ts : List Turn) :
    ({ e with turns := ts } : Env).drawEcho = (e.drawEcho.1, { e.drawEcho.2 with turns := ts }) := by
  cases e with
  | mk turns echoes orders temps ntc drawn => cases echoes <;> rfl

section Around

variable (m : Memory) (w : WriteState) (c : Byte) (o : List BusReport) (r : Bool) (q : List EventWord) (ts : List Turn)

theorem owReset_around (p : Params) (s : State) :
    owReset p (s.around m w c o r q ts) = ((owReset p s).1, (owReset p s).2.around m w c o r q ts) := by
  have h := Env.drawEcho_withTurns s.env ts
  rw [owReset_eq, owReset_eq]
  simp only [State.around, h]

theorem touchBit_around (p : Params) (x : Bool) (s : State) :
    touchBit p x (s.around m w c o r q ts) = ((touchBit p x s).1, (touchBit p x s).2.around m w c o r q ts) := by
  have h := Env.drawEcho_withTurns s.env ts
  rw [touchBit_eq, touchBit_eq]
  simp only [State.around, h]

theorem readBit_around (p : Params) (s : State) :
    readBit p (s.around m w c o r q ts) = ((readBit p s).1, (readBit p s).2.around m w c o r q ts) := by
  have h := Env.drawEcho_withTurns s.env ts
  rw [readBit_eq, readBit_eq]
  simp only [State.around, h]

theorem finishReading_around (s : State) :
    finishReading (s.around m w c o r q ts) = (finishReading s).around m w c o r q ts := by
  have temp : ∀ u : State, temperature (u.around m w c o r q ts) = ((temperature u).1, (temperature u).2.around m w c o r q ts) := by
    intro u
    unfold temperature
    dsimp only [State.around]
    split
    · rfl
    · cases h : u.env.temps <;> simp [Env.drawTemp, h, State.setEnv]
  have store : ∀ (v : Half) (u : State), store16 200#8 v (u.around m w c o r q ts) = (store16 200#8 v u).around m w c o r q ts := by
    intro v u
    cases h : u.env.orders <;> simp [store16, Env.drawOrder, h, State.setEnv, State.setPending, State.around]
  simp only [finishReading, temp, store]
  rfl

theorem goStart_around (bits : List Bool) (s : State) :
    goStart bits (s.around m w c o r q ts) = (goStart bits s).around m w c o r q ts := by cases bits <;> rfl

theorem goHigh_around (left : List Nat) (b : Byte) (s : State) :
    goHigh left b (s.around m w c o r q ts) = (goHigh left b s).around m w c o r q ts := by
  cases left with
  | nil => exact finishReading_around m w c o r q ts ((s.setScratchHi b).setStage none)
  | cons i rest => rfl

theorem goLow_around (left : List Nat) (b : Byte) (s : State) :
    goLow left b (s.around m w c o r q ts) = (goLow left b s).around m w c o r q ts := by
  cases left with
  | nil => exact goHigh_around m w c o r q ts (List.range 8) 0#8 (s.setScratchLo b)
  | cons i rest => rfl

theorem goCommand_around (bits : List Bool) (s : State) :
    goCommand bits (s.around m w c o r q ts) = (goCommand bits s).around m w c o r q ts := by
  cases bits with
  | nil => exact goLow_around m w c o r q ts (List.range 8) 0#8 s
  | cons x rest => rfl

/-- A slice does the same whatever the bus-slave handler has done (R189). -/
theorem stageMove_around (p : Params) (st : TickStage) (s : State) :
    stageMove p st (s.around m w c o r q ts) = (stageMove p st s).around m w c o r q ts := by
  have half : ∀ u : State, echoHalf p st (u.around m w c o r q ts) = (echoHalf p st u).around m w c o r q ts := by
    intro u
    cases st with
    | startReset =>
      simp only [echoHalf, owReset_around]
      split
      · exact goStart_around m w c o r q ts _ _
      · rfl
    | startSlots x rest => simp only [echoHalf, touchBit_around, goStart_around]
    | readReset =>
      simp only [echoHalf, owReset_around]
      split
      · exact goCommand_around m w c o r q ts _ _
      · exact finishReading_around m w c o r q ts ((owReset p u).2.setStage none)
    | commandSlots x rest => simp only [echoHalf, touchBit_around, goCommand_around]
    | lowSlots i rest b => simp only [echoHalf, readBit_around, goLow_around]
    | highSlots i rest b => simp only [echoHalf, readBit_around, goHigh_around]
  have hs : (s.around m w c o r q ts).owSending = s.owSending := rfl
  unfold stageMove
  rw [hs]
  split
  · unfold sendHalf
    split <;> rfl
  · exact half (s.setSending none)

end Around

/-- A bus event does the same whatever a slice has done (R246). -/
theorem busEvent_sliced (p : Params) (e : BusEvent) (s : State) (os : OwState) (n : Nat) (tm : OwTiming) (lo hi : Byte)
    (st : Option TickStage) (v : Option Byte) (l : List Exchange) (ps : List Store) (ev : Env) :
    busEvent p e (s.sliced os n tm lo hi st v l ps ev) = (busEvent p e s).sliced os n tm lo hi st v l ps ev := by
  have he : (s.sliced os n tm lo hi st v l ps ev).enabled = s.enabled := rfl
  have hh : (s.sliced os n tm lo hi st v l ps ev).hook = s.hook := rfl
  have hw : (s.sliced os n tm lo hi st v l ps ev).writeState = s.writeState := rfl
  unfold busEvent
  rw [he]
  split
  · cases e with
    | addr b => dsimp only; unfold addrPhase; split <;> rfl
    | wdata b =>
      dsimp only
      unfold dataPhase
      rw [hw]
      split <;> first | rfl | (split <;> rfl)
    | rreq =>
      dsimp only
      unfold readSide
      rw [hh]
      split
      · unfold fireHook; split <;> rfl
      · rfl
  · rfl

/-! ## The slices of a tick end where the whole tick ends -/

/-- Nothing but the tick in progress is under way: what a run of slices keeps. -/
def State.Ready (s : State) : Prop := s.phase = .running ∧ s.pendingStores = [] ∧ s.owSending = none

/-- The state with the schedule given. -/
def State.withTurns (s : State) (ts : List Turn) : State := { s with env := { s.env with turns := ts } }

/-- `k` exchanges, two slices each, lead from `s` to `t`. -/
def Sliced (k : Nat) (s t : State) : Prop :=
  ∀ rest, steps (2 * k) (s.withTurns (List.replicate (2 * k) (.move (.main .oneSlice)) ++ rest)) = .next (t.withTurns rest)

theorem Sliced_zero (s : State) : Sliced 0 s s := fun _ => rfl

theorem Sliced_trans {a b : Nat} {s t u : State} (h : Sliced a s t) (h' : Sliced b t u) : Sliced (a + b) s u := by
  intro rest
  have e := h (List.replicate (2 * b) (.move (.main .oneSlice)) ++ rest)
  rw [← List.append_assoc, List.replicate_append_replicate] at e
  rw [Nat.mul_add, steps_add _ _ _ _ e, h' rest]

theorem echoHalf_withTurns (p : Params) (st : TickStage) (s : State) (ts : List Turn) :
    echoHalf p st ((s.withTurns ts).setSending none) = (echoHalf p st (s.setSending none)).withTurns ts := by
  have h := stageMove_around s.map s.writeState s.cursor s.busOut s.refused s.busQueue ts p st (s.setSending (some 0#8))
  obtain ⟨os, n, tm, lo, hi, sg, v, l, ps, e, -, hs⟩ := echoHalf_slice p st (s.setSending none)
  have h' : echoHalf p st ((s.withTurns ts).setSending none) =
      (echoHalf p st (s.setSending none)).around s.map s.writeState s.cursor s.busOut s.refused s.busQueue ts := h
  rw [h', hs]
  rfl

/-- The timing a reset's first half selects is the one its second half selects again. -/
theorem echoHalf_timing (p : Params) (st : TickStage) (s : State) (h : st.isReset = true) :
    echoHalf p st (s.setOwTiming .resetTiming) = echoHalf p st s := by
  cases st with
  | startReset | readReset => rfl
  | _ => simp [TickStage.isReset] at h

/-- One exchange in two slices. -/
theorem Sliced_one (s : State) (h : s.Ready) (st : TickStage) (hst : s.owStage = some st) :
    Sliced 1 s (echoHalf Config.params st s) := by
  intro rest
  obtain ⟨h1, h2, h3⟩ := h
  have e1 := step_stage (s.withTurns (.move (.main .oneSlice) :: .move (.main .oneSlice) :: rest)) h1 rfl h2 st hst
  have e1' : step (s.withTurns (.move (.main .oneSlice) :: .move (.main .oneSlice) :: rest)) =
      .next (sendHalf Config.params st (s.withTurns (.move (.main .oneSlice) :: rest))) := by
    rw [e1, stageMove]
    have : ((s.withTurns (.move (.main .oneSlice) :: .move (.main .oneSlice) :: rest)).setEnv
        (s.withTurns (.move (.main .oneSlice) :: .move (.main .oneSlice) :: rest)).env.drawTurn.2).owSending = none := h3
    rw [this]
    rfl
  have key : ∀ u : State, u.phase = .running → u.pendingStores = [] → u.owStage = some st →
      u.owSending = some (st.sends Config.params) →
      u.env.turns = .move (.main .oneSlice) :: rest →
      step u = .next ((echoHalf Config.params st (u.setSending none)).withTurns rest) := by
    intro u u1 u2 u3 u4 u5
    have d := Env.drawTurn_script u.env _ _ u5
    rw [step_stage u u1 (by rw [d]) u2 st u3, d, stageMove]
    have : (u.setEnv { u.env with turns := rest }).owSending = some (st.sends Config.params) := u4
    rw [this]
    exact congrArg Host.Outcome.next (echoHalf_withTurns Config.params st u rest)
  have e2 := key (sendHalf Config.params st (s.withTurns (.move (.main .oneSlice) :: rest)))
    (by unfold sendHalf; split <;> exact h1) (by unfold sendHalf; split <;> exact h2) (by unfold sendHalf; split <;> exact hst)
    (by unfold sendHalf; split <;> rfl) (by unfold sendHalf; split <;> rfl)
  have hsend : s.setSending none = s := by
    rw [State.setSending, ← h3]
  have e3 : (echoHalf Config.params st
      ((sendHalf Config.params st (s.withTurns (.move (.main .oneSlice) :: rest))).setSending none)).withTurns rest =
      (echoHalf Config.params st s).withTurns rest := by
    have back : echoHalf Config.params st ((s.withTurns (.move (.main .oneSlice) :: rest)).setSending none) =
        (echoHalf Config.params st s).withTurns (.move (.main .oneSlice) :: rest) := by
      rw [echoHalf_withTurns, hsend]
    unfold sendHalf
    split
    · next hr =>
      have : (((s.withTurns (.move (.main .oneSlice) :: rest)).setOwTiming .resetTiming).setSending
          (some (st.sends Config.params))).setSending none =
          ((s.withTurns (.move (.main .oneSlice) :: rest)).setSending none).setOwTiming .resetTiming := rfl
      rw [this, echoHalf_timing _ _ _ hr, back]
      rfl
    · have : ((s.withTurns (.move (.main .oneSlice) :: rest)).setSending (some (st.sends Config.params))).setSending none =
          (s.withTurns (.move (.main .oneSlice) :: rest)).setSending none := rfl
      rw [this, back]
      rfl
  show steps 2 (s.withTurns (.move (.main .oneSlice) :: .move (.main .oneSlice) :: rest)) = _
  rw [steps_succ 1 _ _ e1', steps_succ 0 _ _ e2, e3]
  rfl

theorem Sliced_cons {k : Nat} {s t : State} (h : s.Ready) (st : TickStage) (hst : s.owStage = some st)
    (h' : Sliced k (echoHalf Config.params st s) t) : Sliced (k + 1) s t := by
  rw [Nat.add_comm]
  exact Sliced_trans (Sliced_one s h st hst) h'

/-- The write slots of `Idle`. -/
theorem Sliced_start (bits : List Bool) (s : State) (h : s.Ready) :
    Sliced bits.length (goStart bits s) (goStart [] (writeBits Config.params bits s)) := by
  induction bits generalizing s with
  | nil => exact Sliced_zero _
  | cons x rest ih =>
    refine Sliced_cons (by exact h) (.startSlots x rest) rfl ?_
    have e : echoHalf Config.params (.startSlots x rest) (goStart (x :: rest) s) =
        goStart rest (touchBit Config.params x s).2 := by cases rest <;> rfl
    rw [e]
    exact ih (touchBit Config.params x s).2 h

/-- The write slots of `Reading`. -/
theorem Sliced_command (bits : List Bool) (s : State) (h : s.Ready) :
    Sliced bits.length (goCommand bits s) (goCommand [] (writeBits Config.params bits s)) := by
  induction bits generalizing s with
  | nil => exact Sliced_zero _
  | cons x rest ih =>
    refine Sliced_cons (by exact h) (.commandSlots x rest) rfl ?_
    have e : echoHalf Config.params (.commandSlots x rest) (goCommand (x :: rest) s) =
        goCommand rest (touchBit Config.params x s).2 := by cases rest <;> rfl
    rw [e]
    exact ih (touchBit Config.params x s).2 h

/-- The read slots of the high byte. -/
theorem Sliced_high (left : List Nat) (b : Byte) (s : State) (h : s.Ready) :
    Sliced left.length (goHigh left b s)
      (goHigh [] (readBits Config.params left b s).1 (readBits Config.params left b s).2) := by
  induction left generalizing b s with
  | nil => exact Sliced_zero _
  | cons i rest ih =>
    refine Sliced_cons (by exact h) (.highSlots i rest b) rfl ?_
    have e : echoHalf Config.params (.highSlots i rest b) (goHigh (i :: rest) b s) =
        goHigh rest (putBit b i (readBit Config.params s).1) (readBit Config.params s).2 := by cases rest <;> rfl
    rw [e]
    exact ih _ (readBit Config.params s).2 h

/-- The read slots of the low byte. -/
theorem Sliced_low (left : List Nat) (b : Byte) (s : State) (h : s.Ready) :
    Sliced left.length (goLow left b s)
      (goLow [] (readBits Config.params left b s).1 (readBits Config.params left b s).2) := by
  induction left generalizing b s with
  | nil => exact Sliced_zero _
  | cons i rest ih =>
    refine Sliced_cons (by exact h) (.lowSlots i rest b) rfl ?_
    have e : echoHalf Config.params (.lowSlots i rest b) (goLow (i :: rest) b s) =
        goLow rest (putBit b i (readBit Config.params s).1) (readBit Config.params s).2 := by cases rest <;> rfl
    rw [e]
    exact ih _ (readBit Config.params s).2 h

theorem writeBits_append (p : Params) (a b : List Bool) (s : State) :
    writeBits p (a ++ b) s = writeBits p b (writeBits p a s) := by
  induction a generalizing s with
  | nil => rfl
  | cons x a ih => exact ih (touchBit p x s).2

theorem Ready_writeBits (p : Params) (bits : List Bool) (s : State) (h : s.Ready) : (writeBits p bits s).Ready := by
  obtain ⟨l, e, d, h1, -⟩ := writeBits_spec p bits s
  rw [h1]
  exact h

theorem Ready_readByte (p : Params) (s : State) (h : s.Ready) : (readByte p s).2.Ready := by
  obtain ⟨l, e, d, h1, -⟩ := readByte_spec p s
  rw [h1]
  exact h

end Sys2Proof.Machine
end

