-- ==== Sys2Proof/Laws/Mark.lean ====
section
/-! SUPPORT. What a step does to the bus event queue and the mark `refused` (10_state.md R46; 60_exceptions.md R243). -/

namespace Sys2Proof.Machine

/-- A step lets an event word arrive, takes the oldest one, or leaves the queue and the mark alone. -/
theorem step_mark_cases (s t : State) (h : step s = .next t) :
    (t.busQueue = s.busQueue ∧ t.refused = s.refused) ∨
    (s.phase = .running ∧ ∃ w, s.env.drawTurn.1 = .move (.busMaster w) ∧ t.busQueue = s.busQueue ++ [w] ∧
      t.refused = (s.refused || EventWord.reserved w)) ∨
    (s.phase = .running ∧ s.env.drawTurn.1 = .move .bsp ∧ ∃ w, s.busQueue = w :: t.busQueue ∧
      t.refused = (s.refused || EventWord.reserved w)) := by
  rcases step_cases s t h with ⟨-, a, v, ph, -, rfl⟩ | ⟨hr, h⟩
  · exact .inl ⟨rfl, rfl⟩
  rcases h with ⟨-, -, rfl⟩ | ⟨ht, w, q, hq, h⟩ | ⟨w, ht, rfl⟩ | ⟨b, -, rfl⟩ | ⟨c, -, h⟩ | ⟨pace, -, h⟩
  · exact .inl ⟨rfl, rfl⟩
  · have hm := exec_decodeBus_refused s ((s.setEnv s.env.drawTurn.2).setBusQueue q) t w h
    refine .inr (.inr ⟨hr, ht, w, ?_, hm⟩)
    rcases exec_bus _ (portOf_decodeBus Config.params s.busMode w) with ⟨e, he⟩ | he
    · rw [he] at h
      rw [← Host.Outcome.next.inj h, busEvent_frame]
      exact hq
    · rw [he] at h
      rw [← Host.Outcome.next.inj h]
      exact hq
  · exact .inr (.inl ⟨hr, w, ht, rfl, rfl⟩)
  · exact .inl ⟨rfl, rfl⟩
  · obtain ⟨tm, l, r, e, d, h1, -⟩ := exec_line (lineInstr c) (s.setEnv s.env.drawTurn.2) (portOf_lineInstr c)
    rw [h1] at h
    obtain rfl := Host.Outcome.next.inj h
    exact .inl ⟨rfl, rfl⟩
  · left
    have slice : ∀ u : State, u.SliceOf t → t.busQueue = u.busQueue ∧ t.refused = u.refused := by
      rintro u ⟨os, n, tm, lo, hi, st, v, l, ps, e, -, rfl⟩
      exact ⟨rfl, rfl⟩
    rcases h with ⟨st, rest, -, rfl⟩ | ⟨-, mp, rfl⟩ | ⟨-, -, b, q, -, h⟩ | ⟨-, -, -, h⟩ | ⟨-, -, e, l, rfl⟩ | ⟨-, st, -, rfl⟩ |
      ⟨st, -, rfl⟩
    · exact ⟨rfl, rfl⟩
    · exact ⟨rfl, rfl⟩
    · obtain ⟨b', h1⟩ := exec_host _ (portOf_decodeHost s.bstate b)
      rw [h1] at h
      obtain rfl := Host.Outcome.next.inj h
      rw [bridgeByte_frame]
      exact ⟨rfl, rfl⟩
    · rw [exec_tick _ (portOf_decodeTick _)] at h
      obtain rfl := Host.Outcome.next.inj h
      rw [owTick_frame]
      exact ⟨rfl, rfl⟩
    · exact ⟨rfl, rfl⟩
    · exact slice ((s.setEnv s.env.drawTurn.2).setMainPos .ntc) (beginTick_slice _ _)
    · exact slice (s.setEnv s.env.drawTurn.2) (stageMove_slice _ _ _)

/-- No step leaves a reserved word waiting unmarked (R46). -/
theorem step_markSound (s t : State) (hs : s.markSound = true) (h : step s = .next t) : t.markSound = true := by
  simp only [State.markSound, Bool.or_eq_true, Bool.not_eq_true'] at hs ⊢
  rcases step_mark_cases s t h with ⟨hq, hm⟩ | ⟨-, w, -, hq, hm⟩ | ⟨-, -, w, hq, hm⟩
  · rwa [hq, hm]
  · rw [hq, hm, List.any_append]
    rcases hs with hs | hs <;> cases hw : EventWord.reserved w <;> simp [hs, hw]
  · rw [hq] at hs
    rw [hm]
    rcases hs with hs | hs
    · simp [hs]
    · simp only [List.any_cons, Bool.or_eq_false_iff] at hs
      exact .inr hs.2

end Sys2Proof.Machine
end

