-- ==== Sys2Proof/Laws/PerInstr.lean ====
section
/-! SUPPORT. A statement made of every instruction, with one lemma per constructor: the word of a row fits the width the opcode table
gives it. -/

namespace Sys2Proof.Laws.EncodeFits

open Sys2Proof

/-- The encoded word fits the row's width. -/
def Statement (i : Instr) : Prop := ∀ p : Params, encode p i < 2 ^ i.width

theorem busDisabled (e : BusEvent) : Statement (.busDisabled e) := fun _ => BitVec.isLt _

theorem busAddrIndex (b : Byte) : Statement (.busAddrIndex b) := fun _ => BitVec.isLt _

theorem busAddrStart : Statement .busAddrStart := fun _ => BitVec.isLt _

theorem busWdataGeneric (b : Byte) : Statement (.busWdataGeneric b) := fun _ => BitVec.isLt _

theorem busWdataSubMatch : Statement .busWdataSubMatch := fun _ => BitVec.isLt _

theorem busWdataSubMismatch (b : Byte) : Statement (.busWdataSubMismatch b) := fun _ => BitVec.isLt _

theorem busWdataTarget (b : Byte) : Statement (.busWdataTarget b) := fun _ => BitVec.isLt _

theorem busWdataValueHi (b : Byte) : Statement (.busWdataValueHi b) := fun _ => BitVec.isLt _

theorem busWdataValueLo (b : Byte) : Statement (.busWdataValueLo b) := fun _ => BitVec.isLt _

theorem busRreqMirror : Statement .busRreqMirror := fun _ => BitVec.isLt _

theorem busRreqHook : Statement .busRreqHook := fun _ => BitVec.isLt _

theorem busReserved (b : Byte) : Statement (.busReserved b) := fun _ => BitVec.isLt _

theorem busReservedRreq (b : Byte) : Statement (.busReservedRreq b) := fun _ => BitVec.isLt _

theorem hostLeadR : Statement .hostLeadR := fun _ => show (0x52 : Nat) < 2 ^ 8 by decide

theorem hostRIndex (b : Byte) : Statement (.hostRIndex b) := fun _ => BitVec.isLt _

theorem hostLeadW : Statement .hostLeadW := fun _ => show (0x57 : Nat) < 2 ^ 8 by decide

theorem hostWIndex (b : Byte) : Statement (.hostWIndex b) := fun _ => BitVec.isLt _

theorem hostWValue (b : Byte) : Statement (.hostWValue b) := fun _ => BitVec.isLt _

theorem hostLeadOther (b : Byte) : Statement (.hostLeadOther b) := fun _ => BitVec.isLt _

theorem owTouchByte (v : Byte) : Statement (.owTouchByte v) := fun _ => BitVec.isLt _

theorem owReset : Statement .owReset := fun _ => BitVec.isLt _

theorem owWriteBit1 : Statement .owWriteBit1 := fun _ => BitVec.isLt _

theorem owWriteBit0 : Statement .owWriteBit0 := fun _ => BitVec.isLt _

theorem owReadBit : Statement .owReadBit := fun _ => BitVec.isLt _

theorem owWriteByte (v : Byte) : Statement (.owWriteByte v) := fun _ => BitVec.isLt _

theorem owReadByte : Statement .owReadByte := fun _ => BitVec.isLt _

theorem owCmdSelectAll : Statement .owCmdSelectAll := fun _ => BitVec.isLt _

theorem owCmdStartConversion : Statement .owCmdStartConversion := fun _ => BitVec.isLt _

theorem owCmdReadResult : Statement .owCmdReadResult := fun _ => BitVec.isLt _

theorem owSeqTickIdle : Statement .owSeqTickIdle := fun _ => show (0 : Nat) < 2 ^ 0 by decide

theorem owSeqTickConverting : Statement .owSeqTickConverting := fun _ => show (0 : Nat) < 2 ^ 0 by decide

theorem owSeqTickReading : Statement .owSeqTickReading := fun _ => show (0 : Nat) < 2 ^ 0 by decide

end Sys2Proof.Laws.EncodeFits
end

