-- ==== Sys2Proof/Tests/Slice0.lean ====
section
/-! SUPPORT. Tests. Expected results come from spec/95_test_vectors.md (the vector's name stands beside each), from the worked examples
of the rules, or from the encodings of 30_encoding.md; none was taken from the model. After them, one witness for the hypotheses of
each obligation that has any. -/

namespace Sys2Proof.Tests

open Sys2Proof Sys2Proof.Machine

/-! ## Helpers -/

/-- The defaults of R9, with values of this file's own for the OPEN parameters. -/
def testParams : Params :=
  { subByte := 0x5B#8, ackByte := 0x06#8
    stCmdStart := 0xA1#8, stSubOk := 0xA2#8, stTarget := 0xA3#8, stValueHi := 0xA4#8, stComplete := 0xA5#8, stHook := 0xA6#8
    fwVersionMajor := 7#8, fwVersionMinor := 3#8, curveSelected := true
    hookMode := .override, absentRead := .stale, n1Less1 := 1, n2Less1 := 2
    owResetByte := 0xF0#8, owWrite1Slot := 0xFF#8, owWrite0Slot := 0x00#8, owReadSlot := 0xFF#8, bitDecode := .allOnes
    cmdSelectAll := 0xCC#8, cmdStartConversion := 0x44#8, cmdReadResult := 0xBE#8 }

/-- The same with `HOOK_MODE = SIDE_EFFECT_ONLY`, `OW_BIT_DECODE = LSB` and `OW_ABSENT_READ = READ_ANYWAY`. -/
def altParams : Params := { testParams with hookMode := .sideEffectOnly, bitDecode := .lsb, absentRead := .readAnyway }

/-- A running machine with everything at its reset value. -/
def idle : State := { State.reset with phase := .running }

/-- A running machine whose map lists these cells. -/
def withMap (m : Memory) : State := { idle with map := m }

/-- A running machine with the bus-slave emulator enabled. -/
def enabled : State := withMap [(241, 1#8)]

/-- A state whose schedule and echoes are given. -/
def scripted (s : State) (turns : List Turn) (echoes : List Byte) : State :=
  { s with env := { s.env with turns := turns, echoes := echoes } }

/-- The last report on the bus port. -/
def lastReport (s : State) : Option BusReport := s.busOut.getLast?

/-! ## Which terms are well formed -/

theorem test_wf_index_is_not_start : (Instr.busAddrIndex 0xFE#8).wellFormed testParams = false := by decide

theorem test_wf_mismatch_is_not_sub : (Instr.busWdataSubMismatch 0x5B#8).wellFormed testParams = false := by decide

theorem test_wf_reserved_rreq_is_not_zero : (Instr.busReservedRreq 0#8).wellFormed testParams = false := by decide

theorem test_wf_other_lead_is_not_a_token :
    (Instr.hostLeadOther 0x52#8).wellFormed testParams = false ∧ (Instr.hostLeadOther 0x57#8).wellFormed testParams = false := by
  decide

/-! ## Decoding: words written out from R90, R98, R99, R100–R102 -/

-- BUS_EVENT: kind in bits 9:8, byte in bits 7:0
theorem test_decode_disabled :
    decode testParams (.bus ⟨false, .genericData, false⟩) 0b01_00010010 = .ok (.busDisabled (.wdata 0x12#8)) := by decide

theorem test_decode_disabled_kinds :
    decode testParams (.bus ⟨false, .awaitingIndex, true⟩) 0b00_11111110 = .ok (.busDisabled (.addr 0xFE#8)) ∧
    decode testParams (.bus ⟨false, .awaitingIndex, true⟩) 0b10_00000000 = .ok (.busDisabled .rreq) := by decide

theorem test_decode_addr_index :
    decode testParams (.bus ⟨true, .awaitingValueHi, false⟩) 0b00_11111111 = .ok (.busAddrIndex 0xFF#8) := by decide

theorem test_decode_addr_start :
    decode testParams (.bus ⟨true, .awaitingValueLo, false⟩) 0b00_11111110 = .ok .busAddrStart := by decide

theorem test_decode_generic :
    decode testParams (.bus ⟨true, .awaitingIndex, false⟩) 0b01_11111110 = .ok (.busWdataGeneric 0xFE#8) ∧
    decode testParams (.bus ⟨true, .genericData, false⟩) 0b01_00010010 = .ok (.busWdataGeneric 0x12#8) := by decide

theorem test_decode_sub_match :
    decode testParams (.bus ⟨true, .awaitingSubCommand, false⟩) 0b01_01011011 = .ok .busWdataSubMatch := by decide

theorem test_decode_sub_mismatch :
    decode testParams (.bus ⟨true, .awaitingSubCommand, false⟩) 0b01_01011010 = .ok (.busWdataSubMismatch 0x5A#8) := by decide

theorem test_decode_target :
    decode testParams (.bus ⟨true, .awaitingTargetAddr, false⟩) 0b01_00000101 = .ok (.busWdataTarget 5#8) := by decide

theorem test_decode_value_hi :
    decode testParams (.bus ⟨true, .awaitingValueHi, false⟩) 0b01_00000001 = .ok (.busWdataValueHi 1#8) := by decide

theorem test_decode_value_lo :
    decode testParams (.bus ⟨true, .awaitingValueLo, false⟩) 0b01_00101100 = .ok (.busWdataValueLo 0x2C#8) := by decide

theorem test_decode_rreq :
    decode testParams (.bus ⟨true, .awaitingTargetAddr, false⟩) 0b10_00000000 = .ok .busRreqMirror ∧
    decode testParams (.bus ⟨true, .awaitingTargetAddr, true⟩) 0b10_00000000 = .ok .busRreqHook := by decide

-- B30, B31: reserved words, enabled or not
theorem test_decode_reserved :
    decode testParams (.bus ⟨true, .genericData, false⟩) 0b11_00000000 = .ok (.busReserved 0#8) ∧
    decode testParams (.bus ⟨false, .genericData, false⟩) 0b10_00000001 = .ok (.busReservedRreq 1#8) := by decide

theorem test_decode_not_an_event : decode testParams (.bus ⟨true, .genericData, false⟩) 0b100_00000000 = .error .notAnEventWord := by
  decide

-- HOST_BYTE
theorem test_decode_host_idle :
    decode testParams (.host .idle) 0b01010010 = .ok .hostLeadR ∧ decode testParams (.host .idle) 0b01010111 = .ok .hostLeadW ∧
    decode testParams (.host .idle) 0b01010011 = .ok (.hostLeadOther 0x53#8) := by decide

theorem test_decode_host_by_state :
    decode testParams (.host .awaitIndexRead) 0x57 = .ok (.hostRIndex 0x57#8) ∧
    decode testParams (.host .awaitIndexWrite) 0x52 = .ok (.hostWIndex 0x52#8) ∧
    decode testParams (.host .awaitValue) 0x52 = .ok (.hostWValue 0x52#8) := by decide

-- OW_XCHG, OW_CMD: the default bytes of R100 and R102
theorem test_decode_line :
    decode testParams (.line .exchange) 0xA5 = .ok (.owTouchByte 0xA5#8) ∧ decode testParams (.line .reset) 0xF0 = .ok .owReset ∧
    decode testParams (.line (.writeBit true)) 0xFF = .ok .owWriteBit1 ∧
    decode testParams (.line (.writeBit false)) 0x00 = .ok .owWriteBit0 ∧ decode testParams (.line .readBit) 0xFF = .ok .owReadBit ∧
    decode testParams (.line .writeByte) 0x80 = .ok (.owWriteByte 0x80#8) ∧
    decode testParams (.line .readByte) 0xFF = .ok .owReadByte := by decide

theorem test_decode_commands :
    decode testParams (.line .command) 0xCC = .ok .owCmdSelectAll ∧
    decode testParams (.line .command) 0x44 = .ok .owCmdStartConversion ∧
    decode testParams (.line .command) 0xBE = .ok .owCmdReadResult ∧
    decode testParams (.line .command) 0xCD = .error .notACommand := by decide

-- OW_TICK has no bits
theorem test_decode_tick :
    decode testParams (.tick .idle) 0 = .ok .owSeqTickIdle ∧ decode testParams (.tick .converting) 0 = .ok .owSeqTickConverting ∧
    decode testParams (.tick .reading) 0 = .ok .owSeqTickReading := by decide

/-! ## A bare table word, and the step that runs it -/

theorem test_table_words :
    decodeTableWord 16 0x0FE = some .busAddrStart ∧ decodeTableWord 16 0x100 = some (.busWdataGeneric 0#8) ∧
    decodeTableWord 16 0x300 = some (.busReserved 0#8) ∧ decodeTableWord 8 0x52 = some .hostLeadR ∧
    decodeTableWord 8 0xF0 = some .owReset ∧ decodeTableWord 8 0x44 = some .owCmdStartConversion ∧
    decodeTableWord 8 0 = some .owSeqTickIdle := by decide +kernel

theorem test_fetch_runs_bus_word :
    step (State.reset.withFetchWord 16 0x112) = exec (.busWdataGeneric 0x12#8)
      { idle with map := [(241, 1#8)], writeState := .genericData } := rfl

theorem test_fetch_runs_host_byte : ∃ t, step (State.reset.withFetchWord 8 0x57) = .next t ∧ t.bstate = .awaitIndexWrite :=
  ⟨_, rfl, rfl⟩

/-! ## The bus-slave emulator: vectors B1–B33 -/

theorem test_B1_disabled_write :
    busEvent testParams (.wdata 0x12#8) { idle with writeState := .genericData, cursor := 0x10#8 } =
      { idle with writeState := .genericData, cursor := 0x10#8, busOut := [⟨false, none⟩] } := by decide

theorem test_B4_address_abandons_frame :
    busEvent testParams (.addr 0x20#8) { enabled with writeState := .awaitingValueHi, cursor := 3#8 } =
      { enabled with writeState := .genericData, cursor := 0x20#8, busOut := [⟨true, none⟩] } := by decide

theorem test_B7_start_restarts :
    busEvent testParams (.addr 0xFE#8) { enabled with writeState := .awaitingValueLo } =
      { enabled with writeState := .awaitingSubCommand, map := [(241, 1#8), (252, 0xA1#8)], busOut := [⟨true, none⟩] } := by
  decide

theorem test_B10_write_clamps :
    busEvent testParams (.wdata 0x5A#8) { enabled with writeState := .genericData, cursor := 255#8 } =
      { enabled with
        writeState := .genericData, cursor := 255#8, map := [(241, 1#8), (255, 0x5A#8)], busOut := [⟨true, none⟩] } := by
  decide

theorem test_B12_bus_disables_itself :
    busEvent testParams (.wdata 0#8) { enabled with writeState := .genericData, cursor := 0xF1#8 } =
      { idle with writeState := .genericData, cursor := 0xF2#8, busOut := [⟨true, none⟩] } := by decide

theorem test_B13_sub_match :
    busEvent testParams (.wdata 0x5B#8) { enabled with writeState := .awaitingSubCommand } =
      { enabled with writeState := .awaitingTargetAddr, map := [(241, 1#8), (252, 0xA2#8)], busOut := [⟨true, none⟩] } := by
  decide

theorem test_B14_sub_mismatch :
    busEvent testParams (.wdata 0x5C#8) { enabled with writeState := .awaitingSubCommand, cursor := 0x40#8 } =
      { enabled with writeState := .awaitingIndex, cursor := 0x40#8, busOut := [⟨true, none⟩] } := by decide

theorem test_B16_target :
    busEvent testParams (.wdata 5#8) { enabled with writeState := .awaitingTargetAddr } =
      { enabled with
        writeState := .awaitingValueHi, map := [(241, 1#8), (242, 5#8), (252, 0xA3#8)], busOut := [⟨true, none⟩] } := by decide

theorem test_B17_value_hi :
    busEvent testParams (.wdata 1#8) { enabled with writeState := .awaitingValueHi } =
      { enabled with
        writeState := .awaitingValueLo, map := [(241, 1#8), (243, 1#8), (252, 0xA4#8)], busOut := [⟨true, none⟩] } := by decide

theorem test_B18_value_lo :
    busEvent testParams (.wdata 0x2C#8) { enabled with writeState := .awaitingValueLo } =
      { enabled with
        writeState := .awaitingIndex, map := [(241, 1#8), (244, 0x2C#8), (252, 0xA5#8)], busOut := [⟨true, none⟩] } := by decide

theorem test_B21_mirror_read_clamps :
    busEvent testParams .rreq { withMap [(241, 1#8), (255, 0x5A#8)] with cursor := 255#8 } =
      { withMap [(241, 1#8), (255, 0x5A#8)] with cursor := 255#8, busOut := [⟨true, some 0x5A#8⟩] } := by decide

theorem test_B25_no_hook_without_capture :
    busEvent testParams .rreq { withMap [(5, 0x77#8), (241, 1#8), (242, 5#8)] with cursor := 5#8 } =
      { withMap [(5, 0x77#8), (241, 1#8), (242, 5#8)] with cursor := 6#8, busOut := [⟨true, some 0x77#8⟩] } := by decide

theorem test_B22_hook_override :
    busEvent testParams .rreq { withMap [(5, 0x77#8), (241, 1#8), (242, 5#8), (244, 0x2C#8)] with cursor := 5#8 } =
      { withMap [(5, 0x77#8), (241, 1#8), (242, 5#8), (252, 0xA6#8)] with cursor := 5#8, busOut := [⟨true, some 0x2C#8⟩] } := by
  decide

-- B27: the read comes after the clear
theorem test_B27_hook_side_effect_only :
    busEvent altParams .rreq { withMap [(241, 1#8), (242, 0xF4#8), (244, 0x2C#8)] with cursor := 0xF4#8 } =
      { withMap [(241, 1#8), (242, 0xF4#8), (252, 0xA6#8)] with cursor := 0xF5#8, busOut := [⟨true, some 0#8⟩] } := by decide

theorem test_B30_reserved : exec (.busReserved 0#8) enabled = .next { enabled with refused := true } := rfl

theorem test_B31_reserved_rreq : exec (.busReservedRreq 1#8) idle = .next { idle with refused := true } := rfl

/-! ## The host port: vectors H1–H11 -/

theorem test_H2_lead_r : exec .hostLeadR idle = .next { idle with bstate := .awaitIndexRead } := rfl

theorem test_H2_read_reply :
    bridgeByte testParams 5#8 { withMap [(5, 0xC8#8)] with bstate := .awaitIndexRead } =
      { withMap [(5, 0xC8#8)] with hostOut := [0xC8#8] } := by decide

theorem test_H3_lead_w : exec .hostLeadW idle = .next { idle with bstate := .awaitIndexWrite } := rfl

-- H5: 'R' as an index
theorem test_H5_index_by_state :
    exec (.hostWIndex 0x52#8) { idle with bstate := .awaitIndexWrite } = .next { idle with bidx := 0x52#8, bstate := .awaitValue } :=
  rfl

theorem test_H3_write_value :
    bridgeByte testParams 0xC8#8 { idle with bstate := .awaitValue, bidx := 5#8 } =
      { withMap [(5, 0xC8#8)] with bidx := 5#8, hostOut := [0x06#8] } := by decide

-- H9: writing 0 at 244 withdraws the capture, and the cell leaves the list
theorem test_H9_write_zero :
    bridgeByte testParams 0#8 { withMap [(244, 0x2C#8)] with bstate := .awaitValue, bidx := 244#8 } =
      { idle with bidx := 244#8, hostOut := [0x06#8] } := by decide

theorem test_H4_other_lead : exec (.hostLeadOther 0#8) idle = .next idle := rfl

/-! ## The transport: vectors T1–T23 -/

theorem test_touch_byte :
    exec (.owTouchByte 0xFF#8) (scripted { idle with owTiming := .bitTiming } [] [0xFF#8]) =
      .next { idle with owTiming := .bitTiming, owLog := [⟨.bitTiming, 0xFF#8, 0xFF#8⟩], owResult := .echo 0xFF#8 } := rfl

theorem test_T1_reset_absent :
    owReset testParams (scripted idle [] [0xF0#8]) =
      (false, { idle with owTiming := .bitTiming, owLog := [⟨.resetTiming, 0xF0#8, 0xF0#8⟩] }) := by decide

theorem test_T2_T4_reset_present :
    (owReset testParams (scripted idle [] [0xE0#8])).1 = true ∧ (owReset testParams (scripted idle [] [0xF1#8])).1 = true := by
  decide

theorem test_T5_write_bit_1 :
    (touchBit testParams true (scripted idle [] [0xFF#8])).1 = true ∧
    (touchBit testParams true (scripted idle [] [0xFF#8])).2.owLog = [⟨.resetTiming, 0xFF#8, 0xFF#8⟩] := by decide

theorem test_T6_write_bit_0 :
    (touchBit testParams false (scripted idle [] [0#8])).1 = false ∧
    (touchBit testParams false (scripted idle [] [0#8])).2.owLog = [⟨.resetTiming, 0#8, 0#8⟩] := by decide

theorem test_T10_read_bit :
    (readBit testParams (scripted idle [] [0xF1#8])).1 = false ∧ (readBit altParams (scripted idle [] [0xF1#8])).1 = true := by decide

theorem test_T9_read_bit :
    (readBit testParams (scripted idle [] [0xFE#8])).1 = false ∧ (readBit altParams (scripted idle [] [0xFE#8])).1 = false := by decide

/-- Eight echoes. -/
def zeros : List Byte := [0#8, 0#8, 0#8, 0#8, 0#8, 0#8, 0#8, 0#8]

theorem test_T15_write_byte_bit0_first :
    (writeByte testParams 1#8 (scripted idle [] zeros)).owLog.map Exchange.sent = [0xFF#8, 0#8, 0#8, 0#8, 0#8, 0#8, 0#8, 0#8] := by
  decide

theorem test_T17_read_byte :
    (readByte testParams (scripted idle [] [0#8, 0#8, 0#8, 0#8, 0#8, 0xFF#8, 0#8, 0#8])).1 = 0x20#8 := by decide

theorem test_T20_read_byte_modes :
    (readByte testParams (scripted idle [] [1#8, 0#8, 1#8, 0#8, 1#8, 0#8, 1#8, 0#8])).1 = 0#8 ∧
    (readByte altParams (scripted idle [] [1#8, 0#8, 1#8, 0#8, 1#8, 0#8, 1#8, 0#8])).1 = 0x55#8 := by decide

theorem test_T12_select_all :
    (writeByte testParams testParams.cmdSelectAll (scripted idle [] zeros)).owLog.map Exchange.sent =
      [0#8, 0#8, 0xFF#8, 0xFF#8, 0#8, 0#8, 0xFF#8, 0xFF#8] := by decide

theorem test_T13_start_conversion :
    (writeByte testParams testParams.cmdStartConversion (scripted idle [] zeros)).owLog.map Exchange.sent =
      [0#8, 0#8, 0xFF#8, 0#8, 0#8, 0#8, 0xFF#8, 0#8] := by decide

theorem test_T14_read_result :
    (writeByte testParams testParams.cmdReadResult (scripted idle [] zeros)).owLog.map Exchange.sent =
      [0#8, 0xFF#8, 0xFF#8, 0xFF#8, 0xFF#8, 0xFF#8, 0#8, 0xFF#8] := by decide

/-! ## The sequencer: vectors S1–S13 (`N1_OW = 2`, `N2_OW = 3`) and the conversions C1–C9, R221 -/

theorem test_S2_idle_present :
    (owTick testParams (scripted { idle with owTicks := 1 } [] (0xE0#8 :: zeros ++ zeros))).owState = .converting ∧
    (owTick testParams (scripted { idle with owTicks := 1 } [] (0xE0#8 :: zeros ++ zeros))).owTicks = 0 ∧
    (owTick testParams (scripted { idle with owTicks := 1 } [] (0xE0#8 :: zeros ++ zeros))).owLog.length = 17 := by decide

theorem test_S3_idle_absent :
    owTick testParams (scripted { idle with owTicks := 1 } [] [0xF0#8]) =
      { idle with owTiming := .bitTiming, owLog := [⟨.resetTiming, 0xF0#8, 0xF0#8⟩] } := by decide

theorem test_S4_converting_waits :
    owTick testParams { idle with owState := .converting, owTicks := 1 } = { idle with owState := .converting, owTicks := 2 } := by
  decide

theorem test_S5_converting_ends :
    owTick testParams { idle with owState := .converting, owTicks := 2 } = { idle with owState := .reading } := by decide

/-- The line script of R217: presence, 16 write slots, LSB 0x20, MSB 0x03. -/
def line217 : List Byte :=
  0xE0#8 :: zeros ++ zeros ++ [0#8, 0#8, 0#8, 0#8, 0#8, 0xFF#8, 0#8, 0#8] ++ [0xFF#8, 0xFF#8, 0#8, 0#8, 0#8, 0#8, 0#8, 0#8]

/-- A state at a `Reading` tick with the line script of R217 and the high byte stored first. -/
def reading217 : State :=
  { idle with owState := .reading, env := { Env.silent with echoes := line217, orders := [true] } }

theorem test_S6_reading :
    (owTick testParams reading217).pendingStores = [⟨200#8, 0x13#8⟩, ⟨201#8, 0x88#8⟩] ∧
    (owTick testParams reading217).owScratchLo = 0x20#8 ∧ (owTick testParams reading217).owScratchHi = 0x03#8 ∧
    (owTick testParams reading217).owState = .idle ∧ (owTick testParams reading217).owLog.length = 33 := by decide

-- S7 and S9: no presence, STALE against READ_ANYWAY
theorem test_S7_stale :
    (owTick testParams { idle with
      owState := .reading, owScratchLo := 0x20#8, owScratchHi := 3#8
      env := { Env.silent with echoes := [0xF0#8], orders := [false] } }).pendingStores =
      [⟨201#8, 0x88#8⟩, ⟨200#8, 0x13#8⟩] := by decide

-- R221 and C9: truncation toward zero, and the ends of the range
theorem test_conversion_table :
    conv 1 = 6 ∧ conv (-1) = -6 ∧ conv (-3) = -18 ∧ conv 800 = 5000 ∧ conv (-880) = -5500 ∧ conv 5242 = 32762 ∧
    conv (-5243) = -32768 ∧ fitsHalf (conv 5243) = false ∧ fitsHalf (conv (-5244)) = false := by decide

theorem test_conversion_bytes :
    rawReading 0x03#8 0x20#8 = 800 ∧ rawReading 0xFC#8 0x90#8 = -880 ∧ highByte (BitVec.ofInt 16 (-5500)) = 0xEA#8 ∧
    lowByte (BitVec.ofInt 16 (-5500)) = 0x84#8 ∧ pairStores true 200#8 0x1388#16 = [⟨200#8, 0x13#8⟩, ⟨201#8, 0x88#8⟩] := by decide

/-! ## Memory -/

theorem test_memory_form :
    Memory.write [(5, 1#8), (9, 2#8)] 7 3#8 = [(5, 1#8), (7, 3#8), (9, 2#8)] ∧
    Memory.write [(5, 1#8), (7, 3#8)] 7 0#8 = [(5, 1#8)] ∧ Memory.wf [(5, 1#8), (5, 2#8)] = false ∧
    Memory.wf [(5, 0#8)] = false ∧ Memory.wf [(256, 1#8)] = false := by decide

/-! ## Witnesses: the hypotheses of each obligation are met -/

theorem witness_BootWritesComeBeforeEveryEvent : State.reset.phase = .bootMajor := rfl

/-- The main loop's turn, a tick taken whole. -/
abbrev whole : Turn := .move (.main .wholeTick)

/-- The main loop's turn, a tick taken in slices. -/
abbrev slice : Turn := .move (.main .oneSlice)

/-- A machine whose next move is this one. -/
def next (t : Turn) (s : State) : State := scripted s [t] []

theorem witness_StepRunsTheDecodedInstruction :
    (∃ s : State, s.phase = .running ∧ s.env.drawTurn.1 = .move .bsp ∧ s.busQueue = [0x3FF#10]) ∧
    (∃ s : State, s.phase = .running ∧ s.env.drawTurn.1 = whole ∧ s.pendingStores = [] ∧ s.owStage = none ∧ s.mainPos = .bridge ∧
      s.hostIn = [0x52#8]) ∧
    (∃ s : State, s.phase = .running ∧ s.env.drawTurn.1 = whole ∧ s.pendingStores = [] ∧ s.owStage = none ∧ s.mainPos = .owSeq) ∧
    (∃ s : State, s.phase = .running ∧ s.env.drawTurn.1 = slice ∧ s.pendingStores = [] ∧ s.owStage = none ∧ s.mainPos = .owSeq ∧
      firstStage Config.params s = none) ∧
    ∃ s : State, s.phase = .running ∧ s.env.drawTurn.1 = .call .reset :=
  ⟨⟨{ next (.move .bsp) idle with busQueue := [0x3FF#10] }, rfl, rfl, rfl⟩,
    ⟨{ next whole idle with hostIn := [0x52#8] }, rfl, rfl, rfl, rfl, rfl, rfl⟩,
    ⟨{ next whole idle with mainPos := .owSeq }, rfl, rfl, rfl, rfl, rfl⟩,
    ⟨{ next slice idle with mainPos := .owSeq, owState := .converting }, rfl, rfl, rfl, rfl, rfl, rfl⟩,
    ⟨next (.call .reset) idle, rfl, rfl⟩⟩

theorem witness_MovesWithoutAnInstruction :
    (∃ s : State, s.phase = .running ∧ s.env.drawTurn.1 = .move .bsp ∧ s.busQueue = []) ∧
    (∃ s : State, s.phase = .running ∧ s.env.drawTurn.1 = .move (.busMaster 0x3FF#10)) ∧
    (∃ s : State, s.phase = .running ∧ s.env.drawTurn.1 = .move (.host 0xFF#8)) ∧
    (∀ pos : MainPos, ∃ s : State, s.phase = .running ∧ s.env.drawTurn.1 = whole ∧ s.pendingStores = [] ∧ s.owStage = none ∧
      s.mainPos = pos ∧ s.hostIn = []) ∧
    (∃ s : State, s.phase = .running ∧ s.env.drawTurn.1 = slice ∧ s.pendingStores = [] ∧ s.owStage = none ∧ s.mainPos = .owSeq ∧
      firstStage Config.params s = some .readReset) ∧
    ∃ s : State, s.phase = .running ∧ s.env.drawTurn.1 = slice ∧ s.pendingStores = [] ∧ s.owStage = some .readReset ∧
      s.owSending = none :=
  ⟨⟨next (.move .bsp) idle, rfl, rfl, rfl⟩, ⟨next (.move (.busMaster 0x3FF#10)) idle, rfl, rfl⟩,
    ⟨next (.move (.host 0xFF#8)) idle, rfl, rfl⟩,
    fun pos => ⟨{ next whole idle with mainPos := pos }, rfl, rfl, rfl, rfl, rfl, rfl⟩,
    ⟨{ next slice idle with mainPos := .owSeq, owState := .reading }, rfl, rfl, rfl, rfl, rfl, rfl⟩,
    ⟨{ next slice idle with owStage := some .readReset }, rfl, rfl, rfl, rfl, rfl⟩⟩

/-- A tick of `Reading` in slices with an event waiting: to begin it, and in the middle of its reset. -/
theorem witness_BusEventsFallBetweenAndDuringExchanges :
    (∃ s : State, s.phase = .running ∧ s.env.drawTurn.1 = slice ∧ s.pendingStores = [] ∧ s.owStage = some .readReset ∧
      s.owSending = some Config.params.owResetByte ∧ s.busQueue = [0x200#10] ∧ s.inv Config.params = true) ∧
    ∃ s : State, s.phase = .running ∧ s.pendingStores = [] ∧ s.owStage = none ∧ s.owSending = none ∧ s.mainPos = .owSeq ∧
      firstStage Config.params s = some .readReset :=
  ⟨⟨{ next slice idle with
      owState := .reading, owStage := some .readReset, owSending := some Config.params.owResetByte, busQueue := [0x200#10] },
    rfl, rfl, rfl, rfl, rfl, rfl, by
      simp [State.inv, next, scripted, idle, State.reset, State.ticksInRange, State.timingSet, State.stageSound, State.markSound,
        show EventWord.reserved 0x200#10 = false from rfl, TickStage.within, TickStage.sends, Memory.wf, Memory.wfFrom]⟩,
    ⟨{ idle with mainPos := .owSeq, owState := .reading }, rfl, rfl, rfl, rfl, rfl, rfl⟩⟩

/-- R182, R189: the two slices of a reset. A bus event taken between them is handled at reset timing and leaves the echo's use alone. -/
theorem test_event_during_a_reset :
    (stageMove testParams .readReset (scripted idle [] [0xE0#8])).owTiming = .resetTiming ∧
    (stageMove testParams .readReset (scripted idle [] [0xE0#8])).owSending = some 0xF0#8 ∧
    (stageMove testParams .readReset (busEvent testParams (.addr 0x20#8)
      (stageMove testParams .readReset { scripted idle [] [0xE0#8] with map := [(241, 1#8)] }))).owLog =
      [⟨.resetTiming, 0xF0#8, 0xE0#8⟩] ∧
    (stageMove testParams .readReset (busEvent testParams (.addr 0x20#8)
      (stageMove testParams .readReset { scripted idle [] [0xE0#8] with map := [(241, 1#8)] }))).cursor = 0x20#8 := by decide

theorem witness_BegunStoreIsOneByteStep :
    ∃ s : State, s.phase = .running ∧ s.env.drawTurn.1 = whole ∧ s.pendingStores = [⟨255#8, 1#8⟩] :=
  ⟨{ next whole idle with pendingStores := [⟨255#8, 1#8⟩] }, rfl, rfl, rfl⟩

theorem witness_NtcStoresOnlyItsCellsOnceEach :
    ∃ s : State, s.phase = .running ∧ s.env.drawTurn.1 = whole ∧ s.pendingStores = [] ∧ s.owStage = none ∧
      s.mainPos = .ntc :=
  ⟨{ next whole idle with mainPos := .ntc }, rfl, rfl, rfl, rfl, rfl⟩

/-- Enabled, two read requests waiting at the cursor 200, and the schedule of X1. -/
def between (l : List Store) : State :=
  { scripted (withMap [(201, 0xFF#8), (241, 1#8)]) [whole, .move .bsp, .move .bsp, whole] [] with
    cursor := 200#8, busQueue := [0x200#10, 0x200#10], pendingStores := l }

theorem witness_ReadBetweenTheStoresIsTorn (l : List Store) :
    (between l).phase = .running ∧ (between l).mapAt 241#8 ≠ 0#8 ∧ (between l).mapAt 244#8 = 0#8 ∧ (between l).cursor = 200#8 ∧
    (between l).busQueue = [0x200#10, 0x200#10] ∧
    (between l).env.turns = whole :: .move .bsp :: .move .bsp :: whole :: [] ∧ (between l).pendingStores = l :=
  ⟨rfl, (by decide : (1#8 : Byte) ≠ 0#8), rfl, rfl, rfl, rfl, rfl⟩

theorem witness_DisabledEventIsNotHandled : idle.mapAt 241#8 = 0#8 := by decide

theorem witness_AddressIndexLoadsTheCursor :
    enabled.mapAt 241#8 ≠ 0#8 ∧ (0x00#8 : Byte) ≠ 0xFE#8 ∧ (0xFD#8 : Byte) ≠ 0xFE#8 ∧ (0xFF#8 : Byte) ≠ 0xFE#8 := by decide

/-- Any non-zero byte at 241 enables. -/
theorem witness_AddressStartBeginsACommandFrame : (withMap [(241, 0x80#8)]).mapAt 241#8 ≠ 0#8 := by decide

theorem witness_GenericWriteStoresAtTheCursor :
    enabled.mapAt 241#8 ≠ 0#8 ∧ enabled.writeState = .awaitingIndex ∧
    { enabled with writeState := .genericData, cursor := 255#8 }.mapAt 241#8 ≠ 0#8 := by decide

theorem witness_SubCommandMatchAdvancesTheFrame :
    { enabled with writeState := .awaitingSubCommand }.mapAt 241#8 ≠ 0#8 := by decide

theorem witness_SubCommandMismatchAborts :
    { enabled with writeState := .awaitingSubCommand }.mapAt 241#8 ≠ 0#8 ∧
    { enabled with writeState := .awaitingSubCommand }.writeState = .awaitingSubCommand ∧
    ∃ b : Byte, b ≠ Config.params.subByte :=
  ⟨by decide, rfl, Config.params.subByte + 1#8, by
    generalize Config.params.subByte = x
    revert x
    decide⟩

theorem witness_TargetIsCaptured : { enabled with writeState := .awaitingTargetAddr }.mapAt 241#8 ≠ 0#8 := by decide

theorem witness_ValueHighIsCaptured : { enabled with writeState := .awaitingValueHi }.mapAt 241#8 ≠ 0#8 := by decide

theorem witness_ValueLowCompletesTheCapture : { enabled with writeState := .awaitingValueLo }.mapAt 241#8 ≠ 0#8 := by decide

/-- No hook: no capture pending; or a capture pending for another target. -/
theorem witness_MirrorReadReturnsTheCell :
    (enabled.mapAt 241#8 ≠ 0#8 ∧ ¬ (enabled.cursor = enabled.mapAt 242#8 ∧ enabled.mapAt 244#8 ≠ 0#8)) ∧
    ∃ s : State, s.mapAt 241#8 ≠ 0#8 ∧ s.mapAt 244#8 ≠ 0#8 ∧ s.cursor = 255#8 ∧
      ¬ (s.cursor = s.mapAt 242#8 ∧ s.mapAt 244#8 ≠ 0#8) :=
  ⟨by decide, { withMap [(241, 1#8), (242, 5#8), (244, 1#8)] with cursor := 255#8 }, by decide⟩

/-- The hook at an ordinary target, and at the capture's own cell 244. -/
theorem witness_HookConsumesTheCapture :
    (∃ s : State, s.mapAt 241#8 ≠ 0#8 ∧ s.cursor = s.mapAt 242#8 ∧ s.mapAt 244#8 ≠ 0#8 ∧ s.cursor = 5#8) ∧
    ∃ s : State, s.mapAt 241#8 ≠ 0#8 ∧ s.cursor = s.mapAt 242#8 ∧ s.mapAt 244#8 ≠ 0#8 ∧ s.cursor = 244#8 :=
  ⟨⟨{ withMap [(241, 1#8), (242, 5#8), (244, 0x2C#8)] with cursor := 5#8 }, by decide⟩,
    { withMap [(241, 1#8), (242, 244#8), (244, 0x2C#8)] with cursor := 244#8 }, by decide⟩

theorem witness_ReservedWordSetsTheMark : (1#8 : Byte) ≠ 0#8 ∧ (255#8 : Byte) ≠ 0#8 := by decide

/-- R46, R97: a reserved word sets the mark as it arrives, a word that spells an event does not, and a reserved word waits with the
mark set. -/
theorem test_mark_on_arrival :
    (idle.arriveEvent 0x300#10).refused = true ∧ (idle.arriveEvent 0x201#10).refused = true ∧
    (idle.arriveEvent 0x200#10).refused = false ∧ (idle.arriveEvent 0x1FF#10).refused = false ∧
    (idle.arriveEvent 0x300#10).busQueue = [0x300#10] := by decide

/-- The mark set by the arrival of 0x300 (the smallest word of kind 11) and of 0x201 in states that meet the invariant, by the bus move
that takes 0x201 in a state that does not, and kept by a step that sets none. -/
theorem witness_MarkIsSetByReservedWordsAndStays :
    (∃ s t : State, step s = .next t ∧ s.phase = .running ∧ s.env.drawTurn.1 = .move (.busMaster 0x300#10) ∧
      s.inv Config.params = true ∧ s.refused = false ∧ t.refused = true) ∧
    (∃ s t : State, step s = .next t ∧ s.phase = .running ∧ s.env.drawTurn.1 = .move (.busMaster 0x201#10) ∧
      s.inv Config.params = true ∧ s.refused = false ∧ t.refused = true) ∧
    (∃ s t : State, step s = .next t ∧ s.refused = false ∧ t.refused = true ∧ s.busQueue = [0x201#10]) ∧
    ∃ s t : State, step s = .next t ∧ s.refused = true ∧ t.refused = true :=
  have sound : ∀ w, (next (.move (.busMaster w)) idle).inv Config.params = true := fun w => by
    simp [State.inv, next, scripted, idle, State.reset, State.ticksInRange, State.timingSet, State.stageSound, State.markSound,
      Params.n1, Memory.wf, Memory.wfFrom]
  ⟨⟨next (.move (.busMaster 0x300#10)) idle, _, rfl, rfl, rfl, sound _, rfl, rfl⟩,
    ⟨next (.move (.busMaster 0x201#10)) idle, _, rfl, rfl, rfl, sound _, rfl, rfl⟩,
    ⟨{ next (.move .bsp) idle with busQueue := [0x201#10] }, _, rfl, rfl, rfl, rfl⟩,
    ⟨{ next (.move .bsp) idle with refused := true }, _, rfl, rfl, rfl⟩⟩

theorem witness_BusRowFrame :
    ∃ t, portOf (.busAddrIndex 0x10#8) = .bus ∧ exec (.busAddrIndex 0x10#8) enabled = .next t := ⟨_, rfl, rfl⟩

/-- Two states that differ outside the handler's own state. -/
theorem witness_BusEventDependsOnItsOwnState :
    ∃ t t', portOf .busAddrStart = .bus ∧ enabled ≠ { enabled with bidx := 1#8, owTicks := 3 } ∧
      exec .busAddrStart enabled = .next t ∧ exec .busAddrStart { enabled with bidx := 1#8, owTicks := 3 } = .next t' :=
  ⟨_, _, rfl, by decide, rfl, rfl⟩

/-- Five event words and five moves of the handler, from the middle of another frame. -/
theorem witness_CommandFrameIsCaptured (addr hi lo : Byte) :
    ∃ s : State, s.phase = .running ∧ s.mapAt 241#8 ≠ 0#8 ∧ s.writeState = .awaitingValueLo ∧
      s.env.turns = .move .bsp :: .move .bsp :: .move .bsp :: .move .bsp :: .move .bsp :: [] ∧
      s.busQueue = 0x0FE#10 :: eventWord 1#2 Config.params.subByte :: eventWord 1#2 addr :: eventWord 1#2 hi ::
        eventWord 1#2 lo :: [] :=
  ⟨{ scripted enabled [.move .bsp, .move .bsp, .move .bsp, .move .bsp, .move .bsp] [] with
      writeState := .awaitingValueLo
      busQueue := [0x0FE#10, eventWord 1#2 Config.params.subByte, eventWord 1#2 addr, eventWord 1#2 hi, eventWord 1#2 lo] },
    rfl, (by decide : (1#8 : Byte) ≠ 0#8), rfl, rfl, rfl⟩

/-- A frame that runs over the last cell (P5), and one that stores a non-zero byte at 241. -/
theorem witness_GenericWriteFrameStoresInOrder :
    enabled.mapAt 241#8 ≠ 0#8 ∧ (0xFD#8 : Byte) ≠ 0xFE#8 ∧
    (∀ k, (0xFD#8 : Byte).toNat + k = 241 → ([0xAA#8, 0xBB#8, 0xCC#8, 0xDD#8] : List Byte)[k]? ≠ some 0#8) ∧
    ∀ k, (0xF1#8 : Byte).toNat + k = 241 → ([2#8, 0#8] : List Byte)[k]? ≠ some 0#8 := by
  refine ⟨by decide, by decide, fun k hk => ?_, fun k hk => ?_⟩
  · have : (0xFD#8 : Byte).toNat = 253 := rfl
    omega
  · have : (0xF1#8 : Byte).toNat = 241 := rfl
    have hk0 : k = 0 := by omega
    subst hk0
    decide

/-- With no capture pending, and with one pending for a target the frame does not reach. -/
theorem witness_GenericReadFrameReturnsInOrder :
    (∀ k, k < 3 → enabled.mapAt 244#8 ≠ 0#8 → min ((255#8 : Byte).toNat + k) 255 ≠ (enabled.mapAt 242#8).toNat) ∧
    ∃ s : State, s.mapAt 241#8 ≠ 0#8 ∧ s.mapAt 244#8 ≠ 0#8 ∧
      ∀ k, k < 3 → s.mapAt 244#8 ≠ 0#8 → min ((255#8 : Byte).toNat + k) 255 ≠ (s.mapAt 242#8).toNat :=
  ⟨by decide, withMap [(241, 1#8), (242, 5#8), (244, 1#8)], by decide⟩

theorem witness_GenericWriteFrameCanDisableTheEmulator :
    enabled.mapAt 241#8 ≠ 0#8 ∧ (0xF0#8 : Byte).toNat + ([7#8] : List Byte).length = 241 ∧
    (241#8 : Byte).toNat + ([] : List Byte).length = 241 := by decide

theorem witness_CutFrameLeavesAMixedCapture : enabled.mapAt 241#8 ≠ 0#8 ∧ (0x10#8 : Byte) ≠ 0xFE#8 := by decide

theorem witness_LeadingByteStartsAFrameOrIsIgnored :
    idle.bstate = .idle ∧ (0x51#8 : Byte) ≠ 0x52#8 ∧ (0x58#8 : Byte) ≠ 0x57#8 := by decide

theorem witness_HostReadReplies : { idle with bstate := .awaitIndexRead }.bstate = .awaitIndexRead := rfl

theorem witness_HostWriteHoldsTheIndex : { idle with bstate := .awaitIndexWrite }.bstate = .awaitIndexWrite := rfl

theorem witness_HostWriteStoresAndAcknowledges : { idle with bstate := .awaitValue, bidx := 255#8 }.bstate = .awaitValue := rfl

theorem witness_HostRowFrame :
    ∃ t, portOf (.hostWValue 1#8) = .host ∧ exec (.hostWValue 1#8) { idle with bstate := .awaitValue, bidx := 255#8 } = .next t :=
  ⟨_, rfl, rfl⟩

theorem witness_HostWriteThenReadRoundTrip : idle.bstate = .idle := rfl

/-- In every decoder state, with the hook (cursor 0 is the target of a pending capture) and without. -/
theorem witness_HostEnableTakesEffectAtTheNextEvent (w : WriteState) :
    (∃ s : State, s.bstate = .awaitValue ∧ s.bidx = 241#8 ∧ s.writeState = w ∧ s.cursor = s.mapAt 242#8 ∧ s.mapAt 244#8 ≠ 0#8) ∧
    ∃ s : State, s.bstate = .awaitValue ∧ s.bidx = 241#8 ∧ s.writeState = w ∧ s.mapAt 244#8 = 0#8 :=
  ⟨⟨{ withMap [(244, 1#8)] with bstate := .awaitValue, bidx := 241#8, writeState := w }, rfl, rfl, rfl, rfl,
      (by decide : (1#8 : Byte) ≠ 0#8)⟩,
    ⟨{ idle with bstate := .awaitValue, bidx := 241#8, writeState := w }, rfl, rfl, rfl, rfl⟩⟩

theorem witness_WriteByteSendsEightSlots : (scripted idle [] (zeros ++ [1#8])).env.echoes = zeros ++ [1#8] ∧ zeros.length = 8 :=
  ⟨rfl, rfl⟩

theorem witness_ReadByteAssemblesLsbFirst : (scripted idle [] (zeros ++ [1#8])).env.echoes = zeros ++ [1#8] ∧ zeros.length = 8 :=
  ⟨rfl, rfl⟩

theorem witness_TransportRowFrame : ∃ t, portOf .owReset = .line ∧ exec .owReset idle = .next t := ⟨_, rfl, rfl⟩

/-- Below the threshold, at it with no presence, and at it with presence. -/
theorem witness_IdleTickWaitsThenStarts :
    (∃ s : State, s.owState = .idle ∧ s.owTicks + 1 < Config.params.n1 ∨ Config.params.n1 = 1) ∧
    (∃ s : State, s.owState = .idle ∧ ¬ s.owTicks + 1 < Config.params.n1 ∧ s.env.drawEcho.1 = Config.params.owResetByte) ∧
    ∃ s : State, s.owState = .idle ∧ ¬ s.owTicks + 1 < Config.params.n1 ∧ s.env.drawEcho.1 ≠ Config.params.owResetByte := by
  have at1 : ¬ Config.params.n1Less1 + 1 < Config.params.n1 := by simp [Params.n1]
  refine ⟨⟨idle, ?_⟩, ⟨{ scripted idle [] [Config.params.owResetByte] with owTicks := Config.params.n1Less1 }, rfl, at1, rfl⟩,
    { scripted idle [] [Config.params.owResetByte + 1#8] with owTicks := Config.params.n1Less1 }, rfl, at1, ?_⟩
  · by_cases h : Config.params.n1 = 1
    · exact .inr h
    · have : Config.params.n1 = Config.params.n1Less1 + 1 := rfl
      exact .inl ⟨rfl, show 0 + 1 < Config.params.n1 by omega⟩
  · show Config.params.owResetByte + 1#8 ≠ Config.params.owResetByte
    generalize Config.params.owResetByte = x
    revert x
    decide

theorem witness_ConvertingTickWaits : { idle with owState := .converting }.owState = .converting := rfl

/-- A device that answers, with the bytes 0xFF and `hi` on the line whatever `OW_BIT_DECODE` is. -/
def answering (hi : Byte) : State :=
  { idle with
    owState := .reading
    env := { Env.silent with
      turns := [whole, whole, whole]
      temps := [0x1234#16]
      echoes := (Config.params.owResetByte + 1#8) :: zeros ++ zeros ++
        (List.range 8).map (fun _ => 0xFF#8) ++ (List.range 8).map fun i => if hi.getLsbD i then 0xFF#8 else 0#8 } }

/-- Whatever the parameters are, the bytes such a device sends are the ones read. -/
theorem answering_scratch (p : Params) (s : State) (hi : Byte) (hhi : hi = 0x7F#8 ∨ hi = 0#8)
    (hs : s.env.echoes = zeros ++ zeros ++
      ((List.range 8).map (fun _ => 0xFF#8) ++ (List.range 8).map fun i => if hi.getLsbD i then 0xFF#8 else 0#8)) :
    (readScratch p s).owScratchLo = 0xFF#8 ∧ (readScratch p s).owScratchHi = hi := by
  have d1 : decodeBit p 0xFF#8 = true := by
    unfold decodeBit
    cases p.bitDecode <;> rfl
  have d0 : decodeBit p 0#8 = false := by
    unfold decodeBit
    cases p.bitDecode <;> rfl
  rcases hhi with rfl | rfl <;> simp [List.range_succ, zeros] at hs <;>
    simp [readScratch, writeByte, writeBits, bitsOf, touchBit_eq, Env.drawEcho, readByte, readBits, readBit_eq, List.range_succ, hs, d1,
      d0, putBit]

theorem answering_acquire (hi : Byte) :
    ∃ u : State, acquire Config.params (answering hi) = readScratch Config.params u ∧
      u.env.echoes = zeros ++ zeros ++
        ((List.range 8).map (fun _ => 0xFF#8) ++ (List.range 8).map fun i => if hi.getLsbD i then 0xFF#8 else 0#8) := by
  have hp : presence Config.params (Config.params.owResetByte + 1#8) = true := by
    simp only [presence, bne_iff_ne]
    generalize Config.params.owResetByte = x
    revert x
    decide
  have hr : (owReset Config.params (answering hi)).1 = true := hp
  refine ⟨(owReset Config.params (answering hi)).2, ?_, rfl⟩
  simp only [acquire]
  rw [if_pos (by simp [hr])]

/-- A raw reading inside the range of R216, and one outside it with the environment's value given. -/
theorem witness_ReadingTickBeginsTheStores :
    (∃ s t : State, s.owState = .reading ∧ exec .owSeqTickReading s = .next t ∧
      (joinBytes t.owScratchHi t.owScratchLo).toInt = 255) ∧
    ∃ s t : State, s.owState = .reading ∧ exec .owSeqTickReading s = .next t ∧ s.env.temps = 0x1234#16 :: [] ∧
      (joinBytes t.owScratchHi t.owScratchLo).toInt = 32767 := by
  have read : ∀ hi : Byte, hi = 0x7F#8 ∨ hi = 0#8 →
      (tickReading Config.params (answering hi)).owScratchLo = 0xFF#8 ∧
      (tickReading Config.params (answering hi)).owScratchHi = hi := by
    intro hi hhi
    obtain ⟨e, he⟩ := tickReading_eq Config.params (answering hi)
    obtain ⟨u, hu, hs⟩ := answering_acquire hi
    rw [he]
    simp only [hu]
    exact answering_scratch Config.params u hi hhi hs
  constructor
  · refine ⟨answering 0#8, tickReading Config.params (answering 0#8), rfl, rfl, ?_⟩
    rw [(read 0#8 (.inr rfl)).1, (read 0#8 (.inr rfl)).2]
    decide
  · refine ⟨answering 0x7F#8, tickReading Config.params (answering 0x7F#8), rfl, rfl, rfl, ?_⟩
    rw [(read 0x7F#8 (.inl rfl)).1, (read 0x7F#8 (.inl rfl)).2]
    decide

theorem witness_ReadingTickBringsTheTemperatureToTheMap (hi : Byte) :
    { answering hi with mainPos := .owSeq }.phase = .running ∧ { answering hi with mainPos := .owSeq }.pendingStores = [] ∧
    { answering hi with mainPos := .owSeq }.owStage = none ∧ (answering hi).owState = .reading ∧ (answering hi).env.turns = whole :: whole :: whole :: [] :=
  ⟨rfl, rfl, rfl, rfl, rfl⟩

theorem witness_BegunStoresReachTheMap :
    ∃ s : State, s.phase = .running ∧ s.env.turns = whole :: whole :: [] ∧
      s.pendingStores = [⟨201#8, 0x88#8⟩, ⟨200#8, 0x13#8⟩] :=
  ⟨{ scripted idle [whole, whole] [] with pendingStores := [⟨201#8, 0x88#8⟩, ⟨200#8, 0x13#8⟩] }, rfl, rfl, rfl⟩

theorem witness_TickRowFrameAndIndependence :
    ∃ t, portOf .owSeqTickReading = .tick ∧ exec .owSeqTickReading (answering 0x7F#8) = .next t := ⟨_, rfl, rfl⟩

theorem witness_IdleTicksOnlyCount : idle.owState = .idle ∧ idle.owTicks = 0 ∧ 1 < testParams.n1 := by decide

theorem witness_FirstStoreComesAtTheEndOfTheCycle :
    (scripted idle [] [0xE0#8]).owState = .idle ∧ (scripted idle [] [0xE0#8]).owTicks = 0 ∧
    (scripted idle [] [0xE0#8]).env.drawEcho.1 ≠ testParams.owResetByte := by decide

/-- Four ticks in which every echo is the byte sent: two resets. -/
theorem witness_AbsentDeviceStallsInIdle :
    (scripted idle [] [0xF0#8, 0xF0#8]).owState = .idle ∧
    (ticks testParams 4 (scripted idle [] [0xF0#8, 0xF0#8])).owLog.length = 2 ∧
    ∀ x ∈ (ticks testParams 4 (scripted idle [] [0xF0#8, 0xF0#8])).owLog.drop (scripted idle [] [0xF0#8, 0xF0#8]).owLog.length,
      x.idleLine = true := by decide

/-- A bus row with command bytes that coincide, and a command row with command bytes that differ. -/
theorem witness_DecodeEncodeAgree :
    ({ testParams with cmdReadResult := 0xCC#8 } : Params).commandsDiffer = false ∧
    (Context.bus ⟨true, .awaitingSubCommand, false⟩ = .line .command →
      ({ testParams with cmdReadResult := 0xCC#8 } : Params).commandsDiffer = true) ∧
    (Instr.busWdataSubMismatch 0#8).wellFormed { testParams with cmdReadResult := 0xCC#8 } = true ∧
    (Instr.busWdataSubMismatch 0#8).fits (.bus ⟨true, .awaitingSubCommand, false⟩) = true ∧
    testParams.commandsDiffer = true ∧ (Instr.owCmdReadResult).fits (.line .command) = true := by decide

theorem witness_DecodedWordEncodesBack :
    decode testParams (.bus ⟨true, .genericData, false⟩) 1023 = .ok (.busReserved 0xFF#8) ∧
    decode testParams (.host .idle) 255 = .ok (.hostLeadOther 0xFF#8) := by decide

theorem witness_StepKeepsTheInvariant :
    State.reset.inv testParams = true ∧ { idle with owState := .converting, owTiming := .bitTiming, owTicks := 2 }.inv testParams = true ∧
    { idle with
      owState := .reading, owStage := some (.lowSlots 7 [] 0x20#8), owSending := some 0xFF#8, owTiming := .bitTiming }.inv testParams = true ∧
    { idle with busQueue := [0x200#10, 0x3FF#10], refused := true }.inv testParams = true ∧
    ∃ t, step State.reset = .next t := ⟨by decide, by decide, by decide, by decide, _, rfl⟩

/-- A change by each kind of writer. -/
theorem witness_CellChangesHaveAWriter :
    (∃ t, step { next (.move .bsp) enabled with busQueue := [0x1AA#10] } = .next t ∧ t.map.read 0 = 0xAA#8) ∧
    (∃ t, step { next whole idle with hostIn := [0xC8#8], bstate := .awaitValue, bidx := 5#8 } = .next t ∧
      t.map.read 5 = 0xC8#8) ∧
    ∃ t, step { next whole idle with pendingStores := [⟨207#8, 1#8⟩] } = .next t ∧ t.map.read 207 = 1#8 :=
  ⟨⟨_, rfl, rfl⟩, ⟨_, rfl, rfl⟩, ⟨_, rfl, rfl⟩⟩

end Sys2Proof.Tests
end

section
/-! The state of the block: reset and boot, the steps that run no instruction, the mark, the frame of the host rows, who may write a
cell, and the invariant of the machine (10_state.md R20–R47). -/

namespace Sys2Proof.Machine

/-! ## The steps of `BOOT` (R270, R271) -/

theorem step_bootMajor (s : State) (h : s.phase = .bootMajor) :
    step s = .next ((s.setMap 250#8 Config.params.fwVersionMajor).setPhase .bootMinor) := by
  rw [step, fetch, h]
  rfl

theorem step_bootMinor (s : State) (h : s.phase = .bootMinor) :
    step s = .next ((s.setMap 251#8 Config.params.fwVersionMinor).setPhase .bootCurve) := by
  rw [step, fetch, h]
  rfl

theorem step_bootCurve (s : State) (h : s.phase = .bootCurve) :
    step s = .next ((s.setMap 253#8 Config.params.curveSelect).setPhase .running) := by
  rw [step, fetch, h]
  rfl

/-- The map after the three `BOOT` writes (R271). -/
def Memory.booted (p : Params) (m : Memory) : Memory :=
  ((m.write 250 p.fwVersionMajor).write 251 p.fwVersionMinor).write 253 p.curveSelect

theorem Memory.read_booted (p : Params) (m : Memory) (a : Nat) :
    (m.booted p).read a =
      if a = 253 then p.curveSelect else if a = 251 then p.fwVersionMinor
      else if a = 250 then p.fwVersionMajor else m.read a := by
  simp only [Memory.booted, Memory.read_write]

/-- Three steps from the start of `BOOT` make its writes and nothing else. -/
theorem steps_boot (s : State) (h : s.phase = .bootMajor) :
    steps 3 s = .next { s with map := s.map.booted Config.params, phase := .running } := by
  rw [steps_succ 2 _ _ (step_bootMajor s h), steps_succ 1 _ _ (step_bootMinor _ rfl),
    steps_succ 0 _ _ (step_bootCurve _ rfl)]
  rfl

/-- Settles O1: the reset values are those of the definition, and `steps_boot` gives the map after `BOOT`. -/
theorem resetAndBootLeaveTheRuleValues : Obligations.ResetAndBootLeaveTheRuleValues := by
  unfold Obligations.ResetAndBootLeaveTheRuleValues
  refine ⟨Memory.read_nil, rfl, rfl, rfl, rfl, rfl, rfl, rfl, rfl, rfl, rfl, rfl, rfl, _, steps_boot State.reset rfl, rfl, ?_, ?_, ?_, ?_⟩
  · simp [Memory.read_booted]
  · simp [Memory.read_booted]
  · simp [Memory.read_booted]
  · intro a h250 h251 h253
    simp [Memory.read_booted, h250, h251, h253, State.reset]

/-! ## The moves that run no instruction -/

theorem step_busMaster (s : State) (h : s.phase = .running) (w : EventWord) (ht : s.env.drawTurn.1 = .move (.busMaster w)) :
    step s = .next ((s.setEnv s.env.drawTurn.2).arriveEvent w) := by
  rw [step_running s h, ht]
  rfl

theorem step_host (s : State) (h : s.phase = .running) (b : Byte) (ht : s.env.drawTurn.1 = .move (.host b)) :
    step s = .next ((s.setEnv s.env.drawTurn.2).setHostIn (s.hostIn ++ [b])) := by
  rw [step_running s h, ht]
  rfl

/-- The next agent's turn, by the position of the main loop, where it does not depend on anything else (R161, R253). -/
theorem agentFetch_pass (p : Params) (pace : Pace) (s : State) :
    (s.mainPos = .bridge → s.hostIn = [] → agentFetch p pace s = .quiet (s.setMainPos .spoofer)) ∧
    (s.mainPos = .spoofer → agentFetch p pace s = .quiet (s.setMainPos .owSeq)) ∧
    (s.mainPos = .delay → agentFetch p pace s = .quiet (s.setMainPos .bridge)) := by
  refine ⟨fun hm hq => ?_, fun hm => ?_, fun hm => ?_⟩
  · simp only [agentFetch, hm, hq]
  · simp only [agentFetch, hm]
  · simp only [agentFetch, hm]

/-- The mark after an arrival, in the numbers of R97. -/
theorem arriveEvent_eq (s : State) (w : EventWord) :
    s.arriveEvent w =
      { s with
        busQueue := s.busQueue ++ [w]
        refused := s.refused || decide (768 ≤ w.toNat ∨ 512 < w.toNat ∧ w.toNat < 768) } := by
  have hw : EventWord.reserved w = decide (768 ≤ w.toNat ∨ 512 < w.toNat ∧ w.toNat < 768) :=
    Bool.eq_iff_iff.mpr ((reserved_iff w).trans decide_eq_true_iff.symm)
  rw [State.arriveEvent, hw]

theorem beginTick_eq (st : TickStage) (s : State) :
    beginTick st s = { s with owStage := some st, owTicks := if s.owState = .idle then 0 else s.owTicks } := by
  unfold beginTick
  split
  · next h => rw [if_pos h]; rfl
  · next h => rw [if_neg (by simp [h])]; rfl
  · next h => rw [if_neg (by simp [h])]; rfl

theorem sendHalf_eq (p : Params) (st : TickStage) (s : State) :
    sendHalf p st s =
      { s with
        owSending := some (st.sends p)
        owTiming := if st.isReset then .resetTiming else s.owTiming } := by
  unfold sendHalf
  split <;> rfl

/-- With no byte on the line a slice is the first half of an exchange (R189). -/
theorem stageMove_send (p : Params) (st : TickStage) (s : State) (h : s.owSending = none) :
    stageMove p st s = sendHalf p st s := by
  unfold stageMove
  rw [h]

/-- Settles O4, clause by clause from the step lemma of each move. -/
theorem movesWithoutAnInstruction : Obligations.MovesWithoutAnInstruction := by
  unfold Obligations.MovesWithoutAnInstruction
  refine ⟨step_bsp_empty, ?_, fun s b h ht => step_host s h b ht, ?_, ?_, ?_⟩
  · intro s w h ht
    rw [step_busMaster s h w ht, arriveEvent_eq]
    rfl
  · intro s pace h ht hp hs
    obtain ⟨hbridge, hspoofer, hdelay⟩ := agentFetch_pass Config.params pace (s.setEnv s.env.drawTurn.2)
    rw [step_main s h ht hp hs]
    refine ⟨fun hm hq => ?_, fun hm => ?_, fun hm => ?_⟩
    · rw [hbridge hm hq]; rfl
    · rw [hspoofer hm]; rfl
    · rw [hdelay hm]; rfl
  · intro s st h ht hp hs hm hf
    rw [step_begin s h ht hp hs hm st hf, beginTick_eq]
    rfl
  · intro s pace st h ht hp hs hv
    rw [step_stage s h ht hp st hs, stageMove_send _ _ (s.setEnv s.env.drawTurn.2) hv, sendHalf_eq]
    rfl

/-! ## The mark (R46, R97) -/

/-- Settles O21: a step changes the queue and the mark only by an arrival or by taking the oldest word (`step_mark_cases`), and the
invariant leaves no reserved word waiting unmarked. -/
theorem markIsSetByReservedWordsAndStays : Obligations.MarkIsSetByReservedWordsAndStays := by
  unfold Obligations.MarkIsSetByReservedWordsAndStays
  intro s t hstep
  refine ⟨fun hm => ?_, fun w hr ht hw => ?_, fun hinv hs ht => ?_, fun hs ht => ?_⟩
  · rcases step_mark_cases s t hstep with ⟨-, h⟩ | ⟨-, w, -, -, h⟩ | ⟨-, -, w, -, h⟩ <;> simp [h, hm]
  · rw [step_busMaster s hr w ht, arriveEvent_eq, decide_eq_true hw, Bool.or_true] at hstep
    rw [← Host.Outcome.next.inj hstep]
  · rcases step_mark_cases s t hstep with ⟨-, h⟩ | ⟨hr, w, hw, -, h⟩ | ⟨-, -, w, hq, h⟩
    · simp [h, hs] at ht
    · exact ⟨hr, w, hw, (reserved_iff w).mp (by simpa [h, hs] using ht)⟩
    · have hres : EventWord.reserved w = true := by simpa [h, hs] using ht
      simp [State.inv, State.markSound, hs, hq, hres] at hinv
  · rcases step_mark_cases s t hstep with ⟨-, h⟩ | ⟨hr, w, hw, -, h⟩ | ⟨hr, hbsp, w, hq, h⟩
    · simp [h, hs] at ht
    · exact ⟨hr, w, (reserved_iff w).mp (by simpa [h, hs] using ht), .inl hw⟩
    · exact ⟨hr, w, (reserved_iff w).mp (by simpa [h, hs] using ht), .inr ⟨hbsp, _, hq⟩⟩

/-! ## The host rows -/

/-- Settles O33: every host row is the byte step of some byte, which has this frame. -/
theorem hostRowFrame : Obligations.HostRowFrame := by
  unfold Obligations.HostRowFrame
  intro i s t hi hx
  obtain ⟨b, hb⟩ := exec_host i hi
  obtain rfl : bridgeByte Config.params b s = t := Host.Outcome.next.inj ((hb s).symm.trans hx)
  exact ⟨bridgeByte_frame _ b s, bridgeByte_map_of_ne _ b s, bridgeByte_cells _ b s⟩

/-! ## Who may write a cell (R60, R74) -/

theorem setMap_changed {s : State} {i v : Byte} {a : Nat} (h : (s.setMap i v).map.read a ≠ s.map.read a) : a = i.toNat :=
  not_not.mp fun hne => h (Memory.read_write_ne _ _ hne)

/-- A cell that a bus event changes: the emulator is enabled, and the cell is the cursor's, the capture's or the status. -/
theorem busEvent_changed {p : Params} {e : BusEvent} {s : State} {a : Nat}
    (h : (busEvent p e s).map.read a ≠ s.map.read a) :
    s.mapAt 241#8 ≠ 0#8 ∧ (a = s.cursor.toNat ∨ a = 242 ∨ a = 243 ∨ a = 244 ∨ a = 252) := by
  refine ⟨fun h0 => h (by rw [busEvent_disabled_map p e s h0]), not_not.mp fun hn => h ?_⟩
  obtain ⟨hc, h2, h3, h4, h5⟩ : a ≠ s.cursor.toNat ∧ a ≠ 242 ∧ a ≠ 243 ∧ a ≠ 244 ∧ a ≠ 252 := by simpa only [not_or] using hn
  exact busEvent_cells p e s a hc h2 h3 h4 h5

/-- A cell that a bus row changes is one its event changes. -/
theorem exec_bus_changed {i : Instr} {s t : State} {a : Nat} (hi : portOf i = .bus) (hx : exec i s = .next t)
    (h : t.map.read a ≠ s.map.read a) :
    s.mapAt 241#8 ≠ 0#8 ∧ (a = s.cursor.toNat ∨ a = 242 ∨ a = 243 ∨ a = 244 ∨ a = 252) := by
  rcases exec_bus i hi with ⟨e, he⟩ | he
  · obtain rfl := Host.Outcome.next.inj ((he s).symm.trans hx)
    exact busEvent_changed h
  · obtain rfl := Host.Outcome.next.inj ((he s).symm.trans hx)
    exact absurd rfl h

/-- A cell that a host row changes is the one at the held index, in `AwaitValue`. -/
theorem exec_host_changed {i : Instr} {s t : State} {a : Nat} (hi : portOf i = .host) (hx : exec i s = .next t)
    (h : t.map.read a ≠ s.map.read a) : s.bstate = .awaitValue ∧ a = s.bidx.toNat := by
  obtain ⟨-, hmap, hcells⟩ := hostRowFrame i s t hi hx
  exact ⟨not_not.mp fun hb => h (by rw [hmap hb]), not_not.mp fun ha => h (hcells a ha)⟩

theorem exec_line_keeps_map {i : Instr} {s t : State} (hi : portOf i = .line) (hx : exec i s = .next t) : t.map = s.map := by
  obtain ⟨tm, l, r, e, d, h, -⟩ := exec_line i s hi
  rw [← Host.Outcome.next.inj (h.symm.trans hx)]

theorem exec_tick_keeps_map {i : Instr} {s t : State} (hi : portOf i = .tick) (hx : exec i s = .next t) : t.map = s.map := by
  rw [← Host.Outcome.next.inj ((exec_tick i hi s).symm.trans hx), owTick_frame]

theorem SliceOf_map {s t : State} (h : s.SliceOf t) : t.map = s.map := by
  obtain ⟨os, n, tm, lo, hi, st, v, l, ps, e, -, rfl⟩ := h
  rfl

/-- Settles O59, by the cases of a step: each names its writer or keeps the map. -/
theorem cellChangesHaveAWriter : Obligations.CellChangesHaveAWriter := by
  unfold Obligations.CellChangesHaveAWriter
  intro s t a hstep hch
  have kept : t.map ≠ s.map := fun h => hch (by rw [h])
  rcases step_cases s t hstep with ⟨hp, i, v, ph, hi, rfl⟩ | ⟨hr, h⟩
  · obtain rfl : a = i.toNat := setMap_changed hch
    exact .inl ⟨hp, by rcases hi with rfl | rfl | rfl <;> decide⟩
  rcases h with ⟨-, -, rfl⟩ | ⟨ht, w, q, hq, hx⟩ | ⟨w, -, rfl⟩ | ⟨b, -, rfl⟩ | ⟨c, -, hx⟩ | ⟨pace, ht, h⟩
  · exact absurd rfl kept
  · have := exec_bus_changed (portOf_decodeBus _ _ _) hx hch
    exact .inr (.inl ⟨hr, ht, by simp [hq], this⟩)
  · exact absurd rfl kept
  · exact absurd rfl kept
  · exact absurd (exec_line_keeps_map (portOf_lineInstr c) hx) kept
  rcases h with ⟨st, rest, hp, rfl⟩ | ⟨-, mp, rfl⟩ | ⟨hp, hm, b, q, hq, hx⟩ | ⟨-, -, -, hx⟩ | ⟨-, -, e, l, rfl⟩ |
    ⟨-, st, -, rfl⟩ | ⟨st, -, rfl⟩
  · exact .inr (.inr (.inr ⟨hr, ⟨pace, ht⟩, st, rest, hp, setMap_changed (s := s.setEnv _) hch⟩))
  · exact absurd rfl kept
  · have := exec_host_changed (portOf_decodeHost _ _) hx hch
    exact .inr (.inr (.inl ⟨hr, ⟨pace, ht⟩, hp, hm, by simp [hq], this⟩))
  · exact absurd (exec_tick_keeps_map (portOf_decodeTick _) hx) kept
  · exact absurd rfl kept
  · exact absurd (SliceOf_map (beginTick_slice st _)) kept
  · exact absurd (SliceOf_map (stageMove_slice _ st _)) kept

/-! ## The invariant -/

/-- The invariant apart from the mark: what it says of the map, the sequencer, the begun stores and the transport. -/
structure State.BodyInv (p : Params) (s : State) : Prop where
  wf : s.map.wf = true
  ticks : s.ticksInRange p = true
  zone : s.pendingStores.all Store.inZone = true
  timing : s.timingSet = true
  stage : s.stageSound p = true

theorem inv_iff (p : Params) (s : State) : s.inv p = true ↔ s.BodyInv p ∧ s.markSound = true := by
  simp only [State.inv, Bool.and_eq_true]
  exact ⟨fun ⟨⟨⟨⟨⟨h1, h2⟩, h3⟩, h4⟩, h5⟩, h6⟩ => ⟨⟨h1, h2, h3, h4, h5⟩, h6⟩,
    fun ⟨⟨h1, h2, h3, h4, h5⟩, h6⟩ => ⟨⟨⟨⟨⟨h1, h2⟩, h3⟩, h4⟩, h5⟩, h6⟩⟩

/-- Settles O57: in `Idle` the counter 0 is below `N1_OW`, which is at least 1, and every list is empty. -/
theorem resetMeetsTheInvariant : Obligations.ResetMeetsTheInvariant :=
  (inv_iff _ _).mpr ⟨⟨reset_map_wf, decide_eq_true Config.params.n1Less1.succ_pos, rfl, rfl, rfl⟩, rfl⟩

section Body

variable {p : Params} {s : State}

/-- Bit timing is right at every stage. -/
theorem timingSet_of_bitTiming (h : s.owTiming = .bitTiming) : s.timingSet = true := by
  unfold State.timingSet
  split <;> simp [h]

theorem pairStores_inZone (o : Bool) (v : Half) : (pairStores o 200#8 v).all Store.inZone = true := by
  cases o <;> rfl

theorem ntcStores_inZone (l : List NtcWrite) : ((onceEach l).map ntcStore).all Store.inZone = true := by
  rw [List.all_eq_true]
  intro st hst
  obtain ⟨hlo, hhi⟩ := (ntcStores_spec l).1 st hst
  simp only [Store.inZone, Bool.and_eq_true, decide_eq_true_eq]
  omega

theorem setMap_bodyInv (h : s.BodyInv p) (i v : Byte) : (s.setMap i v).BodyInv p :=
  { h with wf := setMap_wf s i v h.wf }

theorem setPending_bodyInv (h : s.BodyInv p) {l : List Store} (hl : l.all Store.inZone = true) : (s.setPending l).BodyInv p :=
  { h with zone := hl }

theorem setEnv_bodyInv (h : s.BodyInv p) (e : Env) : (s.setEnv e).BodyInv p := { h with }

theorem setMainPos_bodyInv (h : s.BodyInv p) (m : MainPos) : (s.setMainPos m).BodyInv p := { h with }

theorem setPhase_bodyInv (h : s.BodyInv p) (ph : Phase) : (s.setPhase ph).BodyInv p := { h with }

theorem setBusQueue_bodyInv (h : s.BodyInv p) (q : List EventWord) : (s.setBusQueue q).BodyInv p := { h with }

theorem setHostIn_bodyInv (h : s.BodyInv p) (q : List Byte) : (s.setHostIn q).BodyInv p := { h with }

theorem arriveEvent_bodyInv (h : s.BodyInv p) (w : EventWord) : (s.arriveEvent w).BodyInv p := { h with }

theorem markRefused_bodyInv (h : s.BodyInv p) : s.markRefused.BodyInv p := { h with }

theorem busEvent_bodyInv (h : s.BodyInv p) (q : Params) (e : BusEvent) : (busEvent q e s).BodyInv p := by
  have hw := busEvent_wf q e s h.wf
  rw [busEvent_frame]
  exact { h with wf := hw }

theorem bridgeByte_bodyInv (h : s.BodyInv p) (q : Params) (b : Byte) : (bridgeByte q b s).BodyInv p := by
  have hw := bridgeByte_wf q b s h.wf
  rw [bridgeByte_frame]
  exact { h with wf := hw }

theorem exec_bus_bodyInv {i : Instr} {t : State} (h : s.BodyInv p) (hi : portOf i = .bus) (hx : exec i s = .next t) :
    t.BodyInv p := by
  rcases exec_bus i hi with ⟨e, he⟩ | he
  · obtain rfl := Host.Outcome.next.inj ((he s).symm.trans hx)
    exact busEvent_bodyInv h _ e
  · obtain rfl := Host.Outcome.next.inj ((he s).symm.trans hx)
    exact markRefused_bodyInv h

theorem exec_host_bodyInv {i : Instr} {t : State} (h : s.BodyInv p) (hi : portOf i = .host) (hx : exec i s = .next t) :
    t.BodyInv p := by
  obtain ⟨b, hb⟩ := exec_host i hi
  obtain rfl := Host.Outcome.next.inj ((hb s).symm.trans hx)
  exact bridgeByte_bodyInv h _ b

/-- A transport row leaves the timing alone or sets bit timing. -/
theorem exec_line_bodyInv {i : Instr} {t : State} (h : s.BodyInv p) (hi : portOf i = .line) (hx : exec i s = .next t) :
    t.BodyInv p := by
  obtain ⟨tm, l, r, e, d, h1, htm⟩ := exec_line i s hi
  obtain rfl := Host.Outcome.next.inj (h1.symm.trans hx)
  refine { h with timing := ?_ }
  rcases htm with rfl | rfl
  · exact h.timing
  · exact timingSet_of_bitTiming rfl

/-- Between two ticks the invariant asks for bit timing past `Idle`, and for a line at rest. -/
theorem State.BodyInv.between_ticks (h : s.BodyInv p) (hs : s.owStage = none) :
    (s.owState = .idle ∨ s.owTiming = .bitTiming) ∧ s.owSending = none :=
  ⟨by simpa [State.timingSet, hs] using h.timing, by simpa [State.stageSound, hs] using h.stage⟩

/-- Between two ticks, past the first reset, only the map, the counter and the begun stores are left to check. -/
theorem bodyInv_of_bitTiming (hs : s.owStage = none) (hv : s.owSending = none) (htm : s.owTiming = .bitTiming)
    (hwf : s.map.wf = true) (hticks : s.ticksInRange p = true) (hzone : s.pendingStores.all Store.inZone = true) :
    s.BodyInv p :=
  ⟨hwf, hticks, hzone, timingSet_of_bitTiming htm, by simp [State.stageSound, hs, hv]⟩

/-- A counter of 0 is below every threshold (R211). -/
theorem ticksInRange_of_zero (h : s.owTicks = 0) : s.ticksInRange p = true := by
  unfold State.ticksInRange
  split <;> simp [h, Params.n1, Params.n2]

theorem setOwTicks_bodyInv (h : s.BodyInv p) (hs : s.owStage = none) {n : Nat} (hn : (s.setOwTicks n).ticksInRange p = true) :
    (s.setOwTicks n).BodyInv p :=
  ⟨h.wf, hn, h.zone, h.timing, by simp [State.stageSound, hs, (h.between_ticks hs).2]⟩

theorem tickIdle_bodyInv (h : s.BodyInv p) (hs : s.owStage = none) (ho : s.owState = .idle) : (tickIdle p s).BodyInv p := by
  obtain ⟨-, hv⟩ := h.between_ticks hs
  unfold tickIdle
  split
  · next hlt => exact setOwTicks_bodyInv h hs (by simp [State.ticksInRange, ho, hlt])
  · by_cases he : s.env.drawEcho.1 = p.owResetByte
    · rw [startConversion_absent p (s.setOwTicks 0) he]
      exact bodyInv_of_bitTiming hs hv rfl h.wf (ticksInRange_of_zero rfl) h.zone
    · obtain ⟨l, e, d, h1, -⟩ := startConversion_present p (s.setOwTicks 0) he
      rw [h1]
      exact bodyInv_of_bitTiming hs hv rfl h.wf (ticksInRange_of_zero rfl) h.zone

theorem tickConverting_bodyInv (h : s.BodyInv p) (hs : s.owStage = none) (ho : s.owState = .converting) :
    (tickConverting p s).BodyInv p := by
  obtain ⟨htm, hv⟩ := h.between_ticks hs
  unfold tickConverting
  split
  · next hlt => exact setOwTicks_bodyInv h hs (by simp [State.ticksInRange, ho, hlt])
  · exact bodyInv_of_bitTiming hs hv (htm.resolve_left (by simp [ho])) h.wf (ticksInRange_of_zero rfl) h.zone

/-- The tick in `Reading` sets bit timing and begins two stores to 200 and 201; the rest is its frame. -/
theorem tickReading_bodyInv (h : s.BodyInv p) (hs : s.owStage = none) (ho : s.owState = .reading) :
    (tickReading p s).BodyInv p := by
  have hframe := owTick_frame p s
  rw [owTick_reading p s ho] at hframe
  have hmap : (tickReading p s).map = s.map := by rw [hframe]
  have hstage : (tickReading p s).owStage = s.owStage := by rw [hframe]
  have hsending : (tickReading p s).owSending = s.owSending := by rw [hframe]
  obtain ⟨e, he⟩ := tickReading_eq p s
  obtain ⟨hpend, -, -, htm, -⟩ := acquire_keeps p s
  refine bodyInv_of_bitTiming (hstage.trans hs) (hsending.trans (h.between_ticks hs).2) (by rw [he, htm]) (hmap ▸ h.wf)
    (ticksInRange_of_zero (by rw [he])) ?_
  rw [he]
  simp only [hpend, List.all_append, h.zone, pairStores_inZone, Bool.and_self]

/-- A whole tick keeps the invariant, state by state (R210). -/
theorem owTick_bodyInv (h : s.BodyInv p) (hs : s.owStage = none) : (owTick p s).BodyInv p := by
  obtain ho | ho | ho := owState_cases s
  · rw [owTick_idle p s ho]
    exact tickIdle_bodyInv h hs ho
  · rw [owTick_converting p s ho]
    exact tickConverting_bodyInv h hs ho
  · rw [owTick_reading p s ho]
    exact tickReading_bodyInv h hs ho

theorem exec_tick_bodyInv {i : Instr} {s t : State} (h : s.BodyInv Config.params) (hs : s.owStage = none)
    (hi : portOf i = .tick) (hx : exec i s = .next t) : t.BodyInv Config.params := by
  obtain rfl := Host.Outcome.next.inj ((exec_tick i hi s).symm.trans hx)
  exact owTick_bodyInv h hs

end Body

/-- Every step keeps the invariant apart from the mark. -/
theorem step_bodyInv {s t : State} (hinv : s.inv Config.params = true) (hstep : step s = .next t) :
    t.BodyInv Config.params := by
  obtain ⟨h, -⟩ := (inv_iff _ _).mp hinv
  have hturn := setEnv_bodyInv h s.env.drawTurn.2
  rcases step_cases s t hstep with ⟨-, i, v, ph, -, rfl⟩ | ⟨-, hcase⟩
  · exact setPhase_bodyInv (setMap_bodyInv h i v) ph
  rcases hcase with ⟨-, -, rfl⟩ | ⟨-, w, q, -, hx⟩ | ⟨w, -, rfl⟩ | ⟨b, -, rfl⟩ | ⟨c, -, hx⟩ | ⟨pace, -, hcase⟩
  · exact hturn
  · exact exec_bus_bodyInv (setBusQueue_bodyInv hturn q) (portOf_decodeBus _ _ w) hx
  · exact arriveEvent_bodyInv hturn w
  · exact setHostIn_bodyInv hturn _
  · exact exec_line_bodyInv hturn (portOf_lineInstr c) hx
  rcases hcase with ⟨st, rest, hp, rfl⟩ | ⟨-, mp, rfl⟩ | ⟨-, -, b, q, -, hx⟩ | ⟨-, hs, -, hx⟩ | ⟨-, -, e, l, rfl⟩ |
    ⟨hs, st, hf, rfl⟩ | ⟨st, hst, rfl⟩
  · have hzone : Store.inZone st = true ∧ rest.all Store.inZone = true := by simpa [hp] using h.zone
    exact setPending_bodyInv (setMap_bodyInv hturn _ _) hzone.2
  · exact setMainPos_bodyInv hturn mp
  · exact exec_host_bodyInv (setMainPos_bodyInv (setHostIn_bodyInv hturn q) _) (portOf_decodeHost _ b) hx
  · exact exec_tick_bodyInv (setMainPos_bodyInv hturn _) hs (portOf_decodeTick _) hx
  · exact setMainPos_bodyInv (setPending_bodyInv (setEnv_bodyInv h e) (ntcStores_inZone l)) _
  · have hbegun := beginTick_inv (s := (s.setEnv s.env.drawTurn.2).setMainPos .ntc) hinv hs hf
    exact ((inv_iff _ _).mp hbegun).1
  · have hslice := stageMove_inv (s := s.setEnv s.env.drawTurn.2) hinv hst
    exact ((inv_iff _ _).mp hslice).1

/-- Settles O58: `step_bodyInv` for everything but the mark, and `step_markSound` for the mark. -/
theorem stepKeepsTheInvariant : Obligations.StepKeepsTheInvariant := by
  unfold Obligations.StepKeepsTheInvariant
  intro s t hinv hstep
  exact (inv_iff _ _).mpr ⟨step_bodyInv hinv hstep, step_markSound s t ((inv_iff _ _).mp hinv).2 hstep⟩

end Sys2Proof.Machine
end

section
/-! The interleaving on the map: a begun store is one step of one byte, and a master may read between the two stores of a 16-bit
field (20_memory.md R69, R74, R75, 70_reset_and_hazards.md R276). -/

namespace Sys2Proof.Machine

/-- Settles O5: `step_store` is the step, and a write to the map reaches its own cell only. -/
theorem begunStoreIsOneByteStep : Obligations.BegunStoreIsOneByteStep := by
  unfold Obligations.BegunStoreIsOneByteStep
  intro s pace st rest hr ht hp
  exact ⟨_, step_store s hr ht st rest hp, rfl, Memory.read_write_self _ _ _, fun a ha => Memory.read_write_ne _ _ ha⟩

/-- `s` with a schedule of its own (R245). -/
def State.scheduled (s : State) (ts : List Turn) : State := s.setEnv { s.env with turns := ts }

theorem State.scheduled_turns {s : State} {ts : List Turn} (h : s.env.turns = ts) : s.scheduled ts = s := by
  subst h
  rfl

/-- A scheduled move of the main loop makes the begun store that is first (R69, R74). -/
theorem step_scheduled_store (s : State) (hr : s.phase = .running) (pace : Pace) (ts : List Turn) {st : Store}
    {l : List Store} (hp : s.pendingStores = st :: l) :
    step (s.scheduled (.move (.main pace) :: ts)) =
      .next (((s.setMap st.index st.value).setPending l).scheduled ts) :=
  step_store (s.scheduled (.move (.main pace) :: ts)) hr rfl st l hp

/-- A read request is the mirrored read while the emulator is enabled and no capture is pending (R133). -/
theorem busEvent_rreq_mirror (p : Params) (s : State) (hen : s.mapAt 241#8 ≠ 0#8) (hcap : s.mapAt 244#8 = 0#8) :
    busEvent p .rreq s = mirrorRead s := by
  rw [busEvent_rreq p s hen, readSide_mirror p s fun h => h.2 hcap]

theorem step_scheduled_read (s : State) (hr : s.phase = .running) (ts : List Turn) {q : List EventWord}
    (hq : s.busQueue = 0x200#10 :: q) (hen : s.mapAt 241#8 ≠ 0#8) (hcap : s.mapAt 244#8 = 0#8) :
    step (s.scheduled (.move .bsp :: ts)) = .next ((mirrorRead (s.setBusQueue q)).scheduled ts) := by
  rw [step_bsp (s.scheduled (.move .bsp :: ts)) hr rfl BusEvent.rreq.word q hq, decodeBus_word, exec_selectEvent]
  exact congrArg Host.Outcome.next (busEvent_rreq_mirror _ ((s.setBusQueue q).scheduled ts) hen hcap)

/-- A mirrored read leaves the map alone, so a second one follows under the same conditions. -/
theorem steps_scheduled_reads (s : State) (hr : s.phase = .running) (ts : List Turn) {q : List EventWord}
    (hq : s.busQueue = 0x200#10 :: 0x200#10 :: q) (hen : s.mapAt 241#8 ≠ 0#8) (hcap : s.mapAt 244#8 = 0#8) :
    steps 2 (s.scheduled (.move .bsp :: .move .bsp :: ts)) =
      .next ((mirrorRead (mirrorRead (s.setBusQueue q))).scheduled ts) := by
  rw [steps_succ 1 _ _ (step_scheduled_read s hr _ hq hen hcap),
    steps_succ 0 _ _ (step_scheduled_read (mirrorRead (s.setBusQueue (0x200#10 :: q))) hr ts rfl hen hcap)]
  rfl

/-- A store that spares the enable and capture cells (R29, R30), two read requests, a store: both reads see the map after the first
store alone. -/
theorem steps_store_read_read_store {s : State} (hr : s.phase = .running) (hen : s.mapAt 241#8 ≠ 0#8)
    (hcap : s.mapAt 244#8 = 0#8) (hq : s.busQueue = [0x200#10, 0x200#10]) {pace pace' : Pace} {ts : List Turn}
    (ht : s.env.turns = .move (.main pace) :: .move .bsp :: .move .bsp :: .move (.main pace') :: ts) {a b : Store}
    (henable : a.index ≠ 241#8) (hcapture : a.index ≠ 244#8) (hp : s.pendingStores = [a, b]) :
    steps 4 s = .next { s with
      map := (s.map.write a.index.toNat a.value).write b.index.toNat b.value
      cursor := adv (adv s.cursor), busQueue := []
      busOut := s.busOut ++ [⟨true, some ((s.setMap a.index a.value).mapAt s.cursor)⟩,
        ⟨true, some ((s.setMap a.index a.value).mapAt (adv s.cursor))⟩]
      env := { s.env with turns := ts }, pendingStores := [] } := by
  have hen' : (s.setMap a.index a.value).mapAt 241#8 ≠ 0#8 := by rwa [s.mapAt_setMap_ne _ henable.symm]
  have hcap' : (s.setMap a.index a.value).mapAt 244#8 = 0#8 := by rwa [s.mapAt_setMap_ne _ hcapture.symm]
  have first := step_scheduled_store s hr pace (.move .bsp :: .move .bsp :: .move (.main pace') :: ts) hp
  have reads := steps_scheduled_reads ((s.setMap a.index a.value).setPending [b]) hr (.move (.main pace') :: ts) hq hen' hcap'
  have last := step_scheduled_store
    (mirrorRead (mirrorRead (((s.setMap a.index a.value).setPending [b]).setBusQueue []))) hr pace' ts rfl
  rw [State.scheduled_turns ht] at first
  rw [steps_succ 3 _ _ first, steps_add 2 1 _ _ reads, steps_succ 0 _ _ last, List.append_cons]
  rfl

/-- Settles O7: by `steps_store_read_read_store` both reads see the first store and not the second, in either order. -/
theorem readBetweenTheStoresIsTorn : Obligations.ReadBetweenTheStoresIsTorn := by
  unfold Obligations.ReadBetweenTheStoresIsTorn
  intro s pace pace' hi lo rest hr hen hcap hc hq ht
  have hadv : adv 200#8 = 201#8 := by decide
  refine ⟨fun hp => ⟨_, steps_store_read_read_store hr hen hcap hq ht (by simp) (by simp) hp, ?_⟩,
    fun hp => ⟨_, steps_store_read_read_store hr hen hcap hq ht (by simp) (by simp) hp, ?_⟩⟩
  · simp [hc, hadv, State.mapAt, Memory.read_write]
  · simp [hc, hadv, State.mapAt, Memory.read_write]

end Sys2Proof.Machine
end

section
/-! Encoding: decoding an encoded row gives the row back, and what decodes encodes back to its word (30_encoding.md R90–R108). -/

namespace Sys2Proof

/-! ## The decoder on a word of its port's width (R90, R98, R100) -/

theorem decode_bus (p : Params) (m : BusMode) (w : EventWord) : decode p (.bus m) w.toNat = .ok (decodeBus p m w) := by
  rw [decode, if_pos w.isLt, BitVec.ofNat_toNat, BitVec.setWidth_eq]

theorem decode_host (p : Params) (st : BridgeState) (b : Byte) : decode p (.host st) b.toNat = .ok (decodeHost st b) := by
  rw [decode, if_pos b.isLt, BitVec.ofNat_toNat, BitVec.setWidth_eq]

theorem decode_line (p : Params) (u : LineUse) (v : Byte) : decode p (.line u) v.toNat = decodeLine p u v := by
  rw [decode, if_pos v.isLt, BitVec.ofNat_toNat, BitVec.setWidth_eq]

/-! ## The row an event selects, by the modes (R105, R121, R138) -/

theorem selectEvent_disabled (p : Params) (m : BusMode) (e : BusEvent) (h : m.enabled = false) :
    selectEvent p m e = .busDisabled e := by
  unfold selectEvent
  rw [if_neg (by simp [h])]

theorem selectEvent_addr (p : Params) (m : BusMode) (b : Byte) (h : m.enabled = true) :
    selectEvent p m (.addr b) = if b = startByte then .busAddrStart else .busAddrIndex b := by
  rw [selectEvent, if_pos h]

theorem selectEvent_rreq (p : Params) (m : BusMode) (h : m.enabled = true) :
    selectEvent p m .rreq = if m.hook then .busRreqHook else .busRreqMirror := by
  rw [selectEvent, if_pos h]

/-- The row of a data byte, by the decoder state (R138); `selectEvent_wdata` ties it to the decoder. -/
def wdataRow (p : Params) (b : Byte) : WriteState → Instr
  | .awaitingIndex | .genericData => .busWdataGeneric b
  | .awaitingSubCommand => if b = p.subByte then .busWdataSubMatch else .busWdataSubMismatch b
  | .awaitingTargetAddr => .busWdataTarget b
  | .awaitingValueHi => .busWdataValueHi b
  | .awaitingValueLo => .busWdataValueLo b

theorem selectEvent_wdata (p : Params) (m : BusMode) (b : Byte) (h : m.enabled = true) :
    selectEvent p m (.wdata b) = wdataRow p b m.writeState := by
  rw [selectEvent, if_pos h]
  cases m.writeState <;> rfl

/-! ## Decoding an encoded row, port by port -/

section DecodeEncode

variable {p : Params} {i : Instr} (hw : i.wellFormed p = true)
include hw

/-- Each bus row's condition (R105) and operand byte (R92, R97, R128) make the decoder take its branch. -/
theorem decode_encode_bus {m : BusMode} (hf : i.fits (.bus m) = true) : decode p (.bus m) (encode p i) = .ok i := by
  cases i with
  | busDisabled e =>
    have hoff : m.enabled = false := by simpa [Instr.fits, Context.onBus] using hf
    rw [encode, decode_bus, decodeBus_word, selectEvent_disabled p m e hoff]
  | busAddrIndex b =>
    have hb : b ≠ startByte := by simpa [Instr.wellFormed, startByte] using hw
    rw [encode, decode_bus, decodeBus_addr, selectEvent_addr p m b hf, if_neg hb]
  | busAddrStart => rw [encode, decode_bus, decodeBus_addr, selectEvent_addr p m _ hf, startByte, if_pos rfl]
  | busWdataGeneric b =>
    obtain ⟨hon, hst⟩ : m.enabled = true ∧ (m.writeState = .awaitingIndex ∨ m.writeState = .genericData) := by
      simpa [Instr.fits, Context.onBus] using hf
    rw [encode, decode_bus, decodeBus_wdata, selectEvent_wdata p m b hon]
    rcases hst with hst | hst <;> rw [hst, wdataRow]
  | busWdataSubMatch =>
    obtain ⟨hon, hst⟩ : m.enabled = true ∧ m.writeState = .awaitingSubCommand := by simpa [Instr.fits, Context.onBus] using hf
    rw [encode, decode_bus, decodeBus_wdata, selectEvent_wdata p m _ hon, hst, wdataRow, if_pos rfl]
  | busWdataSubMismatch b =>
    obtain ⟨hon, hst⟩ : m.enabled = true ∧ m.writeState = .awaitingSubCommand := by simpa [Instr.fits, Context.onBus] using hf
    have hb : b ≠ p.subByte := by simpa [Instr.wellFormed] using hw
    rw [encode, decode_bus, decodeBus_wdata, selectEvent_wdata p m _ hon, hst, wdataRow, if_neg hb]
  | busWdataTarget b | busWdataValueHi b | busWdataValueLo b =>
    obtain ⟨hon, hst⟩ : m.enabled = true ∧ m.writeState = _ := by simpa [Instr.fits, Context.onBus] using hf
    rw [encode, decode_bus, decodeBus_wdata, selectEvent_wdata p m b hon, hst, wdataRow]
  | busRreqMirror =>
    obtain ⟨hon, hhook⟩ : m.enabled = true ∧ m.hook = false := by simpa [Instr.fits, Context.onBus] using hf
    rw [encode, decode_bus, decodeBus_rreq, if_pos rfl, selectEvent_rreq p m hon, if_neg (by simp [hhook])]
  | busRreqHook =>
    obtain ⟨hon, hhook⟩ : m.enabled = true ∧ m.hook = true := by simpa [Instr.fits, Context.onBus] using hf
    rw [encode, decode_bus, decodeBus_rreq, if_pos rfl, selectEvent_rreq p m hon, if_pos hhook]
  | busReserved b => rw [encode, decode_bus, decodeBus_reserved]
  | busReservedRreq b =>
    have hb : b ≠ 0#8 := by simpa [Instr.wellFormed] using hw
    rw [encode, decode_bus, decodeBus_rreq, if_neg hb]
  | _ => exact absurd hf (by simp [Instr.fits])

theorem decode_encode_host {st : BridgeState} (hf : i.fits (.host st) = true) :
    decode p (.host st) (encode p i) = .ok i := by
  cases i with
  | hostLeadR | hostLeadW =>
    obtain rfl : st = .idle := by simpa [Instr.fits] using hf
    rfl
  | hostRIndex b | hostWIndex b | hostWValue b =>
    obtain rfl : st = _ := by simpa [Instr.fits] using hf
    rw [encode, decode_host, decodeHost]
  | hostLeadOther b =>
    obtain rfl : st = .idle := by simpa [Instr.fits] using hf
    obtain ⟨hR, hW⟩ : b ≠ readToken ∧ b ≠ writeToken := by
      simpa [Instr.wellFormed, readToken, writeToken] using hw
    rw [encode, decode_host, decodeHost, if_neg hR, if_neg hW]
  | _ => exact absurd hf (by simp [Instr.fits, Context.onBus])

end DecodeEncode

theorem commandsDiffer_iff (p : Params) :
    p.commandsDiffer = true ↔ p.cmdSelectAll ≠ p.cmdStartConversion ∧ p.cmdSelectAll ≠ p.cmdReadResult ∧
      p.cmdStartConversion ≠ p.cmdReadResult := by
  simp [Params.commandsDiffer, and_assoc]

/-- A line row fits the one use that tells it from the rows with the same byte; only a command is told by its value. -/
theorem decode_encode_line {p : Params} {i : Instr} {u : LineUse} (hd : u = .command → p.commandsDiffer = true)
    (hf : i.fits (.line u) = true) : decode p (.line u) (encode p i) = .ok i := by
  cases i with
  | owTouchByte v | owWriteByte v =>
    obtain rfl : u = _ := by simpa [Instr.fits] using hf
    rw [encode, decode_line, decodeLine]
  | owReset | owWriteBit1 | owWriteBit0 | owReadBit | owReadByte =>
    obtain rfl : u = _ := by simpa [Instr.fits] using hf
    rw [encode, decode_line, decodeLine, if_pos rfl]
  | owCmdSelectAll =>
    obtain rfl : u = .command := by simpa [Instr.fits] using hf
    rw [encode, decode_line, decodeLine, if_pos rfl]
  | owCmdStartConversion =>
    obtain rfl : u = .command := by simpa [Instr.fits] using hf
    obtain ⟨hsc, -, -⟩ := (commandsDiffer_iff p).mp (hd rfl)
    rw [encode, decode_line, decodeLine, if_neg hsc.symm, if_pos rfl]
  | owCmdReadResult =>
    obtain rfl : u = .command := by simpa [Instr.fits] using hf
    obtain ⟨-, hsr, hcr⟩ := (commandsDiffer_iff p).mp (hd rfl)
    rw [encode, decode_line, decodeLine, if_neg hsr.symm, if_neg hcr.symm, if_pos rfl]
  | _ => exact absurd hf (by simp [Instr.fits, Context.onBus])

theorem decode_encode_tick {p : Params} {i : Instr} {st : OwState} (hf : i.fits (.tick st) = true) :
    decode p (.tick st) (encode p i) = .ok i := by
  cases i with
  | owSeqTickIdle | owSeqTickConverting | owSeqTickReading =>
    obtain rfl : st = _ := by simpa [Instr.fits] using hf
    rfl
  | _ => exact absurd hf (by simp [Instr.fits, Context.onBus])

/-- Settles O53, port by port: on each port the row's condition and its operand byte single it out. -/
theorem decodeEncodeAgree : Obligations.DecodeEncodeAgree := by
  unfold Obligations.DecodeEncodeAgree
  intro p c i hd hw hf
  cases c with
  | bus m => exact decode_encode_bus hw hf
  | host st => exact decode_encode_host hw hf
  | line u => exact decode_encode_line (fun hu => hd (congrArg _ hu)) hf
  | tick st => exact decode_encode_tick hf

/-! ## Encoding a decoded row -/

/-- The row is spelled by the word in the context: its word, its operand byte and its condition (R108). -/
structure Instr.SpelledBy (p : Params) (c : Context) (w : Nat) (i : Instr) : Prop where
  word : encode p i = w
  wellFormed : i.wellFormed p = true
  fits : i.fits c = true

/-- The row that the modes select for an event is spelled by the event's word. -/
theorem selectEvent_spelledBy (p : Params) (m : BusMode) (e : BusEvent) :
    (selectEvent p m e).SpelledBy p (.bus m) e.word.toNat := by
  cases hon : m.enabled with
  | false =>
    rw [selectEvent_disabled p m e hon]
    exact ⟨rfl, rfl, by simp [Instr.fits, Context.onBus, hon]⟩
  | true =>
    cases e with
    | addr b =>
      rw [selectEvent_addr p m b hon]
      split
      · next hb => exact ⟨by rw [hb]; rfl, rfl, hon⟩
      · next hb => exact ⟨rfl, bne_iff_ne.mpr hb, hon⟩
    | wdata b =>
      rw [selectEvent_wdata p m b hon]
      cases hst : m.writeState with
      | awaitingSubCommand =>
        rw [wdataRow]
        split
        · next hb => exact ⟨by rw [hb]; rfl, rfl, by simp [Instr.fits, Context.onBus, hon, hst]⟩
        · next hb => exact ⟨rfl, bne_iff_ne.mpr hb, by simp [Instr.fits, Context.onBus, hon, hst]⟩
      | _ => exact ⟨rfl, rfl, by simp [wdataRow, Instr.fits, Context.onBus, hon, hst]⟩
    | rreq =>
      rw [selectEvent_rreq p m hon]
      split
      · next hk => exact ⟨rfl, rfl, by simp [Instr.fits, Context.onBus, hon, hk]⟩
      · next hk => exact ⟨rfl, rfl, by simp [Instr.fits, Context.onBus, hon, hk]⟩

theorem decodeBus_spelledBy (p : Params) (m : BusMode) (w : EventWord) :
    (decodeBus p m w).SpelledBy p (.bus m) w.toNat := by
  rw [← eventWord_kind_byte w]
  generalize EventWord.byte w = b
  obtain hk | hk | hk | hk := kind_cases (EventWord.kind w) <;> rw [hk]
  · rw [decodeBus_addr]
    exact selectEvent_spelledBy p m (.addr b)
  · rw [decodeBus_wdata]
    exact selectEvent_spelledBy p m (.wdata b)
  · rw [decodeBus_rreq]
    split
    · next hb =>
      subst hb
      exact selectEvent_spelledBy p m .rreq
    · next hb => exact ⟨rfl, bne_iff_ne.mpr hb, rfl⟩
  · rw [decodeBus_reserved]
    exact ⟨rfl, rfl, rfl⟩

theorem decodeHost_spelledBy (p : Params) (st : BridgeState) (b : Byte) :
    (decodeHost st b).SpelledBy p (.host st) b.toNat := by
  cases st with
  | idle =>
    unfold decodeHost
    dsimp only
    split
    · next hb => exact ⟨by rw [hb]; rfl, rfl, rfl⟩
    · next hR =>
      split
      · next hb => exact ⟨by rw [hb]; rfl, rfl, rfl⟩
      · next hW => exact ⟨rfl, Bool.and_eq_true_iff.mpr ⟨bne_iff_ne.mpr hR, bne_iff_ne.mpr hW⟩, rfl⟩
  | awaitIndexRead | awaitIndexWrite | awaitValue => exact ⟨rfl, rfl, rfl⟩

/-- A decoder behind a check answers a row only when the check passes. -/
theorem checked_eq_ok {c : Prop} [Decidable c] {x : Except DecodeError Instr} {e : DecodeError} {i : Instr}
    (h : (if c then x else .error e) = .ok i) : c ∧ x = .ok i := by
  split at h
  · next hc => exact ⟨hc, h⟩
  · cases h

/-- On the line a decoded byte is the byte of its row: the operand itself, or the slot or command byte it was compared with. -/
theorem decodeLine_spelledBy {p : Params} {u : LineUse} {v : Byte} {i : Instr} (h : decodeLine p u v = .ok i) :
    i.SpelledBy p (.line u) v.toNat := by
  cases u with
  | exchange | writeByte =>
    obtain rfl := Except.ok.inj h
    exact ⟨rfl, rfl, rfl⟩
  | reset | readBit | readByte =>
    obtain ⟨rfl, hi⟩ := checked_eq_ok h
    obtain rfl := Except.ok.inj hi
    exact ⟨rfl, rfl, rfl⟩
  | writeBit x =>
    cases x with
    | true | false =>
      obtain ⟨rfl, hi⟩ := checked_eq_ok h
      obtain rfl := Except.ok.inj hi
      exact ⟨rfl, rfl, rfl⟩
  | command =>
    simp only [decodeLine] at h
    split at h
    · next hv =>
      obtain rfl := Except.ok.inj h
      exact ⟨by rw [hv]; rfl, rfl, rfl⟩
    · split at h
      · next hv =>
        obtain rfl := Except.ok.inj h
        exact ⟨by rw [hv]; rfl, rfl, rfl⟩
      · obtain ⟨rfl, hi⟩ := checked_eq_ok h
        obtain rfl := Except.ok.inj hi
        exact ⟨rfl, rfl, rfl⟩

theorem decodeTick_spelledBy (p : Params) (st : OwState) : (decodeTick st).SpelledBy p (.tick st) 0 := by
  cases st <;> exact ⟨rfl, rfl, rfl⟩

/-- What decodes is the port's decoder applied to the bits of the number, which fits the port's width. -/
theorem decode_spelledBy {p : Params} {c : Context} {w : Nat} {i : Instr} (h : decode p c w = .ok i) :
    i.SpelledBy p c w := by
  cases c with
  | bus m =>
    obtain ⟨hlt, hi⟩ := checked_eq_ok h
    rw [← Except.ok.inj hi]
    simpa [Nat.mod_eq_of_lt hlt] using decodeBus_spelledBy p m (BitVec.ofNat 10 w)
  | host st =>
    obtain ⟨hlt, hi⟩ := checked_eq_ok h
    rw [← Except.ok.inj hi]
    simpa [Nat.mod_eq_of_lt hlt] using decodeHost_spelledBy p st (BitVec.ofNat 8 w)
  | line u =>
    obtain ⟨hlt, hi⟩ := checked_eq_ok h
    simpa [Nat.mod_eq_of_lt hlt] using decodeLine_spelledBy hi
  | tick st =>
    obtain ⟨rfl, hi⟩ := checked_eq_ok h
    rw [← Except.ok.inj hi]
    exact decodeTick_spelledBy p st

/-- Settles O54: `decode_spelledBy` in its three parts. -/
theorem decodedWordEncodesBack : Obligations.DecodedWordEncodesBack := by
  unfold Obligations.DecodedWordEncodesBack
  intro p c w i h
  obtain ⟨hword, hwf, hfits⟩ := decode_spelledBy h
  exact ⟨hword, hwf, hfits⟩

/-! ## Words of the spec, and the reserved words -/

/-- Settles O55: each is a word written out, so decoding it computes. -/
theorem specWordsDecode : Obligations.SpecWordsDecode := by
  unfold Obligations.SpecWordsDecode
  exact ⟨rfl, rfl, rfl, rfl, rfl, rfl, rfl, rfl, rfl, rfl⟩

/-- Settles O20: the two reserved forms are rows of their own whatever the modes, and each only sets the mark. -/
theorem reservedWordSetsTheMark : Obligations.ReservedWordSetsTheMark := by
  unfold Obligations.ReservedWordSetsTheMark
  intro s b
  refine ⟨decodeBus_reserved _ _ b, rfl, fun hb => ?_, rfl⟩
  rw [decodeBus_rreq, if_neg hb]

end Sys2Proof
end

section
/-! Frames of bus events: the command frame taken from the queue, the generic write frame and the generic read frame
(30_encoding.md R94–R96, 40_bus_slave.md R123–R137). -/

namespace Sys2Proof.Machine

/-! ## The rule each event of a command frame takes (R124, R127, R129–R131) -/

section Rules

variable (p : Params) {s : State} (hen : s.mapAt 241#8 ≠ 0#8)
include hen

theorem busEvent_start : busEvent p (.addr startByte) s = startCommand p s := by
  rw [busEvent_addr p _ s hen, addrPhase, if_pos rfl]

theorem busEvent_index {b : Byte} (hb : b ≠ startByte) : busEvent p (.addr b) s = loadCursor b s := by
  rw [busEvent_addr p _ s hen, addrPhase, if_neg hb]

theorem busEvent_subByte (hw : s.writeState = .awaitingSubCommand) : busEvent p (.wdata p.subByte) s = acceptSub p s := by
  rw [busEvent_wdata p _ s hen, dataPhase, hw]
  exact if_pos rfl

theorem busEvent_target (b : Byte) (hw : s.writeState = .awaitingTargetAddr) :
    busEvent p (.wdata b) s = captureTarget p b s := by
  rw [busEvent_wdata p _ s hen, dataPhase, hw]

theorem busEvent_valueHi (b : Byte) (hw : s.writeState = .awaitingValueHi) : busEvent p (.wdata b) s = captureHi p b s := by
  rw [busEvent_wdata p _ s hen, dataPhase, hw]

theorem busEvent_valueLo (b : Byte) (hw : s.writeState = .awaitingValueLo) : busEvent p (.wdata b) s = captureLo p b s := by
  rw [busEvent_wdata p _ s hen, dataPhase, hw]

theorem busEvent_generic (b : Byte) (hw : s.writeState = .genericData) : busEvent p (.wdata b) s = mirrorWrite b s := by
  rw [busEvent_wdata p _ s hen, dataPhase, hw]

end Rules

/-! ## Events taken from the queue (R120, R243) -/

/-- The effects of a list of bus events, one after another. -/
def busEvents (p : Params) (es : List BusEvent) (s : State) : State := es.foldl (fun u e => busEvent p e u) s

/-- `s` with these event words waiting and this schedule (R243, R245). -/
def State.waiting (s : State) (q : List EventWord) (ts : List Turn) : State := (s.setBusQueue q).scheduled ts

theorem State.waiting_eq {s : State} {q : List EventWord} {ts : List Turn} (hq : s.busQueue = q) (ht : s.env.turns = ts) :
    s.waiting q ts = s := by
  subst hq ht
  rfl

/-- A bus event neither reads nor changes what waits behind it and who moves next (R243, R246). -/
theorem busEvent_waiting (p : Params) (e : BusEvent) (s : State) (q : List EventWord) (ts : List Turn) :
    busEvent p e (s.waiting q ts) = (busEvent p e s).waiting q ts := by
  have hwaiting : (s.waiting q ts).writeState = s.writeState := rfl
  have hhook : (s.waiting q ts).hook = s.hook := rfl
  by_cases hen : s.mapAt 241#8 = 0#8
  · rw [busEvent_disabled p e s hen, busEvent_disabled p e (s.waiting q ts) hen]
    rfl
  cases e with
  | addr b =>
    rw [busEvent_addr p b s hen, busEvent_addr p b (s.waiting q ts) hen, addrPhase, addrPhase]
    split <;> rfl
  | wdata b =>
    rw [busEvent_wdata p b s hen, busEvent_wdata p b (s.waiting q ts) hen, dataPhase, dataPhase, hwaiting]
    cases s.writeState with
    | awaitingSubCommand => dsimp only; split <;> rfl
    | _ => rfl
  | rreq =>
    rw [busEvent_rreq p s hen, busEvent_rreq p (s.waiting q ts) hen, readSide, readSide, hhook, fireHook, fireHook]
    split
    · cases p.hookMode <;> rfl
    · rfl

/-- A move of the bus-slave handler takes the oldest waiting event. -/
theorem step_waiting {s : State} (hr : s.phase = .running) (e : BusEvent) (q : List EventWord) (ts : List Turn) :
    step (s.waiting (e.word :: q) (.move .bsp :: ts)) = .next ((busEvent Config.params e s).waiting q ts) := by
  rw [step_bsp (s.waiting (e.word :: q) (.move .bsp :: ts)) hr rfl e.word q rfl, decodeBus_word, exec_selectEvent,
    ← busEvent_waiting]
  rfl

/-- A move of the bus-slave handler for each waiting event takes them all in order. -/
theorem steps_waiting (es : List BusEvent) {s : State} (hr : s.phase = .running) (q : List EventWord) (ts : List Turn) :
    steps es.length (s.waiting (es.map BusEvent.word ++ q) (List.replicate es.length (.move .bsp) ++ ts)) =
      .next ((busEvents Config.params es s).waiting q ts) := by
  induction es generalizing s with
  | nil => rfl
  | cons e es ih =>
    have hphase : (busEvent Config.params e s).phase = .running := by rw [busEvent_frame, hr]
    exact (steps_succ _ _ _ (step_waiting hr e _ _)).trans (ih hphase)

/-! ## The command frame (R94, R137) -/

/-- The effects of the five events of a command frame, one after another. -/
def commandFrame (p : Params) (addr hi lo : Byte) (s : State) : State :=
  captureLo p lo (captureHi p hi (captureTarget p addr (acceptSub p (startCommand p s))))

/-- The map after a command frame: the status code of the last event, and the capture. -/
theorem read_commandFrame (p : Params) (addr hi lo : Byte) (s : State) (a : Nat) :
    (commandFrame p addr hi lo s).map.read a =
      if a = 252 then p.stComplete else if a = 244 then lo else if a = 243 then hi else if a = 242 then addr
      else s.map.read a := by
  simp only [commandFrame, captureLo, captureHi, captureTarget, acceptSub, startCommand, State.setStatus]
  simp only [State.answerBus_map, State.setWriteState_map, State.setMap_map, Memory.read_write, BitVec.toNat_ofNat,
    Nat.reducePow, Nat.reduceMod]
  split_ifs <;> rfl

theorem commandFrame_frame (p : Params) (addr hi lo : Byte) (s : State) :
    commandFrame p addr hi lo s =
      { s with
        map := (commandFrame p addr hi lo s).map, writeState := .awaitingIndex
        busOut := s.busOut ++ List.replicate 5 ⟨true, none⟩ } := by
  have hout : (commandFrame p addr hi lo s).busOut = s.busOut ++ List.replicate 5 ⟨true, none⟩ := by
    simp [commandFrame, captureLo, captureHi, captureTarget, acceptSub, startCommand, State.setStatus, State.answerBus]
  rw [← hout]
  rfl

/-- No event of a command frame before its last one touches the enable cell, so each is handled (R121). -/
theorem commandFrame_stays_enabled (p : Params) (addr hi : Byte) {s : State} (hen : s.mapAt 241#8 ≠ 0#8) :
    (startCommand p s).mapAt 241#8 ≠ 0#8 ∧ (acceptSub p (startCommand p s)).mapAt 241#8 ≠ 0#8 ∧
    (captureTarget p addr (acceptSub p (startCommand p s))).mapAt 241#8 ≠ 0#8 ∧
    (captureHi p hi (captureTarget p addr (acceptSub p (startCommand p s)))).mapAt 241#8 ≠ 0#8 := by
  simpa [captureHi, captureTarget, acceptSub, startCommand, State.setStatus, State.mapAt_setMap] using hen

theorem busEvents_commandFrame (p : Params) (addr hi lo : Byte) {s : State} (hen : s.mapAt 241#8 ≠ 0#8) :
    busEvents p [.addr startByte, .wdata p.subByte, .wdata addr, .wdata hi, .wdata lo] s = commandFrame p addr hi lo s := by
  obtain ⟨hen1, hen2, hen3, hen4⟩ := commandFrame_stays_enabled p addr hi hen
  simp only [busEvents, List.foldl_cons, List.foldl_nil]
  rw [busEvent_start p hen, busEvent_subByte p hen1 rfl, busEvent_target p hen2 addr rfl, busEvent_valueHi p hen3 hi rfl,
    busEvent_valueLo p hen4 lo rfl]
  rfl

/-- Settles O24: the five steps take the five events (`steps_waiting`), whose effect is `commandFrame`. -/
theorem commandFrameIsCaptured : Obligations.CommandFrameIsCaptured := by
  unfold Obligations.CommandFrameIsCaptured
  intro s addr hi lo rest q hr hen ht hq
  have hrun := steps_waiting [.addr startByte, .wdata Config.params.subByte, .wdata addr, .wdata hi, .wdata lo] hr q rest
  have hs : s.waiting _ _ = s := State.waiting_eq hq ht
  rw [busEvents_commandFrame _ addr hi lo hen] at hrun
  refine ⟨_, hs ▸ hrun, ?_, ?_⟩
  · rw [commandFrame_frame]
    rfl
  · simp +contextual [State.waiting, State.scheduled, read_commandFrame]

/-! ## Lists of instructions -/

theorem execAll_snoc {l : List Instr} {i : Instr} {s t u : State} (hl : execAll l s = .next t) (hi : exec i t = .next u) :
    execAll (l ++ [i]) s = .next u := by
  induction l generalizing s with
  | nil =>
    obtain rfl := Host.Outcome.next.inj hl
    exact execAll_cons i [] s u hi
  | cons j l ih =>
    obtain ⟨v, hv⟩ := exec_next j s
    rw [execAll_cons j l s v hv] at hl
    rw [List.cons_append, execAll_cons j _ s v hv, ih hl]

/-- The address phase of a generic frame (R123). -/
theorem exec_busAddrIndex {s : State} {idx : Byte} (hen : s.mapAt 241#8 ≠ 0#8) (hidx : idx ≠ startByte) :
    exec (.busAddrIndex idx) s = .next (loadCursor idx s) :=
  congrArg Host.Outcome.next (busEvent_index _ hen hidx)

/-! ## The generic write frame (R95, R123, R125, R126) -/

/-- What the data bytes of a generic write frame leave of `s`: byte `k` stands `k` cells past the cursor, the bytes that fall on 255
overwrite one another, and nothing else of the map changes. -/
structure State.GenericWrites (s : State) (data : List Byte) (t : State) : Prop where
  frame : t = { s with
    map := t.map, cursor := t.cursor, busOut := s.busOut ++ List.replicate data.length ⟨true, none⟩ }
  cursor : t.cursor.toNat = min (s.cursor.toNat + data.length) 255
  inOrder : ∀ k b, data[k]? = some b → s.cursor.toNat + k < 255 → t.map.read (s.cursor.toNat + k) = b
  last : ∀ b, data.getLast? = some b → 255 < s.cursor.toNat + data.length → t.map.read 255 = b
  elsewhere : ∀ a, a < s.cursor.toNat ∨ min (s.cursor.toNat + data.length) 256 ≤ a → t.map.read a = s.map.read a

theorem genericWrites_nil (s : State) : s.GenericWrites [] s where
  frame := by simp
  cursor := by have := s.cursor.isLt; simp; omega
  inOrder := by simp
  last := by simp
  elsewhere _ _ := rfl

/-- One more byte is stored at `min(cursor + k, 255)`, `k` the number of bytes before it. -/
theorem genericWrites_snoc {s t : State} {data : List Byte} (h : s.GenericWrites data t) (b : Byte) :
    s.GenericWrites (data ++ [b]) (mirrorWrite b t) := by
  have hread : ∀ a, (mirrorWrite b t).map.read a =
      if a = min (s.cursor.toNat + data.length) 255 then b else t.map.read a := by
    intro a
    rw [← h.cursor]
    exact Memory.read_write _ _ _ _
  refine ⟨?_, ?_, fun k x hk hlt => ?_, fun x hx hlt => ?_, fun a ha => ?_⟩
  · rw [List.length_append, List.length_singleton, List.replicate_succ', ← List.append_assoc]
    conv_lhs => rw [mirrorWrite, h.frame]
    rfl
  · have hadv : (mirrorWrite b t).cursor.toNat = min (t.cursor.toNat + 1) 255 := adv_toNat _
    simp only [hadv, h.cursor, List.length_append, List.length_singleton]
    omega
  · rw [hread]
    rcases Nat.lt_or_ge k data.length with hin | hout
    · rw [if_neg (by omega), h.inOrder k x (by rwa [List.getElem?_append_left hin] at hk) hlt]
    · rw [List.getElem?_append_right hout] at hk
      obtain ⟨hlast, rfl⟩ : k - data.length = 0 ∧ b = x := by simpa [List.getElem?_singleton] using hk
      rw [if_pos (by omega)]
  · obtain rfl : b = x := by simpa using hx
    rw [List.length_append, List.length_singleton] at hlt
    rw [hread, if_pos (by omega)]
  · rw [List.length_append, List.length_singleton] at ha
    have := s.cursor.isLt
    rw [hread, if_neg (by omega), h.elsewhere a (by omega)]

/-- A generic write frame that stores no 0 at 241 keeps the emulator enabled to its end, so every byte of it is stored (R121). -/
theorem execAll_genericWrites {s : State} (hen : s.mapAt 241#8 ≠ 0#8) (hw : s.writeState = .genericData) (data : List Byte)
    (hkeep : ∀ k, s.cursor.toNat + k = 241 → data[k]? ≠ some 0#8) :
    ∃ t, execAll (data.map .busWdataGeneric) s = .next t ∧ s.GenericWrites data t ∧ t.mapAt 241#8 ≠ 0#8 := by
  induction data using List.reverseRecOn with
  | nil => exact ⟨s, rfl, genericWrites_nil s, hen⟩
  | append_singleton data b ih =>
    obtain ⟨t, hrun, hwrites, hent⟩ := ih fun k hk h0 =>
      hkeep k hk ((List.getElem?_append_left (List.getElem?_eq_some_iff.mp h0).1).trans h0)
    have hwt : t.writeState = .genericData := by rw [hwrites.frame, hw]
    have hone : exec (.busWdataGeneric b) t = .next (mirrorWrite b t) :=
      congrArg Host.Outcome.next (busEvent_generic _ hent b hwt)
    refine ⟨_, List.map_append ▸ execAll_snoc hrun hone, genericWrites_snoc hwrites b, ?_⟩
    have hread : (mirrorWrite b t).mapAt 241#8 = if 241#8 = t.cursor then b else t.mapAt 241#8 := State.mapAt_setMap t _ _ _
    rw [hread]
    split
    · next hc =>
      have hpos : s.cursor.toNat + data.length = 241 := by
        have hmin := hwrites.cursor
        rw [← hc, BitVec.toNat_ofNat] at hmin
        omega
      intro hb
      exact hkeep _ hpos (hb ▸ List.getElem?_concat_length)
    · exact hent

/-- Settles O25: the address byte becomes the cursor, and `execAll_genericWrites` runs the data bytes from there. -/
theorem genericWriteFrameStoresInOrder : Obligations.GenericWriteFrameStoresInOrder := by
  unfold Obligations.GenericWriteFrameStoresInOrder
  intro s idx data hen hidx hkeep
  obtain ⟨t, hrun, ⟨hframe, hcursor, hinOrder, hlast, helse⟩, -⟩ :=
    execAll_genericWrites (s := loadCursor idx s) hen rfl data hkeep
  refine ⟨t, (execAll_cons _ _ _ _ (exec_busAddrIndex hen hidx)).trans hrun, ?_, hcursor, hinOrder, hlast, helse⟩
  rw [List.replicate_succ, List.append_cons]
  exact hframe

/-! ## The generic read frame (R96, R133) -/

theorem adv_iterate_toNat (c : Byte) (n : Nat) : (adv^[n] c).toNat = min (c.toNat + n) 255 := by
  induction n with
  | zero => have := c.isLt; simp; omega
  | succ n ih =>
    rw [Function.iterate_succ_apply', adv_toNat, ih]
    omega

/-- `n` mirrored reads: the cursor advances `n` times, and read `k` reports the cell `k` past the cursor it began at. -/
def mirrorReads (n : Nat) (s : State) : State :=
  { s with
    cursor := adv^[n] s.cursor
    busOut := s.busOut ++ (List.range n).map fun k => ⟨true, some (s.map.read (min (s.cursor.toNat + k) 255))⟩ }

theorem mirrorReads_zero (s : State) : mirrorReads 0 s = s := by simp [mirrorReads]

theorem mirrorRead_mirrorReads (n : Nat) (s : State) : mirrorRead (mirrorReads n s) = mirrorReads (n + 1) s := by
  have hcell : (mirrorReads n s).mapAt (mirrorReads n s).cursor = s.map.read (min (s.cursor.toNat + n) 255) := by
    rw [← adv_iterate_toNat]
    rfl
  rw [mirrorRead, hcell]
  simp [mirrorReads, State.answerBus, State.setCursor, List.range_succ, Function.iterate_succ_apply']

/-- While the hook does not fire, every read request of the frame is a mirrored read (R132, R133). -/
theorem execAll_mirrorReads {s : State} (hen : s.mapAt 241#8 ≠ 0#8) (n : Nat)
    (hhook : ∀ k, k < n → s.mapAt 244#8 ≠ 0#8 → min (s.cursor.toNat + k) 255 ≠ (s.mapAt 242#8).toNat) :
    execAll (List.replicate n .busRreqMirror) s = .next (mirrorReads n s) := by
  induction n with
  | zero => rw [mirrorReads_zero]; rfl
  | succ n ih =>
    have hnohook : ¬ ((mirrorReads n s).cursor = s.mapAt 242#8 ∧ s.mapAt 244#8 ≠ 0#8) := by
      rintro ⟨hc, hcap⟩
      exact hhook n n.lt_succ_self hcap (by rw [← adv_iterate_toNat, ← hc]; rfl)
    have hone : exec .busRreqMirror (mirrorReads n s) = .next (mirrorRead (mirrorReads n s)) :=
      congrArg Host.Outcome.next ((busEvent_rreq _ (mirrorReads n s) hen).trans (readSide_mirror _ _ hnohook))
    rw [List.replicate_succ', ← mirrorRead_mirrorReads]
    exact execAll_snoc (ih fun k hk => hhook k (by omega)) hone

/-- Settles O26: the address byte becomes the cursor, and `execAll_mirrorReads` runs the read requests from there. -/
theorem genericReadFrameReturnsInOrder : Obligations.GenericReadFrameReturnsInOrder := by
  unfold Obligations.GenericReadFrameReturnsInOrder
  intro s idx n hen hidx hhook
  have hrun := execAll_mirrorReads (s := loadCursor idx s) hen n hhook
  refine ⟨_, (execAll_cons _ _ _ _ (exec_busAddrIndex hen hidx)).trans hrun, rfl, adv_iterate_toNat idx n, ?_⟩
  rw [List.append_cons]
  rfl

end Sys2Proof.Machine
end

section
/-! The bus-slave emulator, event by event: the row each word selects in an enabled machine, the cells each rule writes, what an event
depends on, and a command frame cut by an address phase (40_bus_slave.md R120–R137); and that a step runs the row its input decodes to
(R120, R161, R210). -/

namespace Sys2Proof.Machine

/-! ## The poll hook (R132, R134, R135) -/

/-- Both hook modes leave the map of the side effect they share. -/
theorem fireHook_map (p : Params) (s : State) : (fireHook p s).map = (consumeCapture p s).map := by
  unfold fireHook
  split <;> rfl

theorem fireHook_override {p : Params} (h : p.hookMode = .override) (s : State) :
    fireHook p s = (consumeCapture p s).answerBus true (some (s.mapAt 244#8)) := by
  rw [fireHook, h]

theorem fireHook_sideEffectOnly {p : Params} (h : p.hookMode = .sideEffectOnly) (s : State) :
    fireHook p s = mirrorRead (consumeCapture p s) := by
  rw [fireHook, h]

/-! ## The cells each rule writes (R124, R127, R129–R131, R134) -/

theorem read_setStatus (s : State) (code : Byte) (a : Nat) :
    (s.setStatus code).map.read a = if a = 252 then code else s.map.read a := Memory.read_write _ _ _ _

/-- A byte stored and the status written after it. -/
theorem read_setMap_setStatus (s : State) (i v code : Byte) (a : Nat) :
    ((s.setMap i v).setStatus code).map.read a =
      if a = 252 then code else if a = i.toNat then v else s.map.read a := by
  rw [read_setStatus, State.setMap_map, Memory.read_write]

theorem read_startCommand (p : Params) (s : State) (a : Nat) :
    (startCommand p s).map.read a = if a = 252 then p.stCmdStart else s.map.read a := read_setStatus s _ a

theorem read_acceptSub (p : Params) (s : State) (a : Nat) :
    (acceptSub p s).map.read a = if a = 252 then p.stSubOk else s.map.read a := read_setStatus s _ a

theorem read_captureTarget (p : Params) (b : Byte) (s : State) (a : Nat) :
    (captureTarget p b s).map.read a = if a = 252 then p.stTarget else if a = 242 then b else s.map.read a :=
  read_setMap_setStatus s 242#8 b _ a

theorem read_captureHi (p : Params) (b : Byte) (s : State) (a : Nat) :
    (captureHi p b s).map.read a = if a = 252 then p.stValueHi else if a = 243 then b else s.map.read a :=
  read_setMap_setStatus s 243#8 b _ a

theorem read_captureLo (p : Params) (b : Byte) (s : State) (a : Nat) :
    (captureLo p b s).map.read a = if a = 252 then p.stComplete else if a = 244 then b else s.map.read a :=
  read_setMap_setStatus s 244#8 b _ a

theorem read_fireHook (p : Params) (s : State) (a : Nat) :
    (fireHook p s).map.read a = if a = 252 then p.stHook else if a = 244 then 0#8 else s.map.read a := by
  rw [fireHook_map]
  exact read_setMap_setStatus s 244#8 0#8 _ a

/-! ## An enabled event: the row its word selects, and its rule (R105, R138) -/

section Enabled

variable (p : Params) {s : State} (hen : s.mapAt 241#8 ≠ 0#8)
include hen

theorem decodeBus_addr_enabled (b : Byte) :
    decodeBus p s.busMode (eventWord 0#2 b) = if b = startByte then .busAddrStart else .busAddrIndex b := by
  rw [decodeBus_addr, selectEvent_addr p _ b ((State.enabled_iff s).mpr hen)]

theorem decodeBus_wdata_enabled (b : Byte) : decodeBus p s.busMode (eventWord 1#2 b) = wdataRow p b s.writeState := by
  rw [decodeBus_wdata, selectEvent_wdata p _ b ((State.enabled_iff s).mpr hen), State.busMode_writeState]

theorem decodeBus_rreq_enabled : decodeBus p s.busMode 0x200#10 = if s.hook then .busRreqHook else .busRreqMirror := by
  rw [← State.busMode_hook, ← selectEvent_rreq p s.busMode ((State.enabled_iff s).mpr hen)]
  exact decodeBus_word p s.busMode .rreq

theorem busEvent_awaitingIndex (b : Byte) (hw : s.writeState = .awaitingIndex) :
    busEvent p (.wdata b) s = mirrorWrite b s := by
  rw [busEvent_wdata p _ s hen, dataPhase, hw]

theorem busEvent_notSubByte {b : Byte} (hw : s.writeState = .awaitingSubCommand) (hb : b ≠ p.subByte) :
    busEvent p (.wdata b) s = rejectSub s := by
  rw [busEvent_wdata p _ s hen, dataPhase, hw]
  exact if_neg hb

theorem exec_busAddrStart : exec .busAddrStart s = .next (startCommand Config.params s) :=
  congrArg Host.Outcome.next (busEvent_start _ hen)

theorem exec_busWdataSubMatch (hw : s.writeState = .awaitingSubCommand) :
    exec .busWdataSubMatch s = .next (acceptSub Config.params s) :=
  congrArg Host.Outcome.next (busEvent_subByte _ hen hw)

theorem exec_busWdataTarget (b : Byte) (hw : s.writeState = .awaitingTargetAddr) :
    exec (.busWdataTarget b) s = .next (captureTarget Config.params b s) :=
  congrArg Host.Outcome.next (busEvent_target _ hen b hw)

end Enabled

/-! ## What an event depends on (R105, R120) -/

/-- `r` with the state of `s` that a bus event reads: the map, `write_state` and the cursor. -/
def State.withBusState (r s : State) : State := { r with map := s.map, writeState := s.writeState, cursor := s.cursor }

theorem State.withBusState_eq {r s : State} (hm : s.map = r.map) (hw : s.writeState = r.writeState)
    (hc : s.cursor = r.cursor) : r.withBusState s = r := by
  rw [State.withBusState, hm, hw, hc]

/-- An event does the same with the rest of another state around what it reads, and appends the same report. -/
theorem busEvent_withBusState (p : Params) (e : BusEvent) (r s : State) :
    ∃ l, (busEvent p e s).busOut = s.busOut ++ l ∧
      busEvent p e (r.withBusState s) = { r.withBusState (busEvent p e s) with busOut := r.busOut ++ l } := by
  have hstate : (r.withBusState s).writeState = s.writeState := rfl
  have hhook : (r.withBusState s).hook = s.hook := rfl
  by_cases hen : s.mapAt 241#8 = 0#8
  · rw [busEvent_disabled p e s hen, busEvent_disabled p e (r.withBusState s) hen]
    exact ⟨_, rfl, rfl⟩
  cases e with
  | addr b =>
    rw [busEvent_addr p b s hen, busEvent_addr p b (r.withBusState s) hen, addrPhase, addrPhase]
    split <;> exact ⟨_, rfl, rfl⟩
  | wdata b =>
    rw [busEvent_wdata p b s hen, busEvent_wdata p b (r.withBusState s) hen, dataPhase, dataPhase, hstate]
    cases s.writeState with
    | awaitingSubCommand => dsimp only; split <;> exact ⟨_, rfl, rfl⟩
    | _ => exact ⟨_, rfl, rfl⟩
  | rreq =>
    rw [busEvent_rreq p s hen, busEvent_rreq p (r.withBusState s) hen, readSide, readSide, hhook, fireHook, fireHook]
    split
    · cases p.hookMode <;> exact ⟨_, rfl, rfl⟩
    · exact ⟨_, rfl, rfl⟩

/-- Settles O23: every bus row is some event, which does the same around other state (`busEvent_withBusState`), or the mark. -/
theorem busEventDependsOnItsOwnState : Obligations.BusEventDependsOnItsOwnState := by
  unfold Obligations.BusEventDependsOnItsOwnState
  intro i s s' t t' hi hm hw hc hx hx'
  rcases exec_bus i hi with ⟨e, he⟩ | he
  · obtain rfl := Host.Outcome.next.inj ((he s).symm.trans hx)
    obtain rfl := Host.Outcome.next.inj ((he s').symm.trans hx')
    obtain ⟨l, hout, hsame⟩ := busEvent_withBusState Config.params e s' s
    rw [State.withBusState_eq hm hw hc] at hsame
    rw [hsame]
    exact ⟨rfl, rfl, rfl, l, hout, rfl⟩
  · obtain rfl := Host.Outcome.next.inj ((he s).symm.trans hx)
    obtain rfl := Host.Outcome.next.inj ((he s').symm.trans hx')
    exact ⟨hm, hw, hc, [], (List.append_nil _).symm, (List.append_nil _).symm⟩

/-! ## The hook (R134, R135) -/

/-- Settles O19: both modes write the cells of `read_fireHook`; the report and the cursor are those of the mode. -/
theorem hookConsumesTheCapture : Obligations.HookConsumesTheCapture := by
  unfold Obligations.HookConsumesTheCapture
  intro s hen hc hcap
  have hhook : s.hook = true := (State.hook_iff s).mpr ⟨hc, hcap⟩
  have hexec : exec .busRreqHook s = .next (fireHook Config.params s) :=
    congrArg Host.Outcome.next ((busEvent_rreq _ s hen).trans (readSide_hook _ s ⟨hc, hcap⟩))
  refine ⟨by rw [decodeBus_rreq_enabled _ hen, if_pos hhook], _, hexec, ?_, ?_, ?_, ?_⟩
  · simp [read_fireHook]
  · simp [read_fireHook]
  · intro a h244 h252
    simp [read_fireHook, h244, h252]
  · split
    · next hmode =>
      rw [fireHook_override hmode]
      rfl
    · next hmode =>
      rw [fireHook_sideEffectOnly hmode]
      exact ⟨rfl, adv_toNat _⟩

/-! ## A command frame cut after its third event (R137) -/

/-- The effects of the first three events of a command frame and of the address phase that cuts it. -/
def cutFrame (p : Params) (addr idx : Byte) (s : State) : State :=
  loadCursor idx (captureTarget p addr (acceptSub p (startCommand p s)))

theorem read_cutFrame (p : Params) (addr idx : Byte) (s : State) (a : Nat) :
    (cutFrame p addr idx s).map.read a = if a = 252 then p.stTarget else if a = 242 then addr else s.map.read a := by
  have hmap : (cutFrame p addr idx s).map = (captureTarget p addr (acceptSub p (startCommand p s))).map := rfl
  rw [hmap, read_captureTarget, read_acceptSub, read_startCommand]
  split_ifs <;> rfl

theorem cutFrame_frame (p : Params) (addr idx : Byte) (s : State) :
    cutFrame p addr idx s =
      { s with
        map := (cutFrame p addr idx s).map, cursor := idx, writeState := .genericData
        busOut := s.busOut ++ List.replicate 4 ⟨true, none⟩ } := by
  have hout : (cutFrame p addr idx s).busOut = s.busOut ++ List.replicate 4 ⟨true, none⟩ := by
    simp [cutFrame, loadCursor, captureTarget, acceptSub, startCommand, State.setStatus, State.answerBus]
  rw [← hout]
  rfl

/-- No event of the cut frame touches the enable cell, so each is handled by its rule (R121). -/
theorem execAll_cutFrame (addr : Byte) {idx : Byte} {s : State} (hen : s.mapAt 241#8 ≠ 0#8) (hidx : idx ≠ startByte) :
    execAll [.busAddrStart, .busWdataSubMatch, .busWdataTarget addr, .busAddrIndex idx] s =
      .next (cutFrame Config.params addr idx s) := by
  obtain ⟨hen1, hen2, hen3, -⟩ := commandFrame_stays_enabled Config.params addr 0#8 hen
  rw [execAll_cons _ _ _ _ (exec_busAddrStart hen), execAll_cons _ _ _ _ (exec_busWdataSubMatch hen1 rfl),
    execAll_cons _ _ _ _ (exec_busWdataTarget hen2 addr rfl), execAll_cons _ _ _ _ (exec_busAddrIndex hen3 hidx)]
  rfl

/-- Settles O28: the four events leave `cutFrame`, which writes the target and the status alone. -/
theorem cutFrameLeavesAMixedCapture : Obligations.CutFrameLeavesAMixedCapture := by
  unfold Obligations.CutFrameLeavesAMixedCapture
  intro s addr idx hen hidx
  refine ⟨_, execAll_cutFrame addr hen hidx, cutFrame_frame _ addr idx s, ?_⟩
  simp +contextual [read_cutFrame]

/-! ## A step runs the decoded row (R120, R161, R210) -/

/-- The bridge's turn with a byte waiting runs the row of the oldest one (R161). -/
theorem step_bridge (s : State) (h : s.phase = .running) {pace : Pace} (ht : s.env.drawTurn.1 = .move (.main pace))
    (hp : s.pendingStores = []) (hs : s.owStage = none) (hm : s.mainPos = .bridge) {b : Byte} {q : List Byte}
    (hq : s.hostIn = b :: q) :
    step s = exec (decodeHost s.bstate b) (((s.setEnv s.env.drawTurn.2).setHostIn q).setMainPos .spoofer) := by
  rw [step_main s h ht hp hs]
  have hm' : (s.setEnv s.env.drawTurn.2).mainPos = .bridge := hm
  have hq' : (s.setEnv s.env.drawTurn.2).hostIn = b :: q := hq
  simp only [agentFetch, hm', hq']
  rfl

/-- Settles O3: the step lemma of each kind of input. -/
theorem stepRunsTheDecodedInstruction : Obligations.StepRunsTheDecodedInstruction := by
  unfold Obligations.StepRunsTheDecodedInstruction
  exact ⟨fun s w q h ht hq => step_bsp s h ht w q hq,
    fun s _ _ _ h ht hp hs hm hq => step_bridge s h ht hp hs hm hq,
    fun s _ h ht hp hs hm hw => step_tick s h ht hp hs hm hw,
    fun s c h ht => step_call s h c ht⟩

/-! ## The events one by one -/

/-- Settles O8: the gate is tested first, by the decoder and by the event step of every row. -/
theorem disabledEventIsNotHandled : Obligations.DisabledEventIsNotHandled := by
  unfold Obligations.DisabledEventIsNotHandled
  intro s hoff
  have hnot : ∀ e, (.next (busEvent Config.params e s) : Result) = .next { s with busOut := s.busOut ++ [⟨false, none⟩] } :=
    fun e => congrArg Host.Outcome.next (busEvent_disabled _ e s hoff)
  refine ⟨fun e => ?_, hnot, fun b => hnot (.addr b), hnot (.addr startByte), fun b => hnot (.wdata b),
    hnot (.wdata Config.params.subByte), fun b => hnot (.wdata b), fun b => hnot (.wdata b), fun b => hnot (.wdata b),
    fun b => hnot (.wdata b), hnot .rreq, hnot .rreq⟩
  rw [decodeBus_word, selectEvent_disabled _ _ e ((State.enabled_eq_false_iff s).mpr hoff)]

/-- Settles O9: the row is `BUS.ADDR.INDEX`, whose rule is `loadCursor`. -/
theorem addressIndexLoadsTheCursor : Obligations.AddressIndexLoadsTheCursor := by
  unfold Obligations.AddressIndexLoadsTheCursor
  intro s b hen hb
  exact ⟨(decodeBus_addr_enabled _ hen b).trans (if_neg hb), exec_busAddrIndex hen hb⟩

/-- Settles O10: the row is `BUS.ADDR.START`, whose rule is `startCommand`. -/
theorem addressStartBeginsACommandFrame : Obligations.AddressStartBeginsACommandFrame := by
  unfold Obligations.AddressStartBeginsACommandFrame
  intro s hen
  refine ⟨decodeBus_addr_enabled _ hen startByte, _, exec_busAddrStart hen, rfl, ?_⟩
  simp +contextual [read_startCommand]

/-- Settles O11: `adv_toNat`. -/
theorem cursorAdvanceClamps : Obligations.CursorAdvanceClamps := adv_toNat

/-- Settles O12: in both generic states the rule is `mirrorWrite`. -/
theorem genericWriteStoresAtTheCursor : Obligations.GenericWriteStoresAtTheCursor := by
  unfold Obligations.GenericWriteStoresAtTheCursor
  intro s b hen hw
  have hrow : wdataRow Config.params b s.writeState = .busWdataGeneric b := by rcases hw with hw | hw <;> rw [hw] <;> rfl
  have hrule : busEvent Config.params (.wdata b) s = mirrorWrite b s := by
    rcases hw with hw | hw
    · exact busEvent_awaitingIndex _ hen b hw
    · exact busEvent_generic _ hen b hw
  exact ⟨(decodeBus_wdata_enabled _ hen b).trans hrow, _, congrArg Host.Outcome.next hrule, rfl, adv_toNat _,
    Memory.read_write_self _ _ _, fun a ha => Memory.read_write_ne _ _ ha⟩

/-- Settles O13: the row is `BUS.WDATA.SUB_MATCH`, whose rule is `acceptSub`. -/
theorem subCommandMatchAdvancesTheFrame : Obligations.SubCommandMatchAdvancesTheFrame := by
  unfold Obligations.SubCommandMatchAdvancesTheFrame
  intro s hen hw
  refine ⟨?_, _, exec_busWdataSubMatch hen hw, rfl, ?_⟩
  · rw [decodeBus_wdata_enabled _ hen, hw]
    exact if_pos rfl
  · simp +contextual [read_acceptSub]

/-- Settles O14: the row is `BUS.WDATA.SUB_MISMATCH`, whose rule is `rejectSub`. -/
theorem subCommandMismatchAborts : Obligations.SubCommandMismatchAborts := by
  unfold Obligations.SubCommandMismatchAborts
  intro s b hen hw hb
  refine ⟨?_, congrArg Host.Outcome.next (busEvent_notSubByte _ hen hw hb)⟩
  rw [decodeBus_wdata_enabled _ hen, hw]
  exact if_neg hb

/-- Settles O15: the row is `BUS.WDATA.TARGET`, whose rule is `captureTarget`. -/
theorem targetIsCaptured : Obligations.TargetIsCaptured := by
  unfold Obligations.TargetIsCaptured
  intro s b hen hw
  refine ⟨?_, _, exec_busWdataTarget hen b hw, rfl, ?_⟩
  · rw [decodeBus_wdata_enabled _ hen, hw]
    rfl
  · simp +contextual [read_captureTarget]

/-- Settles O16: the row is `BUS.WDATA.VALUE_HI`, whose rule is `captureHi`. -/
theorem valueHighIsCaptured : Obligations.ValueHighIsCaptured := by
  unfold Obligations.ValueHighIsCaptured
  intro s b hen hw
  refine ⟨?_, _, congrArg Host.Outcome.next (busEvent_valueHi _ hen b hw), rfl, ?_⟩
  · rw [decodeBus_wdata_enabled _ hen, hw]
    rfl
  · simp +contextual [read_captureHi]

/-- Settles O17: the row is `BUS.WDATA.VALUE_LO`, whose rule is `captureLo`. -/
theorem valueLowCompletesTheCapture : Obligations.ValueLowCompletesTheCapture := by
  unfold Obligations.ValueLowCompletesTheCapture
  intro s b hen hw
  refine ⟨?_, _, congrArg Host.Outcome.next (busEvent_valueLo _ hen b hw), rfl, ?_⟩
  · rw [decodeBus_wdata_enabled _ hen, hw]
    rfl
  · simp +contextual [read_captureLo]

/-- Settles O18: with no hook the row is `BUS.RREQ.MIRROR`, whose rule is `mirrorRead`. -/
theorem mirrorReadReturnsTheCell : Obligations.MirrorReadReturnsTheCell := by
  unfold Obligations.MirrorReadReturnsTheCell
  intro s hen hno
  have hhook : ¬ s.hook = true := fun h => hno ((State.hook_iff s).mp h)
  exact ⟨(decodeBus_rreq_enabled _ hen).trans (if_neg hhook), _,
    congrArg Host.Outcome.next ((busEvent_rreq _ s hen).trans (readSide_mirror _ s hno)), rfl, adv_toNat _⟩

end Sys2Proof.Machine
end

section
/-! The host port, byte by byte: the row each byte selects and what it does in the state it is read in, the write frame and the read
frame (41_bridge_port.md R161–R167). -/

namespace Sys2Proof.Machine

/-! ## The rule a host byte takes (R161) -/

section Rules

variable (p : Params) {s : State}

theorem bridgeByte_readToken (h : s.bstate = .idle) : bridgeByte p readToken s = s.setBstate .awaitIndexRead := by
  rw [bridgeByte, h]
  exact if_pos rfl

theorem bridgeByte_writeToken (h : s.bstate = .idle) : bridgeByte p writeToken s = s.setBstate .awaitIndexWrite := by
  have hne : writeToken ≠ readToken := by decide
  rw [bridgeByte, h]
  exact (if_neg hne).trans (if_pos rfl)

theorem bridgeByte_otherLead (h : s.bstate = .idle) {b : Byte} (hR : b ≠ readToken) (hW : b ≠ writeToken) :
    bridgeByte p b s = s := by
  rw [bridgeByte, h]
  exact (if_neg hR).trans (if_neg hW)

theorem bridgeByte_awaitIndexRead (h : s.bstate = .awaitIndexRead) (b : Byte) : bridgeByte p b s = replyCell b s := by
  rw [bridgeByte, h]

theorem bridgeByte_awaitIndexWrite (h : s.bstate = .awaitIndexWrite) (b : Byte) : bridgeByte p b s = holdIndex b s := by
  rw [bridgeByte, h]

theorem bridgeByte_awaitValue (h : s.bstate = .awaitValue) (b : Byte) : bridgeByte p b s = storeCell p b s := by
  rw [bridgeByte, h]

end Rules

/-! ## The effect of each row in the state that selects it (R162–R167) -/

section Rows

variable {s : State}

theorem exec_hostLeadR (h : s.bstate = .idle) : exec .hostLeadR s = .next (s.setBstate .awaitIndexRead) :=
  congrArg Host.Outcome.next (bridgeByte_readToken _ h)

theorem exec_hostLeadW (h : s.bstate = .idle) : exec .hostLeadW s = .next (s.setBstate .awaitIndexWrite) :=
  congrArg Host.Outcome.next (bridgeByte_writeToken _ h)

theorem exec_hostLeadOther (h : s.bstate = .idle) {b : Byte} (hR : b ≠ readToken) (hW : b ≠ writeToken) :
    exec (.hostLeadOther b) s = .next s :=
  congrArg Host.Outcome.next (bridgeByte_otherLead _ h hR hW)

theorem exec_hostRIndex (h : s.bstate = .awaitIndexRead) (b : Byte) : exec (.hostRIndex b) s = .next (replyCell b s) :=
  congrArg Host.Outcome.next (bridgeByte_awaitIndexRead _ h b)

theorem exec_hostWIndex (h : s.bstate = .awaitIndexWrite) (b : Byte) : exec (.hostWIndex b) s = .next (holdIndex b s) :=
  congrArg Host.Outcome.next (bridgeByte_awaitIndexWrite _ h b)

theorem exec_hostWValue (h : s.bstate = .awaitValue) (b : Byte) :
    exec (.hostWValue b) s = .next (storeCell Config.params b s) :=
  congrArg Host.Outcome.next (bridgeByte_awaitValue _ h b)

end Rows

/-! ## The write frame and the read frame (R164–R166; R162, R163) -/

section Frames

variable {s : State} (h : s.bstate = .idle)
include h

/-- A write frame stores and acknowledges, keeps its index in `bidx`, and leaves the bridge in `Idle`; `rest` goes on from there. -/
theorem execAll_hostWriteFrame (idx v : Byte) (rest : List Instr) :
    execAll (.hostLeadW :: .hostWIndex idx :: .hostWValue v :: rest) s =
      execAll rest (((s.setMap idx v).setBidx idx).replyHost Config.params.ackByte) := by
  have hback : storeCell Config.params v (holdIndex idx (s.setBstate .awaitIndexWrite)) =
      (((s.setMap idx v).setBidx idx).replyHost Config.params.ackByte).setBstate .idle := rfl
  rw [execAll_cons _ _ _ _ (exec_hostLeadW h), execAll_cons _ _ _ _ (exec_hostWIndex rfl idx),
    execAll_cons _ _ _ _ (exec_hostWValue rfl v), hback, ← h]
  rfl

/-- A read frame replies the cell and leaves the bridge in `Idle`. -/
theorem execAll_hostReadFrame (idx : Byte) :
    execAll [.hostLeadR, .hostRIndex idx] s = .next (s.replyHost (s.mapAt idx)) := by
  have hback : replyCell idx (s.setBstate .awaitIndexRead) = (s.replyHost (s.mapAt idx)).setBstate .idle := rfl
  rw [execAll_cons _ _ _ _ (exec_hostLeadR h), execAll_cons _ _ _ _ (exec_hostRIndex rfl idx), hback, ← h]
  rfl

end Frames

/-- Settles O34: the write frame, then the read frame from the state it leaves, which reads the byte just stored. -/
theorem hostWriteThenReadRoundTrip : Obligations.HostWriteThenReadRoundTrip := by
  unfold Obligations.HostWriteThenReadRoundTrip
  intro s idx v h
  have hidle : (((s.setMap idx v).setBidx idx).replyHost Config.params.ackByte).bstate = .idle := h
  have hout : (s.hostOut ++ [Config.params.ackByte]) ++ [v] = s.hostOut ++ [Config.params.ackByte, v] :=
    List.append_assoc _ _ _
  have hread := execAll_hostReadFrame hidle idx
  rw [State.replyHost_mapAt, State.setBidx_mapAt, State.mapAt_setMap_self] at hread
  refine ⟨_, (execAll_hostWriteFrame h idx v _).trans hread, ?_, Memory.read_write_self _ _ _,
    fun a ha => Memory.read_write_ne _ _ ha⟩
  rw [← hout]
  rfl

/-! ## The bytes one by one -/

/-- Settles O29: the byte selects the row by its value, and the row's rule tests the same value. -/
theorem leadingByteStartsAFrameOrIsIgnored : Obligations.LeadingByteStartsAFrameOrIsIgnored := by
  unfold Obligations.LeadingByteStartsAFrameOrIsIgnored
  intro s h
  refine ⟨by rw [h]; rfl, exec_hostLeadR h, by rw [h]; rfl, exec_hostLeadW h,
    fun b hR hW => ⟨?_, exec_hostLeadOther h hR hW⟩⟩
  rw [h]
  exact (if_neg hR).trans (if_neg hW)

/-- Settles O30: the row's rule is `replyCell`. -/
theorem hostReadReplies : Obligations.HostReadReplies := by
  unfold Obligations.HostReadReplies
  intro s b h
  exact ⟨by rw [h]; rfl, exec_hostRIndex h b⟩

/-- Settles O31: the row's rule is `holdIndex`. -/
theorem hostWriteHoldsTheIndex : Obligations.HostWriteHoldsTheIndex := by
  unfold Obligations.HostWriteHoldsTheIndex
  intro s b h
  exact ⟨by rw [h]; rfl, exec_hostWIndex h b⟩

/-- Settles O32: the row's rule is `storeCell`, which writes the held index alone. -/
theorem hostWriteStoresAndAcknowledges : Obligations.HostWriteStoresAndAcknowledges := by
  unfold Obligations.HostWriteStoresAndAcknowledges
  intro s b h
  exact ⟨by rw [h]; rfl, _, exec_hostWValue h b, rfl, Memory.read_write_self _ _ _,
    fun a ha => Memory.read_write_ne _ _ ha⟩

end Sys2Proof.Machine
end

section
/-! The single-wire transport: what each row sends, returns and uses (42_onewire_transport.md R180–R187), and the tick in slices,
between and during whose exchanges bus events may fall (R189). -/

namespace Sys2Proof.Machine

/-! ## The rows of the transport -/

/-- Settles O36: one exchange by `touchByte_eq`, and its echo handed to the caller. -/
theorem touchByteIsOneExchange : Obligations.TouchByteIsOneExchange := by
  unfold Obligations.TouchByteIsOneExchange
  intro s v
  rw [exec, execOwTouchByte, touchByte_eq]
  rfl

/-- Settles O37: the reset by `owReset_eq`; its presence is that the echo differs. -/
theorem resetDetectsPresence : Obligations.ResetDetectsPresence := by
  unfold Obligations.ResetDetectsPresence
  intro s
  have hpresent : presence Config.params s.env.drawEcho.1 = decide (s.env.drawEcho.1 ≠ Config.params.owResetByte) :=
    Bool.eq_iff_iff.mpr (bne_iff_ne.trans decide_eq_true_iff.symm)
  rw [exec, execOwReset, owReset_eq, hpresent]
  rfl

/-- The decode of an echo, mode by mode (R184). -/
theorem decodeBit_eq (p : Params) (e : Byte) :
    decodeBit p e = match p.bitDecode with
      | .allOnes => decide (e = 0xFF#8)
      | .lsb => e.getLsbD 0 := by
  rw [decodeBit]
  cases p.bitDecode <;> rfl

/-- Settles O38: each slot is `touchBit` or `readBit`, whose value is the decode of the echo. -/
theorem bitSlotsSendAndDecode : Obligations.BitSlotsSendAndDecode := by
  unfold Obligations.BitSlotsSendAndDecode
  intro s
  refine ⟨decodeBit Config.params s.env.drawEcho.1, decodeBit_eq _ _, ?_, ?_, ?_⟩
  · rw [exec, execOwWriteBit1, touchBit_eq]
    rfl
  · rw [exec, execOwWriteBit0, touchBit_eq]
    rfl
  · rw [exec, execOwReadBit, readBit_eq]
    rfl

theorem exec_owWriteByte (v : Byte) (s : State) :
    exec (.owWriteByte v) s = .next ((writeByte Config.params v s).setLineResult .nothing) := rfl

theorem exec_owReadByte (s : State) :
    exec .owReadByte s = .next ((readByte Config.params s).2.setLineResult (.byte (readByte Config.params s).1)) := rfl

/-- Settles O39: the exchanges and the echoes used are those of `writeByte_spec`. -/
theorem writeByteSendsEightSlots : Obligations.WriteByteSendsEightSlots := by
  unfold Obligations.WriteByteSendsEightSlots
  intro s v
  obtain ⟨l, e, d, hw, hslots, hechoes⟩ := writeByte_spec Config.params v s
  refine ⟨_, exec_owWriteByte v s, ?_⟩
  rw [hw]
  refine ⟨rfl, ⟨l, rfl, hslots⟩, fun es rest hes hlen => ?_⟩
  obtain ⟨rfl, rfl, hl⟩ := hechoes es rest hes hlen
  exact ⟨rfl, by simpa [State.setLineResult] using hl⟩

/-- Settles O40: the exchanges, the bits and the echoes used are those of `readByte_spec`. -/
theorem readByteAssemblesLsbFirst : Obligations.ReadByteAssemblesLsbFirst := by
  unfold Obligations.ReadByteAssemblesLsbFirst
  intro s
  obtain ⟨l, e, d, hr, hslots, hbits, hechoes⟩ := readByte_spec Config.params s
  refine ⟨_, _, l, exec_owReadByte s, ?_, hslots, hbits, fun es rest hes hlen => ?_⟩
  · rw [hr]
    rfl
  · obtain ⟨rfl, rfl, hl⟩ := hechoes es rest hes hlen
    exact ⟨by rw [hr]; rfl, hl⟩

/-- Settles O41: a command row and the row of its byte are the same `writeByte`. -/
theorem commandsWriteTheirByte : Obligations.CommandsWriteTheirByte := by
  unfold Obligations.CommandsWriteTheirByte
  exact fun s => ⟨⟨_, rfl, exec_owWriteByte _ s⟩, ⟨_, rfl, exec_owWriteByte _ s⟩, ⟨_, rfl, exec_owWriteByte _ s⟩⟩

/-- Settles O42: `exec_line` gives the next state of a transport row as one record. -/
theorem transportRowFrame : Obligations.TransportRowFrame := by
  unfold Obligations.TransportRowFrame
  intro i s t hi hx
  obtain ⟨tm, l, r, e, d, h, htm⟩ := exec_line i s hi
  obtain rfl := Host.Outcome.next.inj (h.symm.trans hx)
  exact ⟨rfl, htm, l, rfl⟩

/-! ## A move of the bus-slave handler and a slice, in either order (R189, R246) -/

/-- A change that neither reads nor writes what a slice does: it writes only the fields of `State.around`, the schedule apart, and
gives them the same values whatever a slice has done. -/
structure LineFree (f : State → State) : Prop where
  around (s : State) : ∃ m w c o r q, f s = s.around m w c o r q s.env.turns
  sliced (s : State) (os : OwState) (n : Nat) (tm : OwTiming) (lo hi : Byte) (st : Option TickStage) (v : Option Byte)
    (l : List Exchange) (ps : List Store) (e : Env) :
    f (s.sliced os n tm lo hi st v l ps e) = (f s).sliced os n tm lo hi st v l ps e

theorem lineFree_id : LineFree id where
  around _ := ⟨_, _, _, _, _, _, rfl⟩
  sliced _ _ _ _ _ _ _ _ _ _ _ := rfl

theorem lineFree_busEvent (p : Params) (e : BusEvent) (q : List EventWord) :
    LineFree fun s => busEvent p e (s.setBusQueue q) where
  around s := ⟨_, _, _, _, _, _, busEvent_frame p e (s.setBusQueue q)⟩
  sliced s := busEvent_sliced p e (s.setBusQueue q)

theorem lineFree_markRefused (q : List EventWord) : LineFree fun s => (s.setBusQueue q).markRefused where
  around _ := ⟨_, _, _, _, _, _, rfl⟩
  sliced _ _ _ _ _ _ _ _ _ _ _ := rfl

/-- A move of the handler is such a change, the same one wherever the same words wait: nothing, an event, or the mark. -/
theorem step_bsp_lineFree (q : List EventWord) :
    ∃ f, LineFree f ∧ ∀ (s : State) (ts : List Turn), s.phase = .running → s.busQueue = q →
      step (s.withTurns (.move .bsp :: ts)) = .next (f (s.withTurns ts)) := by
  cases q with
  | nil => exact ⟨id, lineFree_id, fun s ts hr hq => step_bsp_empty (s.withTurns (.move .bsp :: ts)) hr rfl hq⟩
  | cons w q =>
    have taken (s : State) (ts : List Turn) (hr : s.phase = .running) (hq : s.busQueue = w :: q) :=
      step_bsp (s.withTurns (.move .bsp :: ts)) hr rfl w q hq
    cases hw : EventWord.reserved w with
    | false =>
      obtain ⟨e, rfl⟩ := word_of_not_reserved w hw
      refine ⟨_, lineFree_busEvent Config.params e q, fun s ts hr hq => ?_⟩
      rw [taken s ts hr hq, decodeBus_word, exec_selectEvent]
      rfl
    | true =>
      refine ⟨_, lineFree_markRefused q, fun s ts hr hq => ?_⟩
      rw [taken s ts hr hq, exec_reserved _ _ _ hw]
      rfl

theorem stageMove_withTurns (p : Params) (st : TickStage) (s : State) (ts : List Turn) :
    stageMove p st (s.withTurns ts) = (stageMove p st s).withTurns ts := by
  have h : stageMove p st (s.withTurns ts) = _ :=
    stageMove_around s.map s.writeState s.cursor s.busOut s.refused s.busQueue ts p st s
  obtain ⟨os, n, tm, lo, hi, sg, v, l, ps, e, -, hs⟩ := stageMove_slice p st s
  rw [h, hs]
  rfl

section LineFree

variable {f : State → State} (hf : LineFree f)
include hf

theorem LineFree.withTurns (s : State) (ts : List Turn) : f (s.withTurns ts) = (f s).withTurns ts := by
  have h : f (s.withTurns ts) = _ := hf.sliced s s.owState s.owTicks s.owTiming s.owScratchLo s.owScratchHi s.owStage
    s.owSending s.owLog s.pendingStores { s.env with turns := ts }
  obtain ⟨m, w, c, o, r, q, ha⟩ := hf.around s
  rw [h, ha]
  rfl

/-- A slice and a change free of the line commute. -/
theorem LineFree.stageMove_comm (p : Params) (st : TickStage) (s : State) : stageMove p st (f s) = f (stageMove p st s) := by
  obtain ⟨m, w, c, o, r, q, ha⟩ := hf.around s
  obtain ⟨os, n, tm, lo, hi, sg, v, l, ps, e, he, hs⟩ := stageMove_slice p st s
  rw [ha, stageMove_around, hs, hf.sliced, ha, ← he]
  rfl

/-- What a move of the main loop looks at is left alone. -/
theorem LineFree.keeps (s : State) :
    (f s).phase = s.phase ∧ (f s).pendingStores = s.pendingStores ∧ (f s).owStage = s.owStage := by
  obtain ⟨m, w, c, o, r, q, ha⟩ := hf.around s
  rw [ha]
  exact ⟨rfl, rfl, rfl⟩

end LineFree

/-- A slice leaves the start sequence and the waiting words alone. -/
theorem stageMove_keeps (p : Params) (st : TickStage) (s : State) :
    (stageMove p st s).phase = s.phase ∧ (stageMove p st s).busQueue = s.busQueue := by
  obtain ⟨os, n, tm, lo, hi, sg, v, l, ps, e, -, hs⟩ := stageMove_slice p st s
  rw [hs]
  exact ⟨rfl, rfl⟩

/-- A slice and a move of the handler give the same state in either order. -/
theorem steps_slice_bsp_comm {s : State} (hr : s.phase = .running) (hp : s.pendingStores = []) {st : TickStage}
    (hst : s.owStage = some st) (pace : Pace) (rest : List Turn) :
    steps 2 (s.withTurns (.move (.main pace) :: .move .bsp :: rest)) =
      steps 2 (s.withTurns (.move .bsp :: .move (.main pace) :: rest)) := by
  obtain ⟨f, hf, hbsp⟩ := step_bsp_lineFree s.busQueue
  have slice (u : State) (hu : u.phase = .running) (hup : u.pendingStores = []) (hus : u.owStage = some st) (ts : List Turn) :
      step (u.withTurns (.move (.main pace) :: ts)) = .next (stageMove Config.params st (u.withTurns ts)) :=
    step_stage (u.withTurns (.move (.main pace) :: ts)) hu rfl hup st hus
  obtain ⟨hsr, hsq⟩ := stageMove_keeps Config.params st s
  obtain ⟨hfr, hfp, hfs⟩ := hf.keeps s
  have sliceFirst : steps 2 (s.withTurns (.move (.main pace) :: .move .bsp :: rest)) =
      .next (f ((stageMove Config.params st s).withTurns rest)) := by
    rw [steps_succ 1 _ _ (slice s hr hp hst _), stageMove_withTurns,
      steps_succ 0 _ _ (hbsp (stageMove Config.params st s) rest (hsr.trans hr) hsq), steps]
  have busFirst : steps 2 (s.withTurns (.move .bsp :: .move (.main pace) :: rest)) =
      .next (stageMove Config.params st ((f s).withTurns rest)) := by
    rw [steps_succ 1 _ _ (hbsp s _ hr rfl), hf.withTurns,
      steps_succ 0 _ _ (slice (f s) (hfr.trans hr) (hfp.trans hp) (hfs.trans hst) rest), steps]
  rw [sliceFirst, busFirst, ← stageMove_withTurns, ← hf.withTurns, hf.stageMove_comm]

/-! ## What the second half of an exchange logs (R180, R182) -/

/-- The work after an echo: nothing goes out and no exchange is logged. -/
def State.LineKept (s t : State) : Prop := t.owSending = s.owSending ∧ t.owLog = s.owLog

theorem finishReading_lineKept (s : State) : s.LineKept (finishReading s) := by
  obtain ⟨e, -, h⟩ := finishReading_eq s
  rw [h]
  exact ⟨rfl, rfl⟩

theorem goStart_lineKept (bits : List Bool) (s : State) : s.LineKept (goStart bits s) := by
  cases bits <;> exact ⟨rfl, rfl⟩

theorem goHigh_lineKept (left : List Nat) (r : Byte) (s : State) : s.LineKept (goHigh left r s) := by
  cases left with
  | nil => exact finishReading_lineKept ((s.setScratchHi r).setStage none)
  | cons i rest => exact ⟨rfl, rfl⟩

theorem goLow_lineKept (left : List Nat) (r : Byte) (s : State) : s.LineKept (goLow left r s) := by
  cases left with
  | nil => exact goHigh_lineKept (List.range 8) 0#8 (s.setScratchLo r)
  | cons i rest => exact ⟨rfl, rfl⟩

theorem goCommand_lineKept (bits : List Bool) (s : State) : s.LineKept (goCommand bits s) := by
  cases bits with
  | nil => exact goLow_lineKept (List.range 8) 0#8 s
  | cons x rest => exact ⟨rfl, rfl⟩

/-- The exchange of a stage with a given echo: a reset's at reset timing (R182), any other at the current one (R180). -/
def TickStage.exchange (p : Params) (st : TickStage) (s : State) (e : Byte) : Exchange :=
  ⟨if st.isReset then .resetTiming else s.owTiming, st.sends p, e⟩

/-- One exchange logged, and nothing put on the line. -/
def State.Logs (x : Exchange) (s t : State) : Prop := t.owSending = s.owSending ∧ t.owLog = s.owLog ++ [x]

theorem State.Logs.andKept {x : Exchange} {s t u : State} (h : s.Logs x t) (h' : t.LineKept u) : s.Logs x u :=
  ⟨h'.1.trans h.1, h'.2.trans h.2⟩

theorem owReset_logs (p : Params) (s : State) :
    s.Logs ⟨.resetTiming, p.owResetByte, s.env.drawEcho.1⟩ (owReset p s).2 := ⟨rfl, rfl⟩

theorem touchBit_logs (p : Params) (x : Bool) (s : State) :
    s.Logs ⟨s.owTiming, writeSlot p x, s.env.drawEcho.1⟩ (touchBit p x s).2 := ⟨rfl, rfl⟩

theorem readBit_logs (p : Params) (s : State) :
    s.Logs ⟨s.owTiming, p.owReadSlot, s.env.drawEcho.1⟩ (readBit p s).2 := ⟨rfl, rfl⟩

/-- The second half logs the stage's exchange with the echo drawn. -/
theorem echoHalf_logs (p : Params) (st : TickStage) (s : State) :
    s.Logs (st.exchange p s s.env.drawEcho.1) (echoHalf p st s) := by
  cases st with
  | startReset =>
    refine (owReset_logs p s).andKept ?_
    simp only [echoHalf]
    split
    · exact goStart_lineKept _ _
    · exact ⟨rfl, rfl⟩
  | startSlots x rest => exact (touchBit_logs p x s).andKept (goStart_lineKept rest _)
  | readReset =>
    refine (owReset_logs p s).andKept ?_
    simp only [echoHalf]
    split
    · exact goCommand_lineKept _ _
    · exact finishReading_lineKept ((owReset p s).2.setStage none)
  | commandSlots x rest => exact (touchBit_logs p x s).andKept (goCommand_lineKept rest _)
  | lowSlots i rest r => exact (readBit_logs p s).andKept (goLow_lineKept rest _ _)
  | highSlots i rest r => exact (readBit_logs p s).andKept (goHigh_lineKept rest _ _)

/-- With a byte on the line a slice is the second half of an exchange (R189). -/
theorem stageMove_echo (p : Params) (st : TickStage) {s : State} {v : Byte} (h : s.owSending = some v) :
    stageMove p st s = echoHalf p st (s.setSending none) := by
  unfold stageMove
  rw [h]

/-! ## The slices of a tick end where the whole tick ends -/

/-- Some exchanges in two slices each lead from `s` to `t`, and the log of `t` is longer than that of `s` by just these. -/
def Exchanges (s t : State) : Prop := ∃ k, 0 < k ∧ Sliced k s t ∧ t.owLog.length = s.owLog.length + k

theorem setStage_none {s : State} (h : s.owStage = none) : s.setStage none = s := by rw [State.setStage, ← h]

theorem writeBits_owStage (p : Params) (bits : List Bool) (s : State) : (writeBits p bits s).owStage = s.owStage := by
  obtain ⟨l, e, d, hw, -⟩ := writeBits_spec p bits s
  rw [hw]

/-! ### The tick in `Idle` (R212) -/

/-- The second half of the first reset: the 16 write slots follow with a device present, the tick ends with none. -/
theorem echoHalf_startReset (p : Params) (s : State) (x : Option TickStage) :
    echoHalf p .startReset (s.setStage x) =
      if (owReset p s).1 then goStart (bitsOf p.cmdSelectAll ++ bitsOf p.cmdStartConversion) (owReset p s).2
      else (owReset p s).2.setStage none := rfl

theorem startConversion_eq_writeBits (p : Params) (s : State) (h : (owReset p s).1 = true) :
    startConversion p s =
      (writeBits p (bitsOf p.cmdSelectAll ++ bitsOf p.cmdStartConversion) (owReset p s).2).setOwState .converting := by
  rw [writeBits_append]
  exact if_pos h

theorem startConversion_exchanges {s : State} (h : s.Ready) (hs : s.owStage = none) :
    Exchanges (s.setStage (some .startReset)) (startConversion Config.params s) := by
  have reset := Sliced_one (s.setStage (some .startReset)) h .startReset rfl
  rw [echoHalf_startReset] at reset
  cases hp : (owReset Config.params s).1 with
  | false =>
    rw [hp, if_neg Bool.false_ne_true, setStage_none (s := (owReset Config.params s).2) hs] at reset
    have hend : startConversion Config.params s = (owReset Config.params s).2 := if_neg (ne_true_of_eq_false hp)
    exact ⟨1, one_pos, hend ▸ reset, by rw [hend, owReset_eq]; exact List.length_append⟩
  | true =>
    rw [hp, if_pos rfl] at reset
    have slots := Sliced_start (bitsOf Config.params.cmdSelectAll ++ bitsOf Config.params.cmdStartConversion)
      (owReset Config.params s).2 h
    have hstage := (writeBits_owStage Config.params (bitsOf Config.params.cmdSelectAll ++ bitsOf Config.params.cmdStartConversion)
      (owReset Config.params s).2).trans hs
    rw [goStart, setStage_none hstage, ← startConversion_eq_writeBits _ _ hp] at slots
    refine ⟨17, by decide, Sliced_trans reset slots, ?_⟩
    obtain ⟨l, e, d, hconv, hslots⟩ := startConversion_present Config.params s (bne_iff_ne.mp hp)
    have hlen : l.length = 16 := by simpa [byteSlots] using congrArg List.length hslots
    rw [hconv]
    simp [hlen]

/-! ### The tick in `Reading` (R214) -/

/-- The second half of the second reset: the slots of `readScratch` follow, or the tick ends with the old scratch bytes. -/
theorem echoHalf_readReset (p : Params) (s : State) (x : Option TickStage) :
    echoHalf p .readReset (s.setStage x) =
      if (owReset p s).1 || p.absentRead == .readAnyway then
        goCommand (bitsOf p.cmdSelectAll ++ bitsOf p.cmdReadResult) (owReset p s).2
      else finishReading ((owReset p s).2.setStage none) := rfl

theorem readBits_range_eq (p : Params) (s : State) : readBits p (List.range 8) 0#8 s = readByte p s := rfl

/-- The 16 read slots of the two bytes, low byte first (R215), from the state `s` after the commands. -/
theorem goLow_sliced {s : State} (h : s.Ready) :
    Sliced 16 (goLow (List.range 8) 0#8 s)
      (goHigh [] (readByte Config.params ((readByte Config.params s).2.setScratchLo (readByte Config.params s).1)).1
        (readByte Config.params ((readByte Config.params s).2.setScratchLo (readByte Config.params s).1)).2) := by
  have low := Sliced_low (List.range 8) 0#8 s h
  have hready := Ready_readByte Config.params s h
  rw [readBits_range_eq] at low
  generalize readByte Config.params s = r at low hready ⊢
  exact Sliced_trans low (Sliced_high (List.range 8) 0#8 (r.2.setScratchLo r.1) hready)

/-- The 16 write slots and the 16 read slots of the scratch bytes, and the end of the tick. -/
theorem readScratch_sliced {s : State} (h : s.Ready) (hs : s.owStage = none) :
    Sliced 32 (goCommand (bitsOf Config.params.cmdSelectAll ++ bitsOf Config.params.cmdReadResult) s)
      (finishReading (readScratch Config.params s)) := by
  have command := Sliced_command (bitsOf Config.params.cmdSelectAll ++ bitsOf Config.params.cmdReadResult) s h
  have hready := Ready_writeBits Config.params (bitsOf Config.params.cmdSelectAll ++ bitsOf Config.params.cmdReadResult) s h
  have hstage : (readScratch Config.params s).owStage = none := by
    obtain ⟨l, e, d, lo, hi, hr, -⟩ := readScratch_spec Config.params s
    rw [hr, hs]
  rw [← setStage_none hstage]
  unfold readScratch writeByte
  rw [← writeBits_append]
  generalize writeBits Config.params _ s = u at command hready ⊢
  exact Sliced_trans command (goLow_sliced hready)

theorem readScratch_log_length (p : Params) (s : State) :
    (readScratch p s).owLog.length = s.owLog.length + 32 := by
  obtain ⟨l, e, d, lo, hi, hr, hslots, -⟩ := readScratch_spec p s
  have hlen : l.length = 32 := by simpa [byteSlots, readSlots] using congrArg List.length hslots
  rw [hr, ← hlen]
  exact List.length_append

theorem tickReading_exchanges {s : State} (h : s.Ready) (hs : s.owStage = none) :
    Exchanges (s.setStage (some .readReset)) (tickReading Config.params s) := by
  have reset := Sliced_one (s.setStage (some .readReset)) h .readReset rfl
  have hlog : (owReset Config.params s).2.owLog.length = s.owLog.length + 1 := List.length_append
  have hfinish : (tickReading Config.params s).owLog = (acquire Config.params s).owLog :=
    (finishReading_lineKept (acquire Config.params s)).2
  rw [echoHalf_readReset] at reset
  by_cases hc : ((owReset Config.params s).1 || Config.params.absentRead == .readAnyway) = true
  · rw [if_pos hc] at reset
    have hacquire : acquire Config.params s = readScratch Config.params (owReset Config.params s).2 := if_pos hc
    refine ⟨33, by decide, ?_, ?_⟩
    · rw [tickReading, hacquire]
      exact Sliced_trans reset (readScratch_sliced h hs)
    · rw [hfinish, hacquire, readScratch_log_length, hlog]
      rfl
  · rw [if_neg hc, setStage_none (s := (owReset Config.params s).2) hs] at reset
    have hacquire : acquire Config.params s = (owReset Config.params s).2 := if_neg hc
    refine ⟨1, one_pos, ?_, ?_⟩
    · rw [tickReading, hacquire]
      exact reset
    · rw [hfinish, hacquire, hlog]
      rfl

/-- A tick that uses the line: its slices, once it is begun, end where the whole tick ends. -/
theorem owTick_exchanges {s : State} (h : s.Ready) (hs : s.owStage = none) {st : TickStage}
    (hf : firstStage Config.params s = some st) : Exchanges (beginTick st s) (owTick Config.params s) := by
  obtain ho | ho | ho := owState_cases s
  · have hn : ¬ s.owTicks + 1 < Config.params.n1 := fun hn => by simp [firstStage, ho, hn] at hf
    obtain rfl : st = .startReset := by simpa [firstStage, ho, hn] using hf.symm
    rw [owTick_idle _ s ho, tickIdle, if_neg hn, beginTick, ho]
    exact startConversion_exchanges (s := s.setOwTicks 0) h hs
  · simp [firstStage, ho] at hf
  · obtain rfl : st = .readReset := by simpa [firstStage, ho] using hf.symm
    rw [owTick_reading _ s ho, beginTick, ho]
    exact tickReading_exchanges h hs

theorem beginTick_withTurns (st : TickStage) (s : State) (ts : List Turn) :
    beginTick st (s.withTurns ts) = (beginTick st s).withTurns ts := by
  rw [beginTick_eq, beginTick_eq]
  rfl

/-- The begin of a tick and its exchanges, from the sequencer's turn in the main loop to the end of the tick. -/
theorem steps_tick_inSlices {s : State} (h : s.Ready) (hs : s.owStage = none) (hm : s.mainPos = .owSeq) {st : TickStage}
    (hf : firstStage Config.params s = some st) (rest : List Turn) :
    ∃ k, 0 < k ∧ (owTick Config.params ((s.setMainPos .ntc).withTurns rest)).owLog.length = s.owLog.length + k ∧
      steps (2 * k + 1) (s.withTurns (List.replicate (2 * k + 1) (.move (.main .oneSlice)) ++ rest)) =
        .next (owTick Config.params ((s.setMainPos .ntc).withTurns rest)) := by
  obtain ⟨k, hk, hsliced, hlen⟩ := owTick_exchanges (s := (s.setMainPos .ntc).withTurns rest) h hs hf
  have hturns : (owTick Config.params ((s.setMainPos .ntc).withTurns rest)).withTurns rest = _ :=
    State.scheduled_turns (owTick_turns _ _)
  obtain ⟨hr, hp, -⟩ := h
  have hbegin (ts : List Turn) : step (s.withTurns (.move (.main .oneSlice) :: ts)) =
      .next ((beginTick st ((s.setMainPos .ntc).withTurns rest)).withTurns ts) := by
    rw [step_begin (s.withTurns (.move (.main .oneSlice) :: ts)) hr rfl hp hs hm st hf, ← beginTick_withTurns]
    rfl
  refine ⟨k, hk, ?_, ?_⟩
  · rw [hlen, beginTick_eq]
    rfl
  · rw [List.replicate_succ, List.cons_append, steps_succ _ _ _ (hbegin _), hsliced rest, hturns]

/-- Settles O60: `steps_slice_bsp_comm`, `echoHalf_logs` and `steps_tick_inSlices`. -/
theorem busEventsFallBetweenAndDuringExchanges : Obligations.BusEventsFallBetweenAndDuringExchanges := by
  unfold Obligations.BusEventsFallBetweenAndDuringExchanges
  refine ⟨fun s pace st rest hr hp hst => steps_slice_bsp_comm hr hp hst pace rest, ?_, ?_⟩
  · intro s pace st v hr ht hp hst hv
    obtain ⟨hsending, hlog⟩ := echoHalf_logs Config.params st ((s.setEnv s.env.drawTurn.2).setSending none)
    have hmap := SliceOf_map (echoHalf_slice Config.params st ((s.setEnv s.env.drawTurn.2).setSending none))
    refine ⟨_, step_stage s hr ht hp st hst, ?_⟩
    rw [stageMove_echo _ _ (s := s.setEnv s.env.drawTurn.2) hv]
    exact ⟨hsending, hmap, hlog⟩
  · intro s st rest hr hp hs hv hm hf
    obtain ⟨k, hk, hlen, hsteps⟩ := steps_tick_inSlices ⟨hr, hp, hv⟩ hs hm hf rest
    exact ⟨_, k, exec_tick _ (portOf_decodeTick _) _, hlen, hk, hsteps⟩

end Sys2Proof.Machine
end

section
/-! The single-wire sequencer: its tick state by state, the conversion, the way of the temperature to the map, and runs of ticks
(43_onewire_sequencer.md R210–R220). -/

namespace Sys2Proof.Machine

/-! ## The tick below its threshold and at it (R211–R213) -/

section Ticks

variable {p : Params} {s : State}

theorem owTick_idle_counts (ho : s.owState = .idle) (hn : s.owTicks + 1 < p.n1) : owTick p s = s.setOwTicks (s.owTicks + 1) := by
  rw [owTick_idle p s ho, tickIdle, if_pos hn]

theorem owTick_idle_due (ho : s.owState = .idle) (hn : ¬ s.owTicks + 1 < p.n1) :
    owTick p s = startConversion p (s.setOwTicks 0) := by
  rw [owTick_idle p s ho, tickIdle, if_neg hn]

theorem owTick_converting_counts (ho : s.owState = .converting) (hn : s.owTicks + 1 < p.n2) :
    owTick p s = s.setOwTicks (s.owTicks + 1) := by
  rw [owTick_converting p s ho, tickConverting, if_pos hn]

theorem owTick_converting_due (ho : s.owState = .converting) (hn : ¬ s.owTicks + 1 < p.n2) :
    owTick p s = (s.setOwTicks 0).setOwState .reading := by
  rw [owTick_converting p s ho, tickConverting, if_neg hn]

end Ticks

/-- Settles O43: below the threshold the tick counts; at it the start of a conversion sends what the presence says. -/
theorem idleTickWaitsThenStarts : Obligations.IdleTickWaitsThenStarts := by
  unfold Obligations.IdleTickWaitsThenStarts
  intro s ho
  refine ⟨_, exec_tick .owSeqTickIdle rfl s, ?_⟩
  by_cases hn : s.owTicks + 1 < Config.params.n1
  · rw [if_pos hn]
    exact owTick_idle_counts ho hn
  rw [if_neg hn, owTick_idle_due ho hn]
  by_cases he : s.env.drawEcho.1 = Config.params.owResetByte
  · rw [if_pos he]
    exact startConversion_absent Config.params (s.setOwTicks 0) he
  · rw [if_neg he]
    obtain ⟨l, e, d, hstart, hslots⟩ := startConversion_present Config.params (s.setOwTicks 0) he
    rw [hstart]
    exact ⟨rfl, _, rfl, congrArg (resetSlot Config.params :: ·) hslots⟩

/-- Settles O44: the two branches of the tick in `Converting`. -/
theorem convertingTickWaits : Obligations.ConvertingTickWaits := by
  unfold Obligations.ConvertingTickWaits
  intro s ho
  rw [exec_tick .owSeqTickConverting rfl s]
  split
  · next hn => exact congrArg _ (owTick_converting_counts ho hn)
  · next hn => exact congrArg _ (owTick_converting_due ho hn)

/-! ## The conversion (R216, R218) -/

theorem conv_natAbs (raw : Int) : (conv raw).natAbs = raw.natAbs * 25 / 4 := by
  rw [conv, Int.natAbs_tdiv, Int.natAbs_mul]
  rfl

/-- Settles O48: the size of the result is a floor division, its sign that of the reading, and its range `fitsHalf_conv`. -/
theorem conversionTruncatesTowardZero : Obligations.ConversionTruncatesTowardZero := by
  unfold Obligations.ConversionTruncatesTowardZero
  intro raw
  have hsize := conv_natAbs raw
  refine ⟨by omega, by omega, fun h => ?_, fun h => ?_, fitsHalf_conv raw⟩
  · rw [conv_nonneg raw h]
    omega
  · rw [conv_nonpos raw h]
    omega

/-! ## The tick in `Reading` (R214, R215) -/

/-- Where the scratch bytes `lo` and `hi` of a reading tick from `s` come from, `l` being its exchanges: the decoded echoes of the
last 16 of 33, or, with no device and `STALE`, the bytes of `s` (R214, R215). -/
def State.Acquires (p : Params) (s : State) (l : List Exchange) (lo hi : Byte) : Prop :=
  if s.env.drawEcho.1 ≠ p.owResetByte ∨ p.absentRead = .readAnyway then
    l.map Exchange.slot = resetSlot p ::
      (byteSlots p .bitTiming p.cmdSelectAll ++ byteSlots p .bitTiming p.cmdReadResult ++
        readSlots p .bitTiming ++ readSlots p .bitTiming) ∧
    ∀ i : Nat, i < 8 → ∃ x y, l[17 + i]? = some x ∧ l[25 + i]? = some y ∧
      lo.getLsbD i = decodeBit p x.echo ∧ hi.getLsbD i = decodeBit p y.echo
  else l.map Exchange.slot = [resetSlot p] ∧ lo = s.owScratchLo ∧ hi = s.owScratchHi

theorem stale_of_ne_readAnyway {a : AbsentRead} (h : a ≠ .readAnyway) : a = .stale := by
  cases a with
  | stale => rfl
  | readAnyway => exact absurd rfl h

/-- The read half of the tick in `Reading`, done or skipped, as one record. -/
theorem acquire_spec (p : Params) (s : State) :
    ∃ l e lo hi, acquire p s =
        { s with owTiming := .bitTiming, owScratchLo := lo, owScratchHi := hi, owLog := s.owLog ++ l, env := e } ∧
      s.Acquires p l lo hi := by
  by_cases h : s.env.drawEcho.1 ≠ p.owResetByte ∨ p.absentRead = .readAnyway
  · obtain ⟨l, e, d, lo, hi, hacq, hread⟩ := acquire_done p s h
    exact ⟨l, _, lo, hi, hacq, (if_pos h).mpr hread⟩
  · obtain ⟨hecho, habsent⟩ := not_or.mp h
    exact ⟨_, _, s.owScratchLo, s.owScratchHi, acquire_skipped p s (not_not.mp hecho) (stale_of_ne_readAnyway habsent),
      (if_neg h).mpr ⟨rfl, rfl, rfl⟩⟩

/-- The whole tick in `Reading` as one record: the read half is `acquire_spec`, and the stores carry the temperature of its scratch
bytes, in either order. -/
theorem tickReading_spec (p : Params) (s : State) :
    ∃ l e lo hi stores, ∃ v : Half, tickReading p s =
        { s with
          owState := .idle, owTicks := 0, owTiming := .bitTiming, owLog := s.owLog ++ l, env := e
          owScratchLo := lo, owScratchHi := hi, pendingStores := s.pendingStores ++ stores } ∧
      (stores = [⟨200#8, highByte v⟩, ⟨201#8, lowByte v⟩] ∨ stores = [⟨201#8, lowByte v⟩, ⟨200#8, highByte v⟩]) ∧
      (-5243 ≤ rawReading hi lo → rawReading hi lo ≤ 5242 → v.toInt = conv (rawReading hi lo)) ∧
      (¬ (-5243 ≤ rawReading hi lo ∧ rawReading hi lo ≤ 5242) → ∀ w rest, s.env.temps = w :: rest → v = w) ∧
      s.Acquires p l lo hi := by
  obtain ⟨e, htick⟩ := tickReading_eq p s
  obtain ⟨hexact, hfree⟩ := temperature_spec (acquire p s)
  obtain ⟨-, htemps, -⟩ := acquire_keeps p s
  rw [htemps] at hfree
  generalize (temperature (acquire p s)).1 = v at htick hexact hfree
  generalize (temperature (acquire p s)).2.env.drawOrder.1 = first at htick
  obtain ⟨l, e', lo, hi, hacq, hread⟩ := acquire_spec p s
  rw [hacq] at hexact hfree
  refine ⟨l, e, lo, hi, pairStores first 200#8 v, v, ?_, pairStores_cases first 200#8 v, hexact, hfree, hread⟩
  rw [htick, hacq]

theorem tickReading_turns (p : Params) {s : State} (ho : s.owState = .reading) :
    (tickReading p s).env.turns = s.env.turns := by
  rw [← owTick_reading p s ho, owTick_turns]

/-- Settles O45: `tickReading_spec`. -/
theorem readingTickBeginsTheStores : Obligations.ReadingTickBeginsTheStores := by
  unfold Obligations.ReadingTickBeginsTheStores
  intro s ho
  obtain ⟨l, e, lo, hi, stores, v, htick, hstores, hexact, hfree, hread⟩ := tickReading_spec Config.params s
  refine ⟨_, l, highByte v, lowByte v, exec_tick .owSeqTickReading rfl s, ?_⟩
  rw [owTick_reading _ s ho, htick, joinBytes_high_low]
  exact ⟨rfl, hstores.imp (congrArg _) (congrArg _), hexact, hfree, hread⟩

/-! ## The begun stores on their way to the map (R69, R74, R216) -/

/-- Two moves of the main loop make two begun stores. -/
theorem steps_store_store {s : State} (hr : s.phase = .running) {pace pace' : Pace} {ts : List Turn}
    (ht : s.env.turns = .move (.main pace) :: .move (.main pace') :: ts) {a b : Store} (hp : s.pendingStores = [a, b]) :
    steps 2 s = .next { s with
      map := (s.map.write a.index.toNat a.value).write b.index.toNat b.value
      pendingStores := [], env := { s.env with turns := ts } } := by
  have first := step_scheduled_store s hr pace (.move (.main pace') :: ts) hp
  have last := step_scheduled_store ((s.setMap a.index a.value).setPending [b]) hr pace' ts rfl
  rw [State.scheduled_turns ht] at first
  rw [steps_succ 1 _ _ first, steps_succ 0 _ _ last]
  rfl

/-- Settles O46: `steps_store_store` in each order. -/
theorem begunStoresReachTheMap : Obligations.BegunStoresReachTheMap := by
  unfold Obligations.BegunStoresReachTheMap
  intro s pace pace' hi lo rest hr ht hp
  rcases hp with hp | hp
  · refine ⟨_, steps_store_store hr ht hp, rfl, ?_⟩
    simp +contextual [Memory.read_write]
  · refine ⟨_, steps_store_store hr ht hp, rfl, ?_⟩
    simp +contextual [Memory.read_write]

/-- Where the scratch bytes come from depends on neither the schedule nor the main loop's position. -/
theorem acquires_scheduled {p : Params} {s : State} {m : MainPos} {ts : List Turn} {l : List Exchange} {lo hi : Byte} :
    ((s.setMainPos m).scheduled ts).Acquires p l lo hi ↔ s.Acquires p l lo hi := by
  have hecho : ((s.setMainPos m).scheduled ts).env.drawEcho.1 = s.env.drawEcho.1 :=
    (congrArg Prod.fst (Env.drawEcho_withTurns s.env ts) :)
  rw [State.Acquires, State.Acquires, hecho]
  rfl

/-- The sequencer's turn taken whole, in `Reading`. -/
theorem step_scheduled_tickReading {s : State} (hr : s.phase = .running) (hp : s.pendingStores = []) (hs : s.owStage = none)
    (hm : s.mainPos = .owSeq) (ho : s.owState = .reading) {ts : List Turn} (ht : s.env.turns = .move (.main .wholeTick) :: ts) :
    step s = .next (tickReading Config.params ((s.setMainPos .ntc).scheduled ts)) := by
  have hdraw := Env.drawTurn_script s.env _ _ ht
  rw [step_tick s hr (congrArg Prod.fst hdraw) hp hs hm (.inl rfl), exec_tick _ (portOf_decodeTick _), hdraw]
  exact congrArg _ (owTick_reading _ _ ho)

/-- Settles O47: the first step is the tick (`tickReading_spec`), the other two make its stores (`begunStoresReachTheMap`). -/
theorem readingTickBringsTheTemperatureToTheMap : Obligations.ReadingTickBringsTheTemperatureToTheMap := by
  unfold Obligations.ReadingTickBringsTheTemperatureToTheMap
  intro s pace pace' rest hr hp hs hm ho ht
  have hstep := step_scheduled_tickReading hr hp hs hm ho ht
  have hturns := tickReading_turns Config.params
    (s := (s.setMainPos .ntc).scheduled (.move (.main pace) :: .move (.main pace') :: rest)) ho
  obtain ⟨l, e, lo, hi, stores, v, htick, hstores, hexact, -, hread⟩ :=
    tickReading_spec Config.params ((s.setMainPos .ntc).scheduled (.move (.main pace) :: .move (.main pace') :: rest))
  rw [htick] at hstep hturns
  have hpend : s.pendingStores ++ stores = stores := by rw [hp, List.nil_append]
  obtain ⟨t, hsteps, hframe, h200, h201, hcells⟩ :=
    begunStoresReachTheMap _ pace pace' (highByte v) (lowByte v) rest (by exact hr) hturns (hstores.imp hpend.trans hpend.trans)
  rw [hframe] at hsteps
  refine ⟨_, (steps_succ 2 _ _ hstep).trans hsteps, rfl, rfl, rfl, rfl, rfl, rfl, ?_, hcells, l, rfl, acquires_scheduled.mp hread⟩
  rw [h200, h201, joinBytes_high_low]
  exact hexact

/-! ## What a tick depends on and leaves alone (R210, R220) -/

/-- Settles O49: every tick row is the tick, whose frame is `owTick_frame` and whose independence of the map is `owTick_map`. -/
theorem tickRowFrameAndIndependence : Obligations.TickRowFrameAndIndependence := by
  unfold Obligations.TickRowFrameAndIndependence
  intro i s t hi hx
  obtain rfl := Host.Outcome.next.inj ((exec_tick i hi s).symm.trans hx)
  exact ⟨owTick_frame _ s, fun m => (exec_tick i hi _).trans (congrArg _ (owTick_map _ s m))⟩

/-! ## Runs of ticks (R211, R219) -/

theorem ticks_succ (p : Params) (n : Nat) (s : State) : ticks p (n + 1) s = owTick p (ticks p n s) := rfl

theorem ticks_add (p : Params) (m n : Nat) (s : State) : ticks p (m + n) s = ticks p n (ticks p m s) := by
  induction n with
  | zero => rfl
  | succ n ih => rw [← Nat.add_assoc, ticks_succ, ticks_succ, ih]

/-- Where each tick below `n` only counts, so do all of them together. -/
theorem ticks_count {p : Params} {s : State} {n : Nat} (h0 : s.owTicks = 0)
    (hcount : ∀ k, k + 1 < n → owTick p (s.setOwTicks k) = s.setOwTicks (k + 1)) {k : Nat} (hk : k < n) :
    ticks p k s = s.setOwTicks k := by
  induction k with
  | zero => exact congrArg s.setOwTicks h0
  | succ k ih => rw [ticks_succ, ih (by omega), hcount k hk]

theorem ticks_idle {p : Params} {s : State} (ho : s.owState = .idle) (h0 : s.owTicks = 0) {k : Nat} (hk : k < p.n1) :
    ticks p k s = s.setOwTicks k :=
  ticks_count h0 (fun k hk => owTick_idle_counts (s := s.setOwTicks k) ho hk) hk

theorem ticks_converting {p : Params} {s : State} (ho : s.owState = .converting) (h0 : s.owTicks = 0) {k : Nat}
    (hk : k < p.n2) : ticks p k s = s.setOwTicks k :=
  ticks_count h0 (fun k hk => owTick_converting_counts (s := s.setOwTicks k) ho hk) hk

/-- Settles O50: `ticks_idle`. -/
theorem idleTicksOnlyCount : Obligations.IdleTicksOnlyCount := by
  unfold Obligations.IdleTicksOnlyCount
  exact fun p s k ho h0 hk => ticks_idle ho h0 hk

/-- Tick `N1_OW` starts the conversion (R212). -/
theorem ticks_n1 {p : Params} {s : State} (ho : s.owState = .idle) (h0 : s.owTicks = 0) :
    ticks p p.n1 s = startConversion p (s.setOwTicks 0) := by
  rw [Params.n1, ticks_succ, ticks_idle ho h0 (Nat.lt_succ_self _)]
  exact owTick_idle_due (s := s.setOwTicks p.n1Less1) ho (Nat.lt_irrefl _)

/-- Tick `N2_OW` of `Converting` ends it (R213). -/
theorem ticks_n2 {p : Params} {s : State} (ho : s.owState = .converting) (h0 : s.owTicks = 0) :
    ticks p p.n2 s = (s.setOwTicks 0).setOwState .reading := by
  rw [Params.n2, ticks_succ, ticks_converting ho h0 (Nat.lt_succ_self _)]
  exact owTick_converting_due (s := s.setOwTicks p.n2Less1) ho (Nat.lt_irrefl _)

/-- No tick of the wait in `Converting` begins a store. -/
theorem ticks_converting_pendingStores {p : Params} {s : State} (ho : s.owState = .converting) (h0 : s.owTicks = 0) {k : Nat}
    (hk : k ≤ p.n2) : (ticks p k s).pendingStores = s.pendingStores := by
  obtain hlt | rfl := Nat.lt_or_eq_of_le hk
  · rw [ticks_converting ho h0 hlt]
    rfl
  · rw [ticks_n2 ho h0]
    rfl

/-- The tick in `Reading` ends in `Idle` with the counter 0 and two more stores begun, to 200 and 201 in some order (R214, R216). -/
theorem tickReading_stores (p : Params) (s : State) :
    (tickReading p s).owState = .idle ∧ (tickReading p s).owTicks = 0 ∧
      ∃ a b, (tickReading p s).pendingStores = s.pendingStores ++ [a, b] ∧
        ((a.index = 200#8 ∧ b.index = 201#8) ∨ (a.index = 201#8 ∧ b.index = 200#8)) := by
  obtain ⟨l, e, lo, hi, stores, v, htick, hstores, -⟩ := tickReading_spec p s
  rw [htick]
  refine ⟨rfl, rfl, ?_⟩
  rcases hstores with rfl | rfl
  · exact ⟨_, _, rfl, .inl ⟨rfl, rfl⟩⟩
  · exact ⟨_, _, rfl, .inr ⟨rfl, rfl⟩⟩

/-- Settles O51: `N1_OW` ticks lead to `Converting` (`ticks_n1`), `N2_OW` more to `Reading` (`ticks_n2`), whose tick is
`tickReading_stores`. -/
theorem firstStoreComesAtTheEndOfTheCycle : Obligations.FirstStoreComesAtTheEndOfTheCycle := by
  unfold Obligations.FirstStoreComesAtTheEndOfTheCycle
  intro p s ho h0 hecho
  obtain ⟨l, e, d, hstart, -⟩ := startConversion_present p (s.setOwTicks 0) hecho
  have hn1 := (ticks_n1 ho h0).trans hstart
  have hconv : (ticks p p.n1 s).owState = .converting := by rw [hn1]
  have hzero : (ticks p p.n1 s).owTicks = 0 := by rw [hn1]; rfl
  have hpend : (ticks p p.n1 s).pendingStores = s.pendingStores := by rw [hn1]; rfl
  have hreading : (ticks p (p.n1 + p.n2) s).owState = .reading := by
    rw [ticks_add, ticks_n2 hconv hzero]
    rfl
  have hbefore : ∀ k, k ≤ p.n1 + p.n2 → (ticks p k s).pendingStores = s.pendingStores := by
    intro k hk
    by_cases hlt : k < p.n1
    · rw [ticks_idle ho h0 hlt]
      rfl
    · obtain ⟨j, rfl⟩ := Nat.exists_eq_add_of_le (Nat.not_lt.mp hlt)
      rw [ticks_add, ticks_converting_pendingStores hconv hzero (by omega), hpend]
  refine ⟨hbefore, hreading, ?_⟩
  rw [ticks_succ, owTick_reading p _ hreading, ← hbefore _ le_rfl]
  exact tickReading_stores p _

/-! ## A device that never answers (R181, R220) -/

/-- `t` differs from `s` by counting and by resets alone. -/
def State.Stalled (p : Params) (s t : State) : Prop :=
  ∃ n tm l e, t = { s with owTicks := n, owTiming := tm, owLog := s.owLog ++ l, env := e } ∧ ∀ x ∈ l, x.slot = resetSlot p

theorem State.Stalled.refl (p : Params) (s : State) : s.Stalled p s :=
  ⟨s.owTicks, s.owTiming, [], s.env, by rw [List.append_nil], by simp⟩

theorem State.Stalled.trans {p : Params} {s t u : State} (h : s.Stalled p t) (h' : t.Stalled p u) : s.Stalled p u := by
  obtain ⟨n, tm, l, e, rfl, hl⟩ := h
  obtain ⟨n', tm', l', e', rfl, hl'⟩ := h'
  exact ⟨n', tm', l ++ l', e', by rw [← List.append_assoc], List.forall_mem_append.mpr ⟨hl, hl'⟩⟩

/-- A tick in `Idle` whose exchanges obey `OW_IDLE_LINE` stalls: the echo of a present device would break that law. -/
theorem owTick_stalled {p : Params} {s : State} (ho : s.owState = .idle)
    (hidle : ∀ x ∈ (owTick p s).owLog.drop s.owLog.length, x.idleLine = true) : s.Stalled p (owTick p s) := by
  by_cases hn : s.owTicks + 1 < p.n1
  · rw [owTick_idle_counts ho hn]
    exact ⟨s.owTicks + 1, s.owTiming, [], s.env, by rw [List.append_nil]; rfl, by simp⟩
  rw [owTick_idle_due ho hn] at hidle ⊢
  by_cases hecho : s.env.drawEcho.1 = p.owResetByte
  · rw [startConversion_absent p (s.setOwTicks 0) hecho]
    exact ⟨_, _, _, _, rfl, List.forall_mem_singleton.mpr rfl⟩
  · obtain ⟨l, e, d, hstart, -⟩ := startConversion_present p (s.setOwTicks 0) hecho
    rw [hstart] at hidle
    have hreset := hidle ⟨.resetTiming, p.owResetByte, s.env.drawEcho.1⟩ (by simp)
    exact absurd (by simpa [Exchange.idleLine] using hreset) hecho

/-- A run of ticks from `Idle` whose exchanges all obey `OW_IDLE_LINE` stalls. -/
theorem ticks_stalled {p : Params} {s : State} (ho : s.owState = .idle) {n : Nat}
    (hidle : ∀ x ∈ (ticks p n s).owLog.drop s.owLog.length, x.idleLine = true) : s.Stalled p (ticks p n s) := by
  induction n with
  | zero => exact State.Stalled.refl p s
  | succ n ih =>
    rw [ticks_succ] at hidle ⊢
    obtain ⟨l, hlog⟩ := owTick_log p (ticks p n s)
    have hbefore : s.Stalled p (ticks p n s) := by
      refine ih fun x hx => hidle x ?_
      rw [hlog, List.drop_append]
      exact List.mem_append_left _ hx
    refine hbefore.trans ?_
    obtain ⟨k, tm, l', e, h, -⟩ := hbefore
    refine owTick_stalled (by rw [h, ho]) fun x hx => hidle x ?_
    exact (List.drop_sublist_drop_left _ (by simp [h])).subset hx

/-- Settles O52: `ticks_stalled`, by induction on the number of ticks. -/
theorem absentDeviceStallsInIdle : Obligations.AbsentDeviceStallsInIdle := by
  unfold Obligations.AbsentDeviceStallsInIdle
  intro p n s ho hidle
  obtain ⟨k, tm, l, e, hticks, hl⟩ := ticks_stalled ho hidle
  rw [hticks]
  exact ⟨ho, rfl, rfl, rfl, rfl, by simpa using hl⟩

end Sys2Proof.Machine
end

section
/-! Interleaving without exceptions: the `NTC` turn of the main loop, the frame of the bus rows, and that nothing ends a run
(60_exceptions.md R240, R246, R251, R256). -/

namespace Sys2Proof.Machine

/-! ## The turn of `NTC` (R251) -/

/-- With nothing begun, the turn of `NTC` draws its stores, begins them and passes the loop on. -/
theorem step_ntc (s : State) (h : s.phase = .running) {pace : Pace} (ht : s.env.drawTurn.1 = .move (.main pace))
    (hp : s.pendingStores = []) (hs : s.owStage = none) (hm : s.mainPos = .ntc) :
    step s = .next (((s.setEnv s.env.drawTurn.2.drawNtc.2).setPending
      ((onceEach s.env.drawTurn.2.drawNtc.1).map ntcStore)).setMainPos .delay) := by
  rw [step_main s h ht hp hs]
  have hm' : (s.setEnv s.env.drawTurn.2).mainPos = .ntc := hm
  simp only [agentFetch, hm']
  rfl

/-- Settles O6: `step_ntc` is the step, and `ntcStores_spec` says where its stores go, for every draw. -/
theorem ntcStoresOnlyItsCellsOnceEach : Obligations.NtcStoresOnlyItsCellsOnceEach := by
  unfold Obligations.NtcStoresOnlyItsCellsOnceEach
  intro s pace h ht hp hs hm
  exact ⟨_, step_ntc s h ht hp hs hm, rfl, ntcStores_spec _⟩

/-! ## The frame of the bus rows (R60, R246) -/

theorem busEvent_refused (p : Params) (e : BusEvent) (s : State) : (busEvent p e s).refused = s.refused := by
  rw [busEvent_frame]

/-- Settles O22: every bus row is some event, with the frame `busEvent_frame` and the cells of `busEvent_cells`, or the mark. -/
theorem busRowFrame : Obligations.BusRowFrame := by
  unfold Obligations.BusRowFrame
  intro i s t hi hx
  rcases exec_bus i hi with ⟨e, he⟩ | he
  · obtain rfl := Host.Outcome.next.inj ((he s).symm.trans hx)
    refine ⟨?_, busEvent_cells _ e s⟩
    rw [busEvent_refused]
    exact busEvent_frame _ e s
  · obtain rfl := Host.Outcome.next.inj ((he s).symm.trans hx)
    exact ⟨rfl, fun _ _ _ _ _ _ => rfl⟩

/-! ## Nothing ends a run (R240, R256) -/

/-- Settles O56: every row of `exec` ends in a next state (`exec_next`), and a step is quiet or runs a row (`step_next`). -/
theorem nothingStopsTheMachine : Obligations.NothingStopsTheMachine := by
  unfold Obligations.NothingStopsTheMachine
  exact ⟨exec_next, step_next⟩

end Sys2Proof.Machine
end

section
/-! Reset and hazards: the `BOOT` writes come first, a write frame that disables the emulator while it runs, and a host write to the
enable cell between two bus events (70_reset_and_hazards.md R270, R271, R280, R281). -/

namespace Sys2Proof.Machine

/-! ## The writes of `BOOT` (R270, R271) -/

/-- Settles O2: `steps_boot` gives the state, and `Memory.read_booted` its cells. -/
theorem bootWritesComeBeforeEveryEvent : Obligations.BootWritesComeBeforeEveryEvent := by
  unfold Obligations.BootWritesComeBeforeEveryEvent
  intro s hboot
  refine ⟨_, steps_boot s hboot, rfl, ?_⟩
  simp +contextual [Memory.read_booted]

/-! ## A write frame that disables the emulator (R121, R126, R280) -/

theorem execAll_append {l : List Instr} {s t : State} (h : execAll l s = .next t) (l' : List Instr) :
    execAll (l ++ l') s = execAll l' t := by
  induction l generalizing s with
  | nil => rw [List.nil_append, Host.Outcome.next.inj h]
  | cons i l ih =>
    obtain ⟨u, hu⟩ := exec_next i s
    rw [execAll_cons i l s u hu] at h
    rw [List.cons_append, execAll_cons i _ s u hu, ih h]

/-- The data bytes that reach a disabled emulator are each reported not handled, and nothing else changes. -/
theorem execAll_disabledWrites {s : State} (hoff : s.mapAt 241#8 = 0#8) (data : List Byte) :
    execAll (data.map .busWdataGeneric) s =
      .next { s with busOut := s.busOut ++ List.replicate data.length ⟨false, none⟩ } := by
  induction data generalizing s with
  | nil => simp [execAll]
  | cons b data ih =>
    have hone : exec (.busWdataGeneric b) s = .next (notHandled s) :=
      congrArg Host.Outcome.next (busEvent_disabled _ (.wdata b) s hoff)
    rw [List.map_cons, execAll_cons _ _ _ _ hone, ih (s := notHandled s) hoff, List.length_cons, List.replicate_succ,
      List.append_cons]
    rfl

/-- The data bytes up to the 0 that falls on 241: all are stored, and the emulator is left disabled. -/
theorem execAll_writesThatDisable {s : State} (hen : s.mapAt 241#8 ≠ 0#8) (hw : s.writeState = .genericData)
    {data : List Byte} (hpos : s.cursor.toNat + data.length = 241) :
    ∃ t, execAll ((data ++ [0#8]).map .busWdataGeneric) s = .next t ∧ s.GenericWrites (data ++ [0#8]) t ∧
      t.mapAt 241#8 = 0#8 := by
  have hkeep : ∀ k, s.cursor.toNat + k = 241 → data[k]? ≠ some 0#8 := by
    intro k hk
    rw [List.getElem?_eq_none (by omega)]
    nofun
  obtain ⟨t, hrun, hwrites, hent⟩ := execAll_genericWrites hen hw data hkeep
  have hwt : t.writeState = .genericData := by rw [hwrites.frame, hw]
  have hlast : exec (.busWdataGeneric 0#8) t = .next (mirrorWrite 0#8 t) :=
    congrArg Host.Outcome.next (busEvent_generic _ hent 0#8 hwt)
  have hall := genericWrites_snoc hwrites 0#8
  refine ⟨_, List.map_append ▸ execAll_snoc hrun hlast, hall, ?_⟩
  have hcell := hall.inOrder data.length 0#8 List.getElem?_concat_length (by omega)
  rwa [hpos] at hcell

/-- Settles O27: the bytes up to the 0 on 241 are stored (`execAll_writesThatDisable`), those after it find the emulator disabled
(`execAll_disabledWrites`). -/
theorem genericWriteFrameCanDisableTheEmulator : Obligations.GenericWriteFrameCanDisableTheEmulator := by
  unfold Obligations.GenericWriteFrameCanDisableTheEmulator
  intro s idx before after hen hpos
  have hidx : idx ≠ startByte := by
    rintro rfl
    have hstart : startByte.toNat = 254 := rfl
    omega
  obtain ⟨t, hrun, hwrites, hoff⟩ := execAll_writesThatDisable (s := loadCursor idx s) hen rfl hpos
  obtain ⟨hframe, hcursor, hinOrder, -, helse⟩ := hwrites
  have hsplit : (before ++ 0#8 :: after).map Instr.busWdataGeneric =
      (before ++ [0#8]).map .busWdataGeneric ++ after.map .busWdataGeneric := by simp
  have hlen : (before ++ [0#8]).length = before.length + 1 := List.length_append
  rw [hlen] at hframe hcursor helse
  have h242 : t.cursor = 242#8 := BitVec.eq_of_toNat_eq (by rw [hcursor]; show min (idx.toNat + _) 255 = 242; omega)
  refine ⟨{ t with busOut := t.busOut ++ List.replicate after.length ⟨false, none⟩ }, ?_, ?_, fun k b hk => ?_, hoff,
    fun a ha => ?_⟩
  · rw [execAll_cons _ _ _ _ (exec_busAddrIndex hen hidx), hsplit, execAll_append hrun, execAll_disabledWrites hoff]
  · rw [← h242, List.replicate_succ, List.append_cons]
    conv_lhs => rw [hframe]
    rfl
  · have hin : k < before.length := (List.getElem?_eq_some_iff.mp hk).1
    exact hinOrder k b ((List.getElem?_append_left hin).trans hk) (show idx.toNat + k < 255 by omega)
  · exact helse a (show a < idx.toNat ∨ min (idx.toNat + (before.length + 1)) 256 ≤ a by omega)

/-! ## A host write to the enable cell (R166, R281) -/

/-- The row an event decodes to runs that event (R105, R138). -/
theorem exec_decodeBus_word (e : BusEvent) (s : State) :
    exec (decodeBus Config.params s.busMode e.word) s = .next (busEvent Config.params e s) := by
  rw [decodeBus_word, exec_selectEvent]

/-- Every event of an enabled emulator is reported handled (R122). -/
theorem busEvent_enabled_busOut (p : Params) (e : BusEvent) {s : State} (hen : s.mapAt 241#8 ≠ 0#8) :
    ∃ d, (busEvent p e s).busOut = s.busOut ++ [⟨true, d⟩] := by
  cases e with
  | addr b =>
    rw [busEvent_addr p b s hen, addrPhase]
    split <;> exact ⟨_, rfl⟩
  | wdata b =>
    rw [busEvent_wdata p b s hen, dataPhase]
    cases s.writeState with
    | awaitingSubCommand => dsimp only; split <;> exact ⟨_, rfl⟩
    | _ => exact ⟨_, rfl⟩
  | rreq =>
    rw [busEvent_rreq p s hen, readSide, fireHook]
    split
    · cases p.hookMode <;> exact ⟨_, rfl⟩
    · exact ⟨_, rfl⟩

/-- What an enabled event can change (`busEvent_frame`), with its report. -/
theorem busEvent_handled (p : Params) (e : BusEvent) {s : State} (hen : s.mapAt 241#8 ≠ 0#8) :
    ∃ d, busEvent p e s =
      { s with
        map := (busEvent p e s).map, writeState := (busEvent p e s).writeState
        cursor := (busEvent p e s).cursor, busOut := s.busOut ++ [⟨true, d⟩] } := by
  obtain ⟨d, hout⟩ := busEvent_enabled_busOut p e hen
  exact ⟨d, hout ▸ busEvent_frame p e s⟩

theorem read_storeCell (p : Params) (v : Byte) (s : State) (a : Nat) :
    (storeCell p v s).map.read a = if a = s.bidx.toNat then v else s.map.read a := Memory.read_write _ _ _ _

/-- Settles O35: the cell written is the enable gate of the next event, which is tested first (`busEvent_disabled`); past the gate the
event takes the rule of its kind, in the decoder state and at the cursor that the host write has kept. -/
theorem hostEnableTakesEffectAtTheNextEvent : Obligations.HostEnableTakesEffectAtTheNextEvent := by
  unfold Obligations.HostEnableTakesEffectAtTheNextEvent
  intro s v e hb hidx
  set t := storeCell Config.params v s
  have hread : ∀ a, t.map.read a = if a = 241 then v else s.map.read a := by
    intro a
    rw [read_storeCell, hidx]
    rfl
  have henable : t.mapAt 241#8 = v := hread 241
  have hkeep : ∀ a, a ≠ 241 → t.map.read a = s.map.read a := fun a ha => (hread a).trans (if_neg ha)
  refine ⟨t, busEvent Config.params e t, exec_hostWValue hb v, rfl, rfl, henable, hkeep, exec_decodeBus_word e t, ?_⟩
  split
  · next hv => exact busEvent_disabled _ e t (henable.trans hv)
  · next hv =>
    have hen : t.mapAt 241#8 ≠ 0#8 := henable.symm ▸ hv
    refine ⟨busEvent_handled _ e hen, ?_⟩
    cases e with
    | addr b =>
      dsimp only
      split
      · next hstart => exact hstart ▸ busEvent_start _ hen
      · next hother => exact busEvent_index _ hen hother
    | wdata b =>
      have hstate : t.writeState = s.writeState := rfl
      dsimp only
      split
      · next hw => exact busEvent_awaitingIndex _ hen b (hstate.trans hw)
      · next hw => exact busEvent_generic _ hen b (hstate.trans hw)
      · next hw =>
        split
        · next hsub => exact hsub ▸ busEvent_subByte _ hen (hstate.trans hw)
        · next hsub => exact busEvent_notSubByte _ hen (hstate.trans hw) hsub
      · next hw => exact busEvent_target _ hen b (hstate.trans hw)
      · next hw => exact busEvent_valueHi _ hen b (hstate.trans hw)
      · next hw => exact busEvent_valueLo _ hen b (hstate.trans hw)
    | rreq =>
      have h242 : t.mapAt 242#8 = s.mapAt 242#8 := hread 242
      have h244 : t.mapAt 244#8 = s.mapAt 244#8 := hread 244
      have hcursor : t.cursor = s.cursor := rfl
      dsimp only
      rw [busEvent_rreq _ t hen, ← h242, ← h244, ← hcursor]
      split
      · next hhook => exact readSide_hook _ t hhook
      · next hno => exact readSide_mirror _ t hno

end Sys2Proof.Machine
end
